-- ==== Sys2Proof/Word.lean ====
section
/-! DEFINITION. The two widths of the machine: the 16-bit word of every register and of the ALU, and the
8-bit byte of data memory (00_scope.md R7, R12). -/

namespace Sys2Proof

/-- A 16-bit value: a register, a program address, a data address, an instruction word (R7, R9). -/
abbrev Word := BitVec 16

/-- One byte of data memory (R12). -/
abbrev Byte := BitVec 8

end Sys2Proof
end

