-- ==== Sys2Proof/Syntax.lean ====
section
/-! DEFINITION. The instructions: one constructor per row of spec/opcode_table.json, in the table's order.
Immediate operands are the raw fields of the word, because a pending `pfix` keeps their low five bits and
replaces the rest (46_prefix.md R242); how an unprefixed field is extended is in Machine/Operands.lean. -/

namespace Sys2Proof

/-- The eight general registers (10_state.md R20). -/
inductive Reg where
  | r0 | r1 | r2 | r3 | r4 | r5 | r6 | r7
deriving DecidableEq, Repr

/-- The eight condition codes of the compare instructions (30_encoding.md R93). -/
inductive Cond where
  | eq | ne | uge | ult | ge | lt | ugt | gt
deriving DecidableEq, Repr

/-- The six instruction formats (30_encoding.md R81). -/
inductive Format where
  | p | i2 | i1 | j | r3 | r2
deriving DecidableEq, Repr

/-- One constructor per row of the opcode table. Operand fields stand in the order Rd (or cc), Rs, Rn or
immediate; a don't-care field is no operand (R102). -/
inductive Instr where
  -- type R2 (R99)
  | movRr (rd rs : Reg)
  | movRq (rs : Reg)
  | zextRr (rd rs : Reg)
  | sextRr (rd rs : Reg)
  | lsrbRr (rd rs : Reg)
  | asrbRr (rd rs : Reg)
  | lslbRr (rd rs : Reg)
  | sextwRr (rd rs : Reg)
  | lsrRr (rd rs : Reg)
  | lsrcRr (rd rs : Reg)
  | asrRr (rd rs : Reg)
  | movwPr (rd rs : Reg)
  | sel0rr (rd rs : Reg)
  | selR0r (rd rs : Reg)
  | negRr (rd rs : Reg)
  | notRr (rd rs : Reg)
  | jmpR (rs : Reg)
  | callR (rd : Reg)
  | reservedR2Op10010
  | reservedR2Op10011
  | movSr (rd : Reg)
  | movRs (rs : Reg)
  | setNt (rd : Reg)
  | setT (rd : Reg)
  | ret
  | reti
  | dint
  | eint
  | halt
  | reservedR2Op11101
  | reservedR2Op11110
  | reservedR2Op11111
  -- type R3 (R98)
  | cmpCrr (cc : Cond) (rs rn : Reg)
  | cmpcCrr (cc : Cond) (rs rn : Reg)
  | subcRrr (rd rs rn : Reg)
  | subRrr (rd rs rn : Reg)
  | andRrr (rd rs rn : Reg)
  | orRrr (rd rs rn : Reg)
  | selRrr (rd rs rn : Reg)
  | reservedR3Op01111
  | xorRrr (rd rs rn : Reg)
  | adcRrr (rd rs rn : Reg)
  | addRrr (rd rs rn : Reg)
  | movwNr (rd rs rn : Reg)
  | movzbNr (rd rs rn : Reg)
  | movsbNr (rd rs rn : Reg)
  | movwRn (rd rs rn : Reg)
  | movbRn (rd rs rn : Reg)
  -- type J (R97)
  | reservedJOp11000
  | reservedJOp11001
  | reservedJOp11010
  | reservedJOp11011
  | brNt (a : BitVec 9)
  | brT (a : BitVec 9)
  | addKq (a : BitVec 9)
  | jmpK (a : BitVec 9)
  -- type I1 (R94)
  | movwAr (rd : Reg) (k : BitVec 8)
  | movsbAr (rd : Reg) (k : BitVec 8)
  | movwRa (rd : Reg) (k : BitVec 8)
  | movbRa (rd : Reg) (k : BitVec 8)
  | movKr (rd : Reg) (k : BitVec 8)
  | subKr (rd : Reg) (k : BitVec 8)
  | addKr (rd : Reg) (k : BitVec 8)
  | leaQr (rd : Reg) (k : BitVec 8)
  | movwQr (rd : Reg) (k : BitVec 8)
  | movsbQr (rd : Reg) (k : BitVec 8)
  | movwRq (rd : Reg) (k : BitVec 8)
  | movbRq (rd : Reg) (k : BitVec 8)
  -- type I2 (R95)
  | cmpCrk (cc : Cond) (rs : Reg) (k : BitVec 5)
  | cmpcCrk (cc : Cond) (rs : Reg) (k : BitVec 5)
  | andKr (rd rs : Reg) (k : BitVec 5)
  | leaMr (rd rs : Reg) (k : BitVec 5)
  | movwMr (rd rs : Reg) (k : BitVec 5)
  | movsbMr (rd rs : Reg) (k : BitVec 5)
  | movwRm (rd rs : Reg) (k : BitVec 5)
  | movbRm (rd rs : Reg) (k : BitVec 5)
  -- type P (R96)
  | reservedPOp11100
  | reservedPOp11101
  | call (a : BitVec 11)
  | pfixK (p : BitVec 11)
  /-- The all-zero word, which the table lists as a row of its own (R103, R185; log entry 7). -/
  | nop
deriving DecidableEq, Repr

/-- The format of the row (30_encoding.md R94 to R99). -/
def Instr.format : Instr → Format
  | .movRr .. | .movRq .. | .zextRr .. | .sextRr .. | .lsrbRr .. | .asrbRr .. | .lslbRr .. | .sextwRr ..
  | .lsrRr .. | .lsrcRr .. | .asrRr .. | .movwPr .. | .sel0rr .. | .selR0r .. | .negRr .. | .notRr ..
  | .jmpR .. | .callR .. | .reservedR2Op10010 | .reservedR2Op10011 | .movSr .. | .movRs .. | .setNt ..
  | .setT .. | .ret | .reti | .dint | .eint | .halt | .reservedR2Op11101 | .reservedR2Op11110
  | .reservedR2Op11111 | .nop => .r2
  | .cmpCrr .. | .cmpcCrr .. | .subcRrr .. | .subRrr .. | .andRrr .. | .orRrr .. | .selRrr ..
  | .reservedR3Op01111 | .xorRrr .. | .adcRrr .. | .addRrr .. | .movwNr .. | .movzbNr .. | .movsbNr ..
  | .movwRn .. | .movbRn .. => .r3
  | .reservedJOp11000 | .reservedJOp11001 | .reservedJOp11010 | .reservedJOp11011 | .brNt .. | .brT ..
  | .addKq .. | .jmpK .. => .j
  | .movwAr .. | .movsbAr .. | .movwRa .. | .movbRa .. | .movKr .. | .subKr .. | .addKr .. | .leaQr ..
  | .movwQr .. | .movsbQr .. | .movwRq .. | .movbRq .. => .i1
  | .cmpCrk .. | .cmpcCrk .. | .andKr .. | .leaMr .. | .movwMr .. | .movsbMr .. | .movwRm ..
  | .movbRm .. => .i2
  | .reservedPOp11100 | .reservedPOp11101 | .call .. | .pfixK .. => .p

/-- The rows the spec marks Reserved (R100) or "(Not implemented)" (R101). -/
def Instr.isReserved : Instr → Bool
  | .reservedR2Op10010 | .reservedR2Op10011 | .reservedR2Op11101 | .reservedR2Op11110
  | .reservedR2Op11111 | .reservedR3Op01111 | .reservedJOp11000 | .reservedJOp11001
  | .reservedJOp11010 | .reservedJOp11011 | .reservedPOp11100 | .reservedPOp11101
  | .movSr .. | .movRs .. => true
  | .movRr .. | .movRq .. | .zextRr .. | .sextRr .. | .lsrbRr .. | .asrbRr .. | .lslbRr .. | .sextwRr ..
  | .lsrRr .. | .lsrcRr .. | .asrRr .. | .movwPr .. | .sel0rr .. | .selR0r .. | .negRr .. | .notRr ..
  | .jmpR .. | .callR .. | .setNt .. | .setT .. | .ret | .reti | .dint | .eint | .halt | .nop
  | .cmpCrr .. | .cmpcCrr .. | .subcRrr .. | .subRrr .. | .andRrr .. | .orRrr .. | .selRrr ..
  | .xorRrr .. | .adcRrr .. | .addRrr .. | .movwNr .. | .movzbNr .. | .movsbNr .. | .movwRn ..
  | .movbRn .. | .brNt .. | .brT .. | .addKq .. | .jmpK .. | .movwAr .. | .movsbAr .. | .movwRa ..
  | .movbRa .. | .movKr .. | .subKr .. | .addKr .. | .leaQr .. | .movwQr .. | .movsbQr .. | .movwRq ..
  | .movbRq .. | .cmpCrk .. | .cmpcCrk .. | .andKr .. | .leaMr .. | .movwMr .. | .movsbMr ..
  | .movwRm .. | .movbRm .. | .call .. | .pfixK .. => false

/-- The instructions that a pending prefix may precede: the 25 of R243 (types I1, I2, J and P with an
immediate that is used, and not `pfix`). -/
def Instr.isPrefixable (i : Instr) : Bool :=
  match i with
  | .pfixK _ => false
  | i => (i.format == .i1 || i.format == .i2 || i.format == .j || i.format == .p) && !i.isReserved

end Sys2Proof
end

