-- ==== Sys2Proof/Config.lean ====
section
/-! DEFINITION. What an implementation fixes: the parameters the spec leaves open (00_scope.md R8, each with the
default R8 gives it), and the free bits that no rule fixes (00_scope.md R10, `draw`). -/

namespace Sys2Proof

/-- `R3_LAYOUT`: where Rn and the two low opcode bits sit in format R3 (R8, R81; 90_conflicts.md C1). -/
inductive R3Layout where
  /-- Rn in bits 4..2, the low opcode bits in bits 1..0. -/
  | rn42
  /-- The low opcode bits in bits 4..3, Rn in bits 2..0. -/
  | rn20
deriving DecidableEq, Repr

/-- `PROG_UNIT`: what one program address names. The spec gives one value: a 16-bit word (R8; 10_state.md R25, R26;
20_memory.md R52; log entry 6). -/
inductive ProgUnit where
  | word
deriving DecidableEq, Repr

/-- `BR_BASE`: the constant added, with the offset, to the address of a PC-relative branch; open between
1 and 0 (R8, R190; 92_eei_decisions.md D4). -/
inductive BrBase where
  | one
  | zero
deriving DecidableEq, Repr

/-- `BYTE_ORDER` of a word in data memory (R8, R53). -/
inductive ByteOrder where
  | little
  | big
deriving DecidableEq, Repr

/-- `MISALIGNED_WORD`: what a word access at an odd address does (R8, R56). -/
inductive MisalignedWord where
  /-- The model fault `MisalignedWord`. -/
  | fault
  /-- Bit 0 of the address is ignored. -/
  | clearBit0
deriving DecidableEq, Repr

/-- `SUBC_SENSE`: how `subc` reads C (R8, R127; 90_conflicts.md C4). -/
inductive SubcSense where
  /-- `Rs - Rn - (1 - C)`. -/
  | notBorrow
  /-- `Rs - Rn - C`. -/
  | literal
deriving DecidableEq, Repr

/-- `LOGIC_C`: C after `and`, `or`, `xor`, `not` (R8, R137). -/
inductive LogicC where
  /-- Any value: a free bit. -/
  | draw
  | zero
  | unchanged
deriving DecidableEq, Repr

/-- A run of populated addresses of one of the two memories (`DATA_MAP`, `PROG_MAP`, R8). -/
structure Region where
  base : Nat
  size : Nat
deriving DecidableEq, Repr

/-- What one word of an interrupt frame saves (`IRQ_FRAME`, R8). -/
inductive FrameWord where
  /-- PC, the return address. -/
  | pc
  /-- The SR image. -/
  | sr
  /-- A general register. The spec's own frame saves none. -/
  | reg (r : Reg)
deriving DecidableEq, Repr

/-- The bit numbers of the four flags in an SR image, a part of `IRQ_FRAME` (92_eei_decisions.md D29); by default
those of 60_exceptions.md R277. -/
structure ImageBits where
  i : Fin 16 := 3
  t : Fin 16 := 2
  c : Fin 16 := 1
  z : Fin 16 := 0
deriving DecidableEq, Repr

/-- `IRQ_FRAME`: what interrupt entry saves and where (R8). It saves in data memory through SP (60_exceptions.md
R288): `words` are pushed in order. The default is R276's, PC and then the SR image; every other value is the model's
reading of an open parameter (log entry 20). -/
structure IrqFrame where
  words : List FrameWord := [.pc, .sr]
  image : ImageBits := {}
deriving DecidableEq, Repr

/-- `IRQ_FRAME` at R8's default. -/
def IrqFrame.default : IrqFrame := {}

/-- A frame from which the interrupted program can go on: it saves PC, saves no word twice, and gives the four flags
of the image four different bits. -/
def IrqFrame.wf (f : IrqFrame) : Bool :=
  f.words.contains .pc && decide f.words.Nodup && decide [f.image.i, f.image.t, f.image.c, f.image.z].Nodup

/-- `RESERVED_OP`: the behaviour of a reserved or not-implemented encoding (R8; 93_implementation_defined.md U1,
U2). -/
inductive ReservedOp where
  /-- The model fault `ReservedInstruction`. -/
  | fault
  /-- The model declines the run. -/
  | refuse
deriving DecidableEq, Repr

/-- The parameters of R8 (log entry 6). -/
structure Config where
  r3Layout : R3Layout := .rn42
  progUnit : ProgUnit := .word
  brBase : BrBase := .one
  byteOrder : ByteOrder := .little
  misalignedWord : MisalignedWord := .fault
  /-- `PREFIX_WORD_SCALE`: a prefixed immediate of a word access is still scaled by 2 (R245). -/
  prefixWordScale : Bool := true
  subcSense : SubcSense := .notBorrow
  logicC : LogicC := .draw
  dataMap : List Region := [⟨0, 65536⟩]
  progMap : List Region := [⟨0, 65536⟩]
  resetPc : Word := 0
  /-- `HAS_IRQ` together with `IRQ_VECTOR`: `none` is `HAS_IRQ = false`, `some v` is `HAS_IRQ = true` with the
  vector `v`, which must then be given (R8, R273). -/
  irqVector : Option Word := none
  irqFrame : IrqFrame := IrqFrame.default
  reservedOp : ReservedOp := .fault
deriving DecidableEq, Repr

/-- Every parameter at R8's default. -/
def Config.default : Config := {}

/-- R301: `RESET_PC` and `IRQ_VECTOR` differ when the platform has an interrupt input; and the frame of an interrupt
can be returned from. -/
def Config.wf (c : Config) : Bool :=
  c.irqVector != some c.resetPc && c.irqFrame.wf

/-- The free bits: `drawBit n` is the n-th bit of a run that no rule of the spec fixes (R10 `draw(1)`). It has no
value in the model: a statement holds whatever it is (log entry 5). -/
opaque Config.drawBit : Nat → Bool

end Sys2Proof
end

