-- ==== Sys2Proof/WellFormed.lean ====
section
/-! DEFINITION. Which terms of `Instr` stand for an instruction word. Register fields, condition codes and
immediate fields are well-formed by their types; one check is left. -/

namespace Sys2Proof

/-- The all-zero word has one name in the model: `mov r0, r0` is written `nop`, the row the opcode table gives
that word (43_moves_select.md R185; log entry 7). Every other term is well-formed. -/
def Instr.wf (i : Instr) : Bool :=
  i != .movRr .r0 .r0

end Sys2Proof
end

