-- ==== Sys2Proof/Decode.lean ====
section
/-! DEFINITION. Instruction words to instructions (30_encoding.md R80 to R102, R106), and after it the encoder,
written from the same tables. Every one of the 65,536 words has a row (R82), so decoding one word never fails; a
decoder of a list of words refuses an empty list by name. -/

namespace Sys2Proof

/-! ### Fields -/

/-- The field of `n` bits of `w` whose lowest bit is bit `lo` (00_scope.md R9). -/
def field (w : Word) (lo n : Nat) : BitVec n :=
  w.extractLsb' lo n

/-- The 3-bit register number of a register (10_state.md R20). -/
def Reg.bits : Reg → BitVec 3
  | .r0 => 0#3 | .r1 => 1#3 | .r2 => 2#3 | .r3 => 3#3
  | .r4 => 4#3 | .r5 => 5#3 | .r6 => 6#3 | .r7 => 7#3

/-- The register a 3-bit field names (10_state.md R20). -/
def Reg.ofBits (b : BitVec 3) : Reg :=
  match b.toNat with
  | 0 => .r0 | 1 => .r1 | 2 => .r2 | 3 => .r3
  | 4 => .r4 | 5 => .r5 | 6 => .r6 | _ => .r7

/-- The 3-bit code of a condition (R93). -/
def Cond.bits : Cond → BitVec 3
  | .eq => 0#3 | .ne => 1#3 | .uge => 2#3 | .ult => 3#3
  | .ge => 4#3 | .lt => 5#3 | .ugt => 6#3 | .gt => 7#3

/-- The condition a 3-bit field names; all eight values are defined (R93, 42_compare.md R160). -/
def Cond.ofBits (b : BitVec 3) : Cond :=
  match b.toNat with
  | 0 => .eq | 1 => .ne | 2 => .uge | 3 => .ult
  | 4 => .ge | 5 => .lt | 6 => .ugt | _ => .gt

/-! ### Types -/

/-- The type of an instruction word, by its high bits alone (R82): `w[15:11]` is 0 or 1 exactly when
`w[15:12] = 0000`, 2 to 5 when `w[13:12]` is 01 or 10 under `w[15:14] = 00`, 6 or 7 when `w[15:12] = 0011`. -/
def formatOf (w : Word) : Format :=
  let top := (field w 11 5).toNat
  if top < 2 then .r2
  else if top < 6 then .r3
  else if top < 8 then .j
  else if top < 20 then .i1
  else if top < 28 then .i2
  else .p

/-- The two low opcode bits of an R3 word (R81, R82; `R3_LAYOUT`, 90_conflicts.md C1). -/
def r3LowOp (lay : R3Layout) (w : Word) : BitVec 2 :=
  match lay with
  | .rn42 => field w 0 2
  | .rn20 => field w 3 2

/-- The Rn field of an R3 word (R81, R87; `R3_LAYOUT`). -/
def r3Rn (lay : R3Layout) (w : Word) : Reg :=
  match lay with
  | .rn42 => Reg.ofBits (field w 2 3)
  | .rn20 => Reg.ofBits (field w 0 3)

/-! ### Rows, by type -/

/-- Type R2 (R88, R99): `op = w[4:0]`; bit 11 and the unused register fields are ignored (R102). A move of R0 to
itself, of which the all-zero word is the canonical encoding, is the table's row `nop` (R103, R185; log entry 7). -/
def decodeR2 (w : Word) : Instr :=
  let rd := Reg.ofBits (field w 8 3)
  let rs := Reg.ofBits (field w 5 3)
  match (field w 0 5).toNat with
  | 0 => if rd = .r0 ∧ rs = .r0 then .nop else .movRr rd rs
  | 1 => .movRq rs
  | 2 => .zextRr rd rs
  | 3 => .sextRr rd rs
  | 4 => .lsrbRr rd rs
  | 5 => .asrbRr rd rs
  | 6 => .lslbRr rd rs
  | 7 => .sextwRr rd rs
  | 8 => .lsrRr rd rs
  | 9 => .lsrcRr rd rs
  | 10 => .asrRr rd rs
  | 11 => .movwPr rd rs
  | 12 => .sel0rr rd rs
  | 13 => .selR0r rd rs
  | 14 => .negRr rd rs
  | 15 => .notRr rd rs
  | 16 => .jmpR rs
  | 17 => .callR rd
  | 18 => .reservedR2Op10010
  | 19 => .reservedR2Op10011
  | 20 => .movSr rd
  | 21 => .movRs rs
  | 22 => .setNt rd
  | 23 => .setT rd
  | 24 => .ret
  | 25 => .reti
  | 26 => .dint
  | 27 => .eint
  | 28 => .halt
  | 29 => .reservedR2Op11101
  | 30 => .reservedR2Op11110
  | _ => .reservedR2Op11111 -- 11111, the last value of five bits

/-- Type R3 (R87, R98): `op = w[13:11]` followed by the two low opcode bits. -/
def decodeR3 (lay : R3Layout) (w : Word) : Instr :=
  let rd := Reg.ofBits (field w 8 3)
  let cc := Cond.ofBits (field w 8 3)
  let rs := Reg.ofBits (field w 5 3)
  let rn := r3Rn lay w
  match (field w 11 3 ++ r3LowOp lay w).toNat with
  | 8 => .cmpCrr cc rs rn
  | 9 => .cmpcCrr cc rs rn
  | 10 => .subcRrr rd rs rn
  | 11 => .subRrr rd rs rn
  | 12 => .andRrr rd rs rn
  | 13 => .orRrr rd rs rn
  | 14 => .selRrr rd rs rn
  | 15 => .reservedR3Op01111
  | 16 => .xorRrr rd rs rn
  | 17 => .adcRrr rd rs rn
  | 18 => .addRrr rd rs rn
  | 19 => .movwNr rd rs rn
  | 20 => .movzbNr rd rs rn
  | 21 => .movsbNr rd rs rn
  | 22 => .movwRn rd rs rn
  | _ => .movbRn rd rs rn -- 10111, the last opcode of type R3

/-- Type J (R86, R97): `op = w[13:9]`, whose two high bits are 11, so `w[11:9]` tells the eight rows apart. -/
def decodeJ (w : Word) : Instr :=
  let a := field w 0 9
  match (field w 9 3).toNat with
  | 0 => .reservedJOp11000
  | 1 => .reservedJOp11001
  | 2 => .reservedJOp11010
  | 3 => .reservedJOp11011
  | 4 => .brNt a
  | 5 => .brT a
  | 6 => .addKq a
  | _ => .jmpK a -- 11111, the last value of three bits

/-- Type I1 (R85, R94): `op = w[15:11]`, 01000 to 10011. -/
def decodeI1 (w : Word) : Instr :=
  let rd := Reg.ofBits (field w 8 3)
  let k := field w 0 8
  match (field w 11 5).toNat with
  | 8 => .movwAr rd k
  | 9 => .movsbAr rd k
  | 10 => .movwRa rd k
  | 11 => .movbRa rd k
  | 12 => .movKr rd k
  | 13 => .subKr rd k
  | 14 => .addKr rd k
  | 15 => .leaQr rd k
  | 16 => .movwQr rd k
  | 17 => .movsbQr rd k
  | 18 => .movwRq rd k
  | _ => .movbRq rd k -- 10011, the last opcode of type I1

/-- Type I2 (R84, R95): `op = w[15:11]`, 10100 to 11011. -/
def decodeI2 (w : Word) : Instr :=
  let rd := Reg.ofBits (field w 8 3)
  let cc := Cond.ofBits (field w 8 3)
  let rs := Reg.ofBits (field w 5 3)
  let k := field w 0 5
  match (field w 11 5).toNat with
  | 20 => .cmpCrk cc rs k
  | 21 => .cmpcCrk cc rs k
  | 22 => .andKr rd rs k
  | 23 => .leaMr rd rs k
  | 24 => .movwMr rd rs k
  | 25 => .movsbMr rd rs k
  | 26 => .movwRm rd rs k
  | _ => .movbRm rd rs k -- 11011, the last opcode of type I2

/-- Type P (R83, R96): `op = w[15:11]`, 11100 to 11111. -/
def decodeP (w : Word) : Instr :=
  let a := field w 0 11
  match (field w 11 5).toNat with
  | 28 => .reservedPOp11100
  | 29 => .reservedPOp11101
  | 30 => .call a
  | _ => .pfixK a -- 11111, the last value of five bits

/-- The decoding algorithm for one word (R106). -/
def decode (lay : R3Layout) (w : Word) : Instr :=
  match formatOf w with
  | .r2 => decodeR2 w
  | .r3 => decodeR3 lay w
  | .j => decodeJ w
  | .i1 => decodeI1 w
  | .i2 => decodeI2 w
  | .p => decodeP w

/-- Why a list of words gives no instruction. -/
inductive DecodeError where
  /-- There is no word to decode. -/
  | noWord
deriving DecidableEq, Repr

/-- The first instruction of a list of program words, and the words after it: every instruction is one word
(R80), and the decoder never looks ahead (R105). -/
def decodeWords (lay : R3Layout) : List Word → Except DecodeError (Instr × List Word)
  | [] => .error .noWord
  | w :: rest => .ok (decode lay w, rest)

/-- The instruction the decoder reads, under the default layout, from a word numbered as
spec/opcode_table.json numbers its bits: the whole instruction is one 16-bit program word (R52, R80). -/
def decodeTableWord (nbits w : Nat) : Option Instr :=
  if nbits ≤ 16 ∧ w < 65536 then
    match decodeWords Config.default.r3Layout [BitVec.ofNat 16 w] with
    | .ok (i, _) => some i
    | .error _ => none
  else none

/-! ### The encoder -/

/-- Type P: `op[15:11] a[10:0]` (R81, R83). -/
def wordP (op : BitVec 5) (a : BitVec 11) : Word :=
  op ++ a

/-- Type I2: `op[15:11] Rd[10:8] Rs[7:5] k[4:0]` (R81, R84). -/
def wordI2 (op : BitVec 5) (d s : BitVec 3) (k : BitVec 5) : Word :=
  op ++ d ++ s ++ k

/-- Type I1: `op[15:11] Rd[10:8] k[7:0]` (R81, R85). -/
def wordI1 (op : BitVec 5) (d : BitVec 3) (k : BitVec 8) : Word :=
  op ++ d ++ k

/-- Type J: `00[15:14] op[13:9] a[8:0]` (R81, R86). -/
def wordJ (op : BitVec 5) (a : BitVec 9) : Word :=
  0#2 ++ op ++ a

/-- Type R3: `00[15:14] op_hi[13:11] Rd[10:8] Rs[7:5]`, then `Rn[4:2] op_lo[1:0]` or, under
`R3_LAYOUT = rn_2_0`, `op_lo[4:3] Rn[2:0]` (R81, R87). -/
def wordR3 (lay : R3Layout) (hi : BitVec 3) (lo : BitVec 2) (d s n : BitVec 3) : Word :=
  match lay with
  | .rn42 => 0#2 ++ hi ++ d ++ s ++ n ++ lo
  | .rn20 => 0#2 ++ hi ++ d ++ s ++ lo ++ n

/-- Type R2: `0000[15:12] x[11] Rd[10:8] Rs[7:5] op[4:0]`, with 0 in bit 11 and in an unused register field, the
assembler's canonical encoding (R81, R88, R102). -/
def wordR2 (op : BitVec 5) (d s : BitVec 3) : Word :=
  0#5 ++ d ++ s ++ op

/-- The word of an instruction (R94 to R99). -/
def encode (lay : R3Layout) : Instr → Word
  | .movRr rd rs => wordR2 0b00000#5 rd.bits rs.bits
  | .movRq rs => wordR2 0b00001#5 0#3 rs.bits
  | .zextRr rd rs => wordR2 0b00010#5 rd.bits rs.bits
  | .sextRr rd rs => wordR2 0b00011#5 rd.bits rs.bits
  | .lsrbRr rd rs => wordR2 0b00100#5 rd.bits rs.bits
  | .asrbRr rd rs => wordR2 0b00101#5 rd.bits rs.bits
  | .lslbRr rd rs => wordR2 0b00110#5 rd.bits rs.bits
  | .sextwRr rd rs => wordR2 0b00111#5 rd.bits rs.bits
  | .lsrRr rd rs => wordR2 0b01000#5 rd.bits rs.bits
  | .lsrcRr rd rs => wordR2 0b01001#5 rd.bits rs.bits
  | .asrRr rd rs => wordR2 0b01010#5 rd.bits rs.bits
  | .movwPr rd rs => wordR2 0b01011#5 rd.bits rs.bits
  | .sel0rr rd rs => wordR2 0b01100#5 rd.bits rs.bits
  | .selR0r rd rs => wordR2 0b01101#5 rd.bits rs.bits
  | .negRr rd rs => wordR2 0b01110#5 rd.bits rs.bits
  | .notRr rd rs => wordR2 0b01111#5 rd.bits rs.bits
  | .jmpR rs => wordR2 0b10000#5 0#3 rs.bits
  | .callR rd => wordR2 0b10001#5 rd.bits 0#3
  | .reservedR2Op10010 => wordR2 0b10010#5 0#3 0#3
  | .reservedR2Op10011 => wordR2 0b10011#5 0#3 0#3
  | .movSr rd => wordR2 0b10100#5 rd.bits 0#3
  | .movRs rs => wordR2 0b10101#5 0#3 rs.bits
  | .setNt rd => wordR2 0b10110#5 rd.bits 0#3
  | .setT rd => wordR2 0b10111#5 rd.bits 0#3
  | .ret => wordR2 0b11000#5 0#3 0#3
  | .reti => wordR2 0b11001#5 0#3 0#3
  | .dint => wordR2 0b11010#5 0#3 0#3
  | .eint => wordR2 0b11011#5 0#3 0#3
  | .halt => wordR2 0b11100#5 0#3 0#3
  | .reservedR2Op11101 => wordR2 0b11101#5 0#3 0#3
  | .reservedR2Op11110 => wordR2 0b11110#5 0#3 0#3
  | .reservedR2Op11111 => wordR2 0b11111#5 0#3 0#3
  | .cmpCrr cc rs rn => wordR3 lay 0b010#3 0b00#2 cc.bits rs.bits rn.bits
  | .cmpcCrr cc rs rn => wordR3 lay 0b010#3 0b01#2 cc.bits rs.bits rn.bits
  | .subcRrr rd rs rn => wordR3 lay 0b010#3 0b10#2 rd.bits rs.bits rn.bits
  | .subRrr rd rs rn => wordR3 lay 0b010#3 0b11#2 rd.bits rs.bits rn.bits
  | .andRrr rd rs rn => wordR3 lay 0b011#3 0b00#2 rd.bits rs.bits rn.bits
  | .orRrr rd rs rn => wordR3 lay 0b011#3 0b01#2 rd.bits rs.bits rn.bits
  | .selRrr rd rs rn => wordR3 lay 0b011#3 0b10#2 rd.bits rs.bits rn.bits
  | .reservedR3Op01111 => wordR3 lay 0b011#3 0b11#2 0#3 0#3 0#3
  | .xorRrr rd rs rn => wordR3 lay 0b100#3 0b00#2 rd.bits rs.bits rn.bits
  | .adcRrr rd rs rn => wordR3 lay 0b100#3 0b01#2 rd.bits rs.bits rn.bits
  | .addRrr rd rs rn => wordR3 lay 0b100#3 0b10#2 rd.bits rs.bits rn.bits
  | .movwNr rd rs rn => wordR3 lay 0b100#3 0b11#2 rd.bits rs.bits rn.bits
  | .movzbNr rd rs rn => wordR3 lay 0b101#3 0b00#2 rd.bits rs.bits rn.bits
  | .movsbNr rd rs rn => wordR3 lay 0b101#3 0b01#2 rd.bits rs.bits rn.bits
  | .movwRn rd rs rn => wordR3 lay 0b101#3 0b10#2 rd.bits rs.bits rn.bits
  | .movbRn rd rs rn => wordR3 lay 0b101#3 0b11#2 rd.bits rs.bits rn.bits
  | .reservedJOp11000 => wordJ 0b11000#5 0#9
  | .reservedJOp11001 => wordJ 0b11001#5 0#9
  | .reservedJOp11010 => wordJ 0b11010#5 0#9
  | .reservedJOp11011 => wordJ 0b11011#5 0#9
  | .brNt a => wordJ 0b11100#5 a
  | .brT a => wordJ 0b11101#5 a
  | .addKq a => wordJ 0b11110#5 a
  | .jmpK a => wordJ 0b11111#5 a
  | .movwAr rd k => wordI1 0b01000#5 rd.bits k
  | .movsbAr rd k => wordI1 0b01001#5 rd.bits k
  | .movwRa rd k => wordI1 0b01010#5 rd.bits k
  | .movbRa rd k => wordI1 0b01011#5 rd.bits k
  | .movKr rd k => wordI1 0b01100#5 rd.bits k
  | .subKr rd k => wordI1 0b01101#5 rd.bits k
  | .addKr rd k => wordI1 0b01110#5 rd.bits k
  | .leaQr rd k => wordI1 0b01111#5 rd.bits k
  | .movwQr rd k => wordI1 0b10000#5 rd.bits k
  | .movsbQr rd k => wordI1 0b10001#5 rd.bits k
  | .movwRq rd k => wordI1 0b10010#5 rd.bits k
  | .movbRq rd k => wordI1 0b10011#5 rd.bits k
  | .cmpCrk cc rs k => wordI2 0b10100#5 cc.bits rs.bits k
  | .cmpcCrk cc rs k => wordI2 0b10101#5 cc.bits rs.bits k
  | .andKr rd rs k => wordI2 0b10110#5 rd.bits rs.bits k
  | .leaMr rd rs k => wordI2 0b10111#5 rd.bits rs.bits k
  | .movwMr rd rs k => wordI2 0b11000#5 rd.bits rs.bits k
  | .movsbMr rd rs k => wordI2 0b11001#5 rd.bits rs.bits k
  | .movwRm rd rs k => wordI2 0b11010#5 rd.bits rs.bits k
  | .movbRm rd rs k => wordI2 0b11011#5 rd.bits rs.bits k
  | .reservedPOp11100 => wordP 0b11100#5 0#11
  | .reservedPOp11101 => wordP 0b11101#5 0#11
  | .call a => wordP 0b11110#5 a
  | .pfixK p => wordP 0b11111#5 p
  | .nop => 0#16

/-- The two words an assembler emits for an instruction with a 16-bit immediate (46_prefix.md R242, R248;
30_encoding.md R111): a `pfix` with `V[15:5]`, and the core instruction, whose field the caller has given the
low five bits `V[4:0]`. -/
def encodePrefixed (lay : R3Layout) (v : Word) (core : Instr) : List Word :=
  [encode lay (.pfixK (v.extractLsb' 5 11)), encode lay core]

end Sys2Proof
end

