-- ==== Sys2Proof/Machine/State.lean ====
section
/-! DEFINITION. The state of the machine (10_state.md R20 to R44), the reasons a step can stop, and the state
after reset (70_reset_and_hazards.md R300). -/

namespace Sys2Proof.Machine

/-- The general registers R0 to R7, each 16 bits; none is hardwired (R20, R21). -/
structure Regs where
  r0 : Word
  r1 : Word
  r2 : Word
  r3 : Word
  r4 : Word
  r5 : Word
  r6 : Word
  r7 : Word
deriving DecidableEq, Repr

/-- The status register: exactly four flags (R28). -/
structure SR where
  /-- I, interrupt flag: set is "enabled" (R35). -/
  i : Bool
  /-- T, condition flag, the only flag conditional instructions read (R32). -/
  t : Bool
  /-- C, carry; after a subtraction set means "no borrow" (40_arithmetic_logic.md R120). -/
  c : Bool
  /-- Z, zero. -/
  z : Bool
deriving DecidableEq, Repr

/-- A sparse memory: address and content pairs, addresses strictly rising (`Memory.wf` in Machine/Ops.lean). An
unlisted address is one nothing has written: it holds no value (R44; log entry 3). -/
abbrev Memory (α : Type) := List (Nat × α)

/-- Data memory, in bytes (R37). -/
abbrev DataMemory := List Host.Cell

/-- Program memory, in 16-bit words, the unit of a program address (R25, R38; 20_memory.md R52). -/
abbrev ProgramMemory := Memory Word

/-- What an instruction read that nothing has written (60_exceptions.md R272, the argument of `UnwrittenRead`). -/
inductive Unwritten where
  | dataByte (a : Word)
  | programWord (a : Word)
deriving DecidableEq, Repr

/-- The model faults of 60_exceptions.md R270 and R272. A fault ends the run and writes nothing. All of them are
safe: the model stops where the source gives the situation no meaning, and no claim about the hardware follows. -/
inductive Fault where
  /-- Raised by the meanings of the Reserved and "(Not implemented)" rows under `RESERVED_OP = fault`, with the
  instruction word (30_encoding.md R100, R101). Safe. -/
  | reservedInstruction (w : Word)
  /-- Raised by a word access of data memory at an odd address under `MISALIGNED_WORD = fault`: loads, stores, the
  stack accesses of `call`, `ret`, `reti` and interrupt entry (20_memory.md R56). Safe. -/
  | misalignedWord (a : Word)
  /-- Raised by a data access, or by `ld.w {Rs}, Rd`, at an address the maps do not populate (20_memory.md R61,
  45_load_store.md R223). Safe; it cannot occur with the default maps. -/
  | unmappedAccess (a : Word)
  /-- Raised by the fetch of an instruction outside `PROG_MAP` (20_memory.md R59). Safe; it cannot occur with the
  default map. -/
  | unmappedFetch (pc : Word)
  /-- Raised by an instruction of type R2 or R3, or a `pfix`, that executes with a prefix pending, with the
  instruction word (46_prefix.md R246). Safe. -/
  | prefixMisuse (w : Word)
  /-- Raised by a read of a data byte or a program word (fetched, or loaded by `ld.w {Rs}, Rd`) that nothing has
  written (10_state.md R44, 60_exceptions.md R290). Safe. -/
  | unwrittenRead (what : Unwritten)
deriving DecidableEq, Repr

/-- The refusals. Each is safe: the model declines the run, and no claim about the hardware follows. -/
inductive Refusal where
  /-- Raised by an arm of `exec` whose instruction has no meaning yet. No arm does: every row has its meaning. Safe. -/
  | notModelled (mnemonic : String)
  /-- Raised by the meanings of the Reserved and "(Not implemented)" rows under `RESERVED_OP = refuse`, with the
  instruction word (93_implementation_defined.md U1, U2). Safe. -/
  | reservedInstruction (w : Word)
deriving DecidableEq, Repr

/-- The state of the machine. -/
structure State where
  /-- R0 to R7 (R20). -/
  regs : Regs
  /-- The stack pointer, outside the general set (R22). -/
  sp : Word
  /-- The program counter: during an instruction, the address of that instruction (R24 to R26). -/
  pc : Word
  /-- The status register (R28). -/
  sr : SR
  /-- The prefix latch PFX: its valid bit and `p_imm` (R39). -/
  pfx : Option (BitVec 11)
  /-- The halted bit (R40). -/
  halted : Bool
  /-- The level of the interrupt request input at this boundary (R41). -/
  irq : Bool
  /-- Data memory (R37). -/
  data : DataMemory
  /-- Program memory, which no instruction writes (R38). -/
  prog : ProgramMemory
  /-- The model's own: the data bytes the host has loaded for the run to come, which `State.start` puts in place
  (60_exceptions.md R290, 70_reset_and_hazards.md R300; log entry 15). No step reads or writes it. -/
  loaded : DataMemory
  /-- The model's own: the parameters of 00_scope.md R8, which no step writes (log entry 6). -/
  cfg : Config
  /-- The model's own: how many free bits have been drawn (00_scope.md R10; log entry 5). -/
  draws : Nat
deriving DecidableEq, Repr

/-- What a step, a meaning or a shared operation that ends one answers. -/
abbrev Result := Host.Outcome State Fault Refusal

/-- The value the model gives R0 to R7 and SP at reset, where the spec gives none and says that a model "must not
pick zero" (R43, R44). DESIGN CHOICE, unsafe: log entry 1. -/
def unspecifiedWord : Word := 0xA5A4#16

/-- The value the model gives T, C and Z at reset, where the spec gives none and says never zero (R43, R44).
DESIGN CHOICE, unsafe: log entry 2. -/
def unspecifiedFlag : Bool := true

/-- The machine right after reset, on a platform with parameters `cfg`, with the host's program and data in place:
PC at `RESET_PC`, interrupts disabled, no prefix pending, not halted (R43, 70_reset_and_hazards.md R300). -/
def State.resetWith (cfg : Config) (prog : ProgramMemory) (data : DataMemory) : State where
  regs := ⟨unspecifiedWord, unspecifiedWord, unspecifiedWord, unspecifiedWord,
    unspecifiedWord, unspecifiedWord, unspecifiedWord, unspecifiedWord⟩
  sp := unspecifiedWord
  pc := cfg.resetPc
  sr := ⟨false, unspecifiedFlag, unspecifiedFlag, unspecifiedFlag⟩
  pfx := none
  halted := false
  irq := false
  data := data
  prog := prog
  loaded := []
  cfg := cfg
  draws := 0

/-- The machine right after reset with every parameter at its default and nothing loaded (R300; log entry 4). -/
def State.reset : State :=
  State.resetWith Config.default [] []

end Sys2Proof.Machine
end

