-- ==== Sys2Proof/Machine/Ops.lean ====
section
/-! DEFINITION. The named operations over registers and memories: the canonical form of a memory, byte and word
accesses (20_memory.md), the stack (R71), the prefix check (46_prefix.md R246), taking an interrupt and returning
from one (60_exceptions.md R273 to R278), and the free bits (00_scope.md R10). -/

namespace Sys2Proof.Machine

/-! ### Memories as lists -/

/-- What address `a` holds: `none` where nothing has written it (10_state.md R44). -/
def Memory.get {α : Type} : Memory α → Nat → Option α
  | [], _ => none
  | (b, v) :: rest, a => if b = a then some v else Memory.get rest a

/-- The memory with `v` at address `a`. -/
def Memory.set {α : Type} : Memory α → Nat → α → Memory α
  | [], a, v => [(a, v)]
  | (b, w) :: rest, a, v =>
    if a < b then (a, v) :: (b, w) :: rest
    else if b = a then (a, v) :: rest
    else (b, w) :: Memory.set rest a v

/-- The addresses rise strictly from `lo` on and stay below the 65,536 of both spaces (20_memory.md R51, R52). -/
def Memory.wfFrom {α : Type} (lo : Nat) : Memory α → Bool
  | [] => true
  | (a, _) :: rest => decide (lo ≤ a) && decide (a < 65536) && Memory.wfFrom (a + 1) rest

/-- The canonical form of a memory: equal memories are equal lists. No listed entry equals what an unlisted address
reads as, because an unlisted address holds no value. -/
def Memory.wf {α : Type} (m : Memory α) : Bool :=
  Memory.wfFrom 0 m

/-- The memory after each pair of the list has been written, in order (60_exceptions.md R290). -/
def Memory.setAll {α : Type} (m : Memory α) : List (Word × α) → Memory α
  | [] => m
  | (a, v) :: rest => Memory.setAll (Memory.set m a.toNat v) rest

/-! ### Registers -/

/-- The register a field names (10_state.md R20). -/
def Regs.get (g : Regs) : Reg → Word
  | .r0 => g.r0 | .r1 => g.r1 | .r2 => g.r2 | .r3 => g.r3
  | .r4 => g.r4 | .r5 => g.r5 | .r6 => g.r6 | .r7 => g.r7

/-- The registers with one of them written; all 16 bits are replaced, and no register is hardwired (R20, R21). -/
def Regs.set (g : Regs) (r : Reg) (v : Word) : Regs :=
  match r with
  | .r0 => { g with r0 := v } | .r1 => { g with r1 := v }
  | .r2 => { g with r2 := v } | .r3 => { g with r3 := v }
  | .r4 => { g with r4 := v } | .r5 => { g with r5 := v }
  | .r6 => { g with r6 := v } | .r7 => { g with r7 := v }

/-- `x[i]` (00_scope.md R10). -/
def State.reg (s : State) (r : Reg) : Word :=
  s.regs.get r

/-- `x[i] <- v` (00_scope.md R10). -/
def State.setReg (s : State) (r : Reg) (v : Word) : State :=
  { s with regs := s.regs.set r v }

/-- How many program addresses an instruction takes, by `PROG_UNIT` (10_state.md R25). -/
def instrSize : ProgUnit → Word
  | .word => 1

/-- The address of the next instruction in program memory: `pc + 1`, wrapping (10_state.md R26). -/
def State.nextPc (s : State) : Word :=
  s.pc + instrSize s.cfg.progUnit

/-- The end of an instruction that does not write PC: the next address, and an empty prefix latch (10_state.md R26,
46_prefix.md R241). -/
def State.advance (s : State) : State :=
  { s with pc := s.nextPc, pfx := none }

/-- The end of an instruction that writes PC (10_state.md R27, 46_prefix.md R241). -/
def State.jumpTo (s : State) (target : Word) : State :=
  { s with pc := target, pfx := none }

/-! ### Outcomes -/

/-- The outcome of an operation that answers the next state or raises a model fault. -/
def settle : Except Fault State → Result
  | .ok s => .next s
  | .error f => .fault f

/-- The word of the instruction being executed: the program word at `pc` (10_state.md R26). It is the argument of
`ReservedInstruction` and `PrefixMisuse` (60_exceptions.md R272; log entry 12). -/
def State.instrWord (s : State) : Word :=
  (Memory.get s.prog s.pc.toNat).getD 0#16

/-- An instruction without an immediate, or a `pfix`, under a pending prefix is the model fault `PrefixMisuse`
(46_prefix.md R246). -/
def unprefixed (s : State) (r : Result) : Result :=
  match s.pfx with
  | none => r
  | some _ => .fault (.prefixMisuse s.instrWord)

/-- A Reserved or not-implemented word: as `RESERVED_OP` says, the model fault `ReservedInstruction` or a refusal of
the run; either comes before `PrefixMisuse` (30_encoding.md R100, R101; 60_exceptions.md R272;
93_implementation_defined.md U1, U2). -/
def reserved (s : State) : Result :=
  match s.cfg.reservedOp with
  | .fault => .fault (.reservedInstruction s.instrWord)
  | .refuse => .refused (.reservedInstruction s.instrWord)

/-! ### Program memory -/

/-- Some region of the map holds the address (`DATA_MAP`, `PROG_MAP`, 00_scope.md R8). -/
def populated (m : List Region) (a : Nat) : Bool :=
  m.any fun r => decide (r.base ≤ a) && decide (a < r.base + r.size)

/-- `ProgRead(a)`: the whole word at a program address (20_memory.md R52), with the fault to raise outside
`PROG_MAP`. -/
def progRead (s : State) (a : Word) (unmapped : Fault) : Except Fault Word :=
  if populated s.cfg.progMap a.toNat then
    match Memory.get s.prog a.toNat with
    | some w => .ok w
    | none => .error (.unwrittenRead (.programWord a))
  else .error unmapped

/-- Instruction fetch: `ProgRead(pc)`, `UnmappedFetch` outside `PROG_MAP` (20_memory.md R59). -/
def fetch (s : State) : Except Fault Word :=
  progRead s s.pc (.unmappedFetch s.pc)

/-! ### Data memory -/

/-- The word at a pair of bytes, the first at the lower address (20_memory.md R53). -/
def joinBytes (o : ByteOrder) (first second : Byte) : Word :=
  match o with
  | .little => second ++ first
  | .big => first ++ second

/-- The byte of a word that stands at its lower address (20_memory.md R53). -/
def firstByte (o : ByteOrder) (v : Word) : Byte :=
  match o with
  | .little => v.extractLsb' 0 8
  | .big => v.extractLsb' 8 8

/-- The byte of a word that stands at its higher address (20_memory.md R53). -/
def secondByte (o : ByteOrder) (v : Word) : Byte :=
  match o with
  | .little => v.extractLsb' 8 8
  | .big => v.extractLsb' 0 8

/-- The address a word access uses: the effective address if it is even; if it is odd, the model fault
`MisalignedWord` or, under `MISALIGNED_WORD = clear_bit0`, the address with bit 0 clear (20_memory.md R56). -/
def wordAddress (c : Config) (ea : Word) : Except Fault Word :=
  if ea.getLsbD 0 then
    match c.misalignedWord with
    | .fault => .error (.misalignedWord ea)
    | .clearBit0 => .ok (ea &&& 0xFFFE#16)
  else .ok ea

/-- `MemRead(a, 1)` (20_memory.md R53, R61; 10_state.md R44). -/
def readByte (s : State) (a : Word) : Except Fault Byte :=
  if populated s.cfg.dataMap a.toNat then
    match Memory.get s.data a.toNat with
    | some b => .ok b
    | none => .error (.unwrittenRead (.dataByte a))
  else .error (.unmappedAccess a)

/-- Both bytes of the word at `a` are populated; otherwise `UnmappedAccess` with the word's address (20_memory.md
R61; log entry 9). `a` is the address `wordAddress` gives: under `MISALIGNED_WORD = clear_bit0` an odd effective address
is reported with bit 0 clear, which is the model's choice (log entry 21). -/
def wordMapped (s : State) (a : Word) : Except Fault Unit :=
  if populated s.cfg.dataMap a.toNat && populated s.cfg.dataMap (a + 1).toNat then .ok ()
  else .error (.unmappedAccess a)

/-- `MemRead(ea, 2)`: alignment, then the map, then the two bytes, lower address first (20_memory.md R53, R56, R61;
priority R272; log entry 10). -/
def readWord (s : State) (ea : Word) : Except Fault Word := do
  let a ← wordAddress s.cfg ea
  wordMapped s a
  let b0 ← readByte s a
  let b1 ← readByte s (a + 1)
  return joinBytes s.cfg.byteOrder b0 b1

/-- `MemWrite(a, 1, v)`: the neighbouring byte is not touched (20_memory.md R53, R58, R61). -/
def writeByte (s : State) (a : Word) (b : Byte) : Except Fault State :=
  if populated s.cfg.dataMap a.toNat then .ok { s with data := Memory.set s.data a.toNat b }
  else .error (.unmappedAccess a)

/-- Two bytes stored, the first at `a` and the second at the next address. -/
def storeBytes (s : State) (a : Word) (first second : Byte) : State :=
  { s with data := Memory.set (Memory.set s.data a.toNat first) (a + 1).toNat second }

/-- `MemWrite(ea, 2, v)` (20_memory.md R53, R56, R61). -/
def writeWord (s : State) (ea : Word) (v : Word) : Except Fault State := do
  let a ← wordAddress s.cfg ea
  wordMapped s a
  return storeBytes s a (firstByte s.cfg.byteOrder v) (secondByte s.cfg.byteOrder v)

/-! ### The stack -/

/-- A push: `SP <- (SP - 2) mod 65536; MemWrite(SP, 2, v)` (20_memory.md R71). -/
def push (s : State) (v : Word) : Except Fault State :=
  writeWord { s with sp := s.sp - 2 } (s.sp - 2) v

/-- Words pushed one after the other (20_memory.md R71). -/
def pushAll (s : State) : List Word → Except Fault State
  | [] => .ok s
  | v :: vs => do
    let s1 ← push s v
    pushAll s1 vs

/-! ### The status register as a word -/

/-- The word whose bit `n` alone is `b`. -/
def bitAt (n : Fin 16) (b : Bool) : Word :=
  (BitVec.ofBool b).setWidth 16 <<< n.val

/-- The SR image an interrupt entry saves: by default bit 0 = Z, bit 1 = C, bit 2 = T, bit 3 = I; every other bit is
zero (60_exceptions.md R277). -/
def srImage (l : ImageBits) (f : SR) : Word :=
  bitAt l.i f.i ||| bitAt l.t f.t ||| bitAt l.c f.c ||| bitAt l.z f.z

/-- The flags an SR image restores; its other bits are ignored (47_system.md R257, 60_exceptions.md R277). -/
def srOfImage (l : ImageBits) (img : Word) : SR where
  i := img.getLsbD l.i
  t := img.getLsbD l.t
  c := img.getLsbD l.c
  z := img.getLsbD l.z

/-! ### Taking an interrupt, and returning from one -/

/-- The vector of an interrupt that may be accepted at this boundary: `HAS_IRQ`, `irq = 1`, `SR.I = 1`, PFX empty,
not halted (60_exceptions.md R274). -/
def acceptable (s : State) : Option Word :=
  if s.irq && s.sr.i && s.pfx.isNone && !s.halted then s.cfg.irqVector else none

/-- The value a word of the interrupt frame saves. -/
def savedWord (s : State) : FrameWord → Word
  | .pc => s.pc
  | .sr => srImage s.cfg.irqFrame.image s.sr
  | .reg r => s.reg r

/-- The entry sequence (60_exceptions.md R276): push the words of the frame, by default PC and then the SR image; clear
I; jump to the vector. The image is that of the flags before I is cleared. T, C, Z and the general registers are not
changed. A push that faults writes nothing. -/
def enterInterrupt (s : State) (vector : Word) : Except Fault State := do
  let t ← pushAll s (s.cfg.irqFrame.words.map (savedWord s))
  return { t with sr := { t.sr with i := false }, pc := vector }

/-- The words of a frame, read upward from an address, the last pushed first. The fault of the first read that faults is
reported, whatever a later read would report: that a `reti` whose first word is unwritten and whose second is unmapped
reports `UnwrittenRead` is the model's choice (log entry 22). -/
def readFrame (s : State) : List FrameWord → Word → Except Fault (List (FrameWord × Word))
  | [], _ => .ok []
  | x :: xs, a => do
    let v ← readWord s a
    let rest ← readFrame s xs (a + 2)
    return (x, v) :: rest

/-- What a word of the frame gives back when it is popped. -/
def restoreWord (s : State) : FrameWord × Word → State
  | (.pc, v) => { s with pc := v }
  | (.sr, v) => { s with sr := srOfImage s.cfg.irqFrame.image v }
  | (.reg r, v) => s.setReg r v

/-- The bytes of the interrupt frame: two for each word. -/
def frameBytes (c : Config) : Word :=
  BitVec.ofNat 16 (2 * c.irqFrame.words.length)

/-- The return from an interrupt, the inverse of the entry (47_system.md R257, 60_exceptions.md R278): pop the words of
the frame, by default the SR image and then the return address; all reads happen before any write. -/
def returnFromInterrupt (s : State) : Except Fault State := do
  let vs ← readFrame s s.cfg.irqFrame.words.reverse s.sp
  return { vs.foldl restoreWord s.advance with sp := s.sp + frameBytes s.cfg }

/-! ### Free bits -/

/-- The state after one free bit has been drawn (00_scope.md R10). -/
def State.drawn (s : State) : State :=
  { s with draws := s.draws + 1 }

/-- The platform drives its request input for the next boundary: any level when `HAS_IRQ` (10_state.md R41,
60_exceptions.md R274); without `HAS_IRQ` there is no such input and nothing changes (R273; log entry 8). -/
def platform (s : State) : State :=
  match s.cfg.irqVector with
  | none => s
  | some _ => { s with irq := Config.drawBit s.draws, draws := s.draws + 1 }

/-- The platform acts after a completed step. -/
def driven : Result → Result
  | .next s => .next (platform s)
  | .fault f => .fault f
  | .refused r => .refused r

end Sys2Proof.Machine
end

