-- ==== Sys2Proof/Machine/Operands.lean ====
section
/-! DEFINITION. Operand forms: immediates with and without a pending prefix (30_encoding.md R90, 46_prefix.md
R242), effective addresses (45_load_store.md R205), and targets (44_branch_call.md R190). -/

namespace Sys2Proof.Machine

/-- The immediate operand: the field extended as its format says, or, with a prefix pending, the substituted
`(p_imm << 5) | (imm & 0b11111)`, all 16 bits given and nothing extended (R90, R242). -/
def immediate {n : Nat} (s : State) (k : BitVec n) (short : Word) : Word :=
  match s.pfx with
  | none => short
  | some p => p ++ k.setWidth 5

/-- An immediate whose field is zero-extended: types P, I1 and I2 (R90). -/
def immZero {n : Nat} (s : State) (k : BitVec n) : Word :=
  immediate s k (k.setWidth 16)

/-- An immediate whose field is sign-extended: type J, `mov K, Rd`, and the two immediate compares (R90). -/
def immSign {n : Nat} (s : State) (k : BitVec n) : Word :=
  immediate s k (k.signExtend 16)

/-- The byte offset or address an immediate of a word access stands for: twice the immediate; under
`PREFIX_WORD_SCALE = false` a prefixed immediate is used as it is (30_encoding.md R91, 46_prefix.md R245). -/
def scaledImm {n : Nat} (s : State) (k : BitVec n) : Word :=
  if s.pfx.isSome && !s.cfg.prefixWordScale then immZero s k else immZero s k <<< 1

/-! ### Effective addresses (45_load_store.md R205) -/

/-- `[&A]`, byte access. -/
def eaAbsByte (s : State) (k : BitVec 8) : Word :=
  immZero s k

/-- `[&A]`, word access. -/
def eaAbsWord (s : State) (k : BitVec 8) : Word :=
  scaledImm s k

/-- `[SP, K]`, byte access. -/
def eaSpByte (s : State) (k : BitVec 8) : Word :=
  s.sp + immZero s k

/-- `[SP, K]`, word access. -/
def eaSpWord (s : State) (k : BitVec 8) : Word :=
  s.sp + scaledImm s k

/-- `[Rs, K]`, byte access. -/
def eaBaseByte (s : State) (rs : Reg) (k : BitVec 5) : Word :=
  s.reg rs + immZero s k

/-- `[Rs, K]`, word access. -/
def eaBaseWord (s : State) (rs : Reg) (k : BitVec 5) : Word :=
  s.reg rs + scaledImm s k

/-- `[Rs, Rn]`, byte access: the index is not scaled. -/
def eaIndexByte (s : State) (rs rn : Reg) : Word :=
  s.reg rs + s.reg rn

/-- `[Rs, Rn]`, word access: the index is doubled, and its bit 15 falls out. -/
def eaIndexWord (s : State) (rs rn : Reg) : Word :=
  s.reg rs + (s.reg rn <<< 1)

/-! ### Targets (44_branch_call.md R190) -/

/-- The constant `BR_BASE` stands for (00_scope.md R8). -/
def branchBase : BrBase → Word
  | .one => 1#16
  | .zero => 0#16

/-- A PC-relative target, `pc` being the address of the branch word itself. -/
def branchTarget (s : State) (a : BitVec 9) : Word :=
  s.pc + branchBase s.cfg.brBase + immSign s a

end Sys2Proof.Machine
end

