-- ==== Sys2Proof/Machine/Flags.lean ====
section
/-! DEFINITION. The adder (40_arithmetic_logic.md R120), the ALU flag rule (10_state.md R30, 40 R137), and the
compare with its condition codes (42_compare.md R160, R166). -/

namespace Sys2Proof.Machine

/-- `AddC(a, b, cin)`: the sum computed exactly, then narrowed; the carry is the carry out of bit 15 (R120). -/
def addC (a b : Word) (cin : Bool) : Word × Bool :=
  let r17 := a.toNat + b.toNat + cin.toNat
  (BitVec.ofNat 16 r17, decide (65536 ≤ r17))

/-- `SubC(a, b, cin) = AddC(a, 65535 - b, cin)`: `a - b - (1 - cin)`, and a carry of 1 is "no borrow" (R120). -/
def subC (a b : Word) (cin : Bool) : Word × Bool :=
  addC a (~~~b) cin

/-- The end of an ALU instruction (10_state.md R30): Rd written, `C <- carry`, `Z <- zin AND (result = 0)`,
`T <- Z`; `zin` is 1 but in the carry-in instructions, where it is the old Z. I is not written. -/
def finishAlu (s : State) (rd : Reg) (r : Word × Bool) (zin : Bool) : State :=
  let z := zin && (r.1 == 0#16)
  ({ s.setReg rd r.1 with sr := { s.sr with t := z, c := r.2, z := z } }).advance

/-- C after a logical instruction, by `LOGIC_C` (40_arithmetic_logic.md R137): by default a free bit. -/
def logicCarry (s : State) : Bool :=
  match s.cfg.logicC with
  | .draw => Config.drawBit s.draws
  | .zero => false
  | .unchanged => s.sr.c

/-- The state a logical instruction ends from: one free bit has been drawn if `LOGIC_C` draws one. -/
def logicDrawn (s : State) : State :=
  match s.cfg.logicC with
  | .draw => s.drawn
  | .zero => s
  | .unchanged => s

/-- The end of a logical instruction (40_arithmetic_logic.md R131, R137). -/
def finishLogic (s : State) (rd : Reg) (result : Word) : State :=
  finishAlu (logicDrawn s) rd (result, logicCarry s) true

/-- The truth value of a condition code (42_compare.md R160). -/
def condHolds (cc : Cond) (c z sgn v : Bool) : Bool :=
  match cc with
  | .eq => z
  | .ne => !z
  | .uge => c
  | .ult => !c
  | .ge => sgn == v
  | .lt => sgn != v
  | .ugt => c && !z
  | .gt => (sgn == v) && !z

/-- The flags of a compare, I apart (42_compare.md R166). S and V live only here (10_state.md R33). -/
def compareFlags (f : SR) (cc : Cond) (a b : Word) (cin zin : Bool) : SR :=
  let r := subC a b cin
  let z := zin && (r.1 == 0#16)
  let sgn := r.1.getLsbD 15
  let v := (a.getLsbD 15 != b.getLsbD 15) && (r.1.getLsbD 15 != a.getLsbD 15)
  { f with t := condHolds cc r.2 z sgn v, c := r.2, z := z }

/-- The end of a compare: only SR and PC are written (42_compare.md R166). -/
def finishCompare (s : State) (cc : Cond) (a b : Word) (cin zin : Bool) : State :=
  ({ s with sr := compareFlags s.sr cc a b cin zin }).advance

end Sys2Proof.Machine
end

