-- ==== Sys2Proof/Machine/Arith.lean ====
section
/-! DEFINITION. Arithmetic and logic (40_arithmetic_logic.md). Sources are read before Rd is written (10_state.md
R45): every result is computed from the state before the instruction. -/

namespace Sys2Proof.Machine

/-- `add Rs, Rn, Rd` (R121). -/
def execAddRrr (rd rs rn : Reg) (s : State) : Result :=
  unprefixed s (.next (finishAlu s rd (addC (s.reg rs) (s.reg rn) false) true))

/-- `add Rd, K, Rd` (R122). -/
def execAddKr (rd : Reg) (k : BitVec 8) (s : State) : Result :=
  .next (finishAlu s rd (addC (s.reg rd) (immZero s k) false) true)

/-- `addc Rs, Rn, Rd` (R123): C is the carry in, and Z accumulates. -/
def execAdcRrr (rd rs rn : Reg) (s : State) : Result :=
  unprefixed s (.next (finishAlu s rd (addC (s.reg rs) (s.reg rn) s.sr.c) s.sr.z))

/-- `addx Rs, K, Rd` (R124): no flag is written. -/
def execLeaMr (rd rs : Reg) (k : BitVec 5) (s : State) : Result :=
  .next (s.setReg rd (s.reg rs + immZero s k)).advance

/-- `addx SP, K, Rd` (R125): not scaled, no flag is written. -/
def execLeaQr (rd : Reg) (k : BitVec 8) (s : State) : Result :=
  .next (s.setReg rd (s.sp + immZero s k)).advance

/-- `addx SP, K, SP` (R126): not scaled, no flag is written. -/
def execAddKq (a : BitVec 9) (s : State) : Result :=
  .next ({ s with sp := s.sp + immSign s a }).advance

/-- `sub Rs, Rn, Rd` (R128). -/
def execSubRrr (rd rs rn : Reg) (s : State) : Result :=
  unprefixed s (.next (finishAlu s rd (subC (s.reg rs) (s.reg rn) true) true))

/-- `sub Rd, K, Rd` (R129). -/
def execSubKr (rd : Reg) (k : BitVec 8) (s : State) : Result :=
  .next (finishAlu s rd (subC (s.reg rd) (immZero s k) true) true)

/-- The carry into the complemented subtraction of `subc`, by `SUBC_SENSE` (R127; 90_conflicts.md C4). -/
def subcCarryIn (s : State) : Bool :=
  match s.cfg.subcSense with
  | .notBorrow => s.sr.c
  | .literal => !s.sr.c

/-- `subc Rs, Rn, Rd` (R127): Z accumulates. -/
def execSubcRrr (rd rs rn : Reg) (s : State) : Result :=
  unprefixed s (.next (finishAlu s rd (subC (s.reg rs) (s.reg rn) (subcCarryIn s)) s.sr.z))

/-- `neg Rs, Rd` (R130): `0 - Rs`. -/
def execNegRr (rd rs : Reg) (s : State) : Result :=
  unprefixed s (.next (finishAlu s rd (subC 0#16 (s.reg rs) true) true))

/-- `and Rs, Rn, Rd` (R131). -/
def execAndRrr (rd rs rn : Reg) (s : State) : Result :=
  unprefixed s (.next (finishLogic s rd (s.reg rs &&& s.reg rn)))

/-- `and Rs, K, Rd` (R132; 90_conflicts.md C5). -/
def execAndKr (rd rs : Reg) (k : BitVec 5) (s : State) : Result :=
  .next (finishLogic s rd (s.reg rs &&& immZero s k))

/-- `or Rs, Rn, Rd` (R133). -/
def execOrRrr (rd rs rn : Reg) (s : State) : Result :=
  unprefixed s (.next (finishLogic s rd (s.reg rs ||| s.reg rn)))

/-- `xor Rs, Rn, Rd` (R134). -/
def execXorRrr (rd rs rn : Reg) (s : State) : Result :=
  unprefixed s (.next (finishLogic s rd (s.reg rs ^^^ s.reg rn)))

/-- `not Rs, Rd` (R135). -/
def execNotRr (rd rs : Reg) (s : State) : Result :=
  unprefixed s (.next (finishLogic s rd (~~~(s.reg rs))))

end Sys2Proof.Machine
end

