-- ==== Sys2Proof/Machine/Branch.lean ====
section
/-! DEFINITION. Branches, jumps, calls and return (44_branch_call.md). There are no delay slots (R190), and no flag
is written. -/

namespace Sys2Proof.Machine

/-- `jmp Label` (R191). -/
def execJmpK (a : BitVec 9) (s : State) : Result :=
  .next (s.jumpTo (branchTarget s a))

/-- `brcc Label` (R192): taken when T is 1; the prefix is consumed either way. -/
def execBrT (a : BitVec 9) (s : State) : Result :=
  .next (if s.sr.t then s.jumpTo (branchTarget s a) else s.advance)

/-- `brncc Label` (R193): taken when T is 0; the prefix is consumed either way. -/
def execBrNt (a : BitVec 9) (s : State) : Result :=
  .next (if s.sr.t then s.advance else s.jumpTo (branchTarget s a))

/-- `jmp Rs` (R194). -/
def execJmpR (rs : Reg) (s : State) : Result :=
  unprefixed s (.next (s.jumpTo (s.reg rs)))

/-- Push the address of the word after the call word, then jump (R195). A faulting call changes nothing. -/
def callTo (s : State) (target : Word) : Result :=
  settle ((push s s.nextPc).map fun s' => s'.jumpTo target)

/-- `call &Label` (R195). -/
def execCall (a : BitVec 11) (s : State) : Result :=
  callTo s (immZero s a)

/-- `call Rd` (R196). -/
def execCallR (rd : Reg) (s : State) : Result :=
  unprefixed s (callTo s (s.reg rd))

/-- `ret` (R197): pop the return address. -/
def execRet (s : State) : Result :=
  unprefixed s (settle ((readWord s s.sp).map fun target => ({ s with sp := s.sp + 2 }).jumpTo target))

end Sys2Proof.Machine
end

