-- ==== Sys2Proof/Machine/Compare.lean ====
section
/-! DEFINITION. Compares (42_compare.md). A compare writes T, C, Z and PC, and nothing else. -/

namespace Sys2Proof.Machine

/-- `cmp.cc Rs, Rn` (R162). -/
def execCmpCrr (cc : Cond) (rs rn : Reg) (s : State) : Result :=
  unprefixed s (.next (finishCompare s cc (s.reg rs) (s.reg rn) true true))

/-- `cmp.cc Rs, K` (R163): K is sign-extended. -/
def execCmpCrk (cc : Cond) (rs : Reg) (k : BitVec 5) (s : State) : Result :=
  .next (finishCompare s cc (s.reg rs) (immSign s k) true true)

/-- `cmpc.cc Rs, Rn` (R164): the old C is the carry in, and Z accumulates. `SUBC_SENSE` does not change it (log
entry 11). -/
def execCmpcCrr (cc : Cond) (rs rn : Reg) (s : State) : Result :=
  unprefixed s (.next (finishCompare s cc (s.reg rs) (s.reg rn) s.sr.c s.sr.z))

/-- `cmpc.cc Rs, K` (R165). -/
def execCmpcCrk (cc : Cond) (rs : Reg) (k : BitVec 5) (s : State) : Result :=
  .next (finishCompare s cc (s.reg rs) (immSign s k) s.sr.c s.sr.z)

end Sys2Proof.Machine
end

