-- ==== Sys2Proof/Machine/LoadStore.lean ====
section
/-! DEFINITION. Loads and stores (45_load_store.md). The address comes from the registers before Rd is written
(R225); no flag is written, and no base register or SP changes. -/

namespace Sys2Proof.Machine

/-! ### Shared accesses (R205) -/

/-- A word load. -/
def loadWord (s : State) (rd : Reg) (ea : Word) : Result :=
  settle ((readWord s ea).map fun v => (s.setReg rd v).advance)

/-- A sign-extended byte load (20_memory.md R58). -/
def loadSignedByte (s : State) (rd : Reg) (ea : Word) : Result :=
  settle ((readByte s ea).map fun b => (s.setReg rd (b.signExtend 16)).advance)

/-- A zero-extended byte load (20_memory.md R58). -/
def loadZeroByte (s : State) (rd : Reg) (ea : Word) : Result :=
  settle ((readByte s ea).map fun b => (s.setReg rd (b.setWidth 16)).advance)

/-- A word store of Rd (20_memory.md R58). -/
def storeWord (s : State) (rd : Reg) (ea : Word) : Result :=
  settle ((writeWord s ea (s.reg rd)).map State.advance)

/-- A byte store of the low byte of Rd (20_memory.md R58). -/
def storeByte (s : State) (rd : Reg) (ea : Word) : Result :=
  settle ((writeByte s ea (field (s.reg rd) 0 8)).map State.advance)

/-! ### Absolute address, type I1 -/

/-- `ld.w [&A], Rd` (R206). -/
def execMovwAr (rd : Reg) (k : BitVec 8) (s : State) : Result :=
  loadWord s rd (eaAbsWord s k)

/-- `ld.sb [&A], Rd` (R207). -/
def execMovsbAr (rd : Reg) (k : BitVec 8) (s : State) : Result :=
  loadSignedByte s rd (eaAbsByte s k)

/-- `st.w Rd, [&A]` (R208). -/
def execMovwRa (rd : Reg) (k : BitVec 8) (s : State) : Result :=
  storeWord s rd (eaAbsWord s k)

/-- `st.b Rd, [&A]` (R209). -/
def execMovbRa (rd : Reg) (k : BitVec 8) (s : State) : Result :=
  storeByte s rd (eaAbsByte s k)

/-! ### Stack pointer plus offset, type I1 -/

/-- `ld.w [SP, K], Rd` (R210). -/
def execMovwQr (rd : Reg) (k : BitVec 8) (s : State) : Result :=
  loadWord s rd (eaSpWord s k)

/-- `ld.sb [SP, K], Rd` (R211). -/
def execMovsbQr (rd : Reg) (k : BitVec 8) (s : State) : Result :=
  loadSignedByte s rd (eaSpByte s k)

/-- `st.w Rd, [SP, K]` (R212). -/
def execMovwRq (rd : Reg) (k : BitVec 8) (s : State) : Result :=
  storeWord s rd (eaSpWord s k)

/-- `st.b Rd, [SP, K]` (R213). -/
def execMovbRq (rd : Reg) (k : BitVec 8) (s : State) : Result :=
  storeByte s rd (eaSpByte s k)

/-! ### Register plus offset, type I2 -/

/-- `ld.w [Rs, K], Rd` (R214). -/
def execMovwMr (rd rs : Reg) (k : BitVec 5) (s : State) : Result :=
  loadWord s rd (eaBaseWord s rs k)

/-- `ld.sb [Rs, K], Rd` (R215). -/
def execMovsbMr (rd rs : Reg) (k : BitVec 5) (s : State) : Result :=
  loadSignedByte s rd (eaBaseByte s rs k)

/-- `st.w Rd, [Rs, K]` (R216). -/
def execMovwRm (rd rs : Reg) (k : BitVec 5) (s : State) : Result :=
  storeWord s rd (eaBaseWord s rs k)

/-- `st.b Rd, [Rs, K]` (R217). -/
def execMovbRm (rd rs : Reg) (k : BitVec 5) (s : State) : Result :=
  storeByte s rd (eaBaseByte s rs k)

/-! ### Register plus register, type R3 -/

/-- `ld.w [Rs, Rn], Rd` (R218). -/
def execMovwNr (rd rs rn : Reg) (s : State) : Result :=
  unprefixed s (loadWord s rd (eaIndexWord s rs rn))

/-- `ld.zb [Rs, Rn], Rd` (R219). -/
def execMovzbNr (rd rs rn : Reg) (s : State) : Result :=
  unprefixed s (loadZeroByte s rd (eaIndexByte s rs rn))

/-- `ld.sb [Rs, Rn], Rd` (R220; 90_conflicts.md C11). -/
def execMovsbNr (rd rs rn : Reg) (s : State) : Result :=
  unprefixed s (loadSignedByte s rd (eaIndexByte s rs rn))

/-- `st.w Rd, [Rs, Rn]` (R221). -/
def execMovwRn (rd rs rn : Reg) (s : State) : Result :=
  unprefixed s (storeWord s rd (eaIndexWord s rs rn))

/-- `st.b Rd, [Rs, Rn]` (R222). -/
def execMovbRn (rd rs rn : Reg) (s : State) : Result :=
  unprefixed s (storeByte s rd (eaIndexByte s rs rn))

/-! ### Program memory -/

/-- `ld.w {Rs}, Rd` (R223): a program word address, not scaled; outside `PROG_MAP` it is `UnmappedAccess`. -/
def execMovwPr (rd rs : Reg) (s : State) : Result :=
  unprefixed s (settle ((progRead s (s.reg rs) (.unmappedAccess (s.reg rs))).map fun v =>
    (s.setReg rd v).advance))

end Sys2Proof.Machine
end

