-- ==== Sys2Proof/Machine/Shifts.lean ====
section
/-! DEFINITION. Shifts and byte extensions (41_shifts_extensions.md). All are of type R2. -/

namespace Sys2Proof.Machine

/-- `lsr Rs, Rd` (R145): bit 0 to C, bit 15 zero. -/
def execLsrRr (rd rs : Reg) (s : State) : Result :=
  let v := s.reg rs
  unprefixed s (.next (finishAlu s rd (v >>> 1, v.getLsbD 0) true))

/-- `asr Rs, Rd` (R146): bit 0 to C, bit 15 preserved. -/
def execAsrRr (rd rs : Reg) (s : State) : Result :=
  let v := s.reg rs
  unprefixed s (.next (finishAlu s rd (v.sshiftRight 1, v.getLsbD 0) true))

/-- `lsrc Rs, Rd` (R147): bit 0 to C, the old C to bit 15; Z accumulates. -/
def execLsrcRr (rd rs : Reg) (s : State) : Result :=
  let v := s.reg rs
  unprefixed s (.next (finishAlu s rd (BitVec.ofBool s.sr.c ++ v.extractLsb' 1 15, v.getLsbD 0) s.sr.z))

/-- The end of a byte shift, an extension or a plain move: Rd and PC written, no flag (R144, 10_state.md R34). -/
def moveTo (s : State) (rd : Reg) (v : Word) : Result :=
  unprefixed s (.next (s.setReg rd v).advance)

/-- `lsrb Rs, Rd` (R148). -/
def execLsrbRr (rd rs : Reg) (s : State) : Result :=
  moveTo s rd ((field (s.reg rs) 8 8).setWidth 16)

/-- `asrb Rs, Rd` (R149). -/
def execAsrbRr (rd rs : Reg) (s : State) : Result :=
  moveTo s rd ((field (s.reg rs) 8 8).signExtend 16)

/-- `lslb Rs, Rd` (R150). -/
def execLslbRr (rd rs : Reg) (s : State) : Result :=
  moveTo s rd (field (s.reg rs) 0 8 ++ 0#8)

/-- `zext Rs, Rd` (R151). -/
def execZextRr (rd rs : Reg) (s : State) : Result :=
  moveTo s rd ((field (s.reg rs) 0 8).setWidth 16)

/-- `sext Rs, Rd` (R152). -/
def execSextRr (rd rs : Reg) (s : State) : Result :=
  moveTo s rd ((field (s.reg rs) 0 8).signExtend 16)

/-- `sextw Rs, Rd` (R153): all ones if Rs is negative, zero otherwise. -/
def execSextwRr (rd rs : Reg) (s : State) : Result :=
  moveTo s rd (if (s.reg rs).getLsbD 15 then 0xFFFF#16 else 0#16)

end Sys2Proof.Machine
end

