-- ==== Sys2Proof/Machine/Moves.lean ====
section
/-! DEFINITION. Moves, conditional select, conditional set, and the no-operation (43_moves_select.md). None writes
a flag (10_state.md R34). -/

namespace Sys2Proof.Machine

/-- `mov Rs, Rd` (R175). -/
def execMovRr (rd rs : Reg) (s : State) : Result :=
  moveTo s rd (s.reg rs)

/-- `mov K, Rd` (R176): K is sign-extended. -/
def execMovKr (rd : Reg) (k : BitVec 8) (s : State) : Result :=
  .next (s.setReg rd (immSign s k)).advance

/-- `mov Rs, SP` (R177): an odd value is accepted. -/
def execMovRq (rs : Reg) (s : State) : Result :=
  unprefixed s (.next ({ s with sp := s.reg rs }).advance)

/-- `selcc Rs, Rn, Rd` (R178). -/
def execSelRrr (rd rs rn : Reg) (s : State) : Result :=
  moveTo s rd (if s.sr.t then s.reg rs else s.reg rn)

/-- `selcc 0, Rs, Rd` (R179). -/
def execSel0rr (rd rs : Reg) (s : State) : Result :=
  moveTo s rd (if s.sr.t then 0#16 else s.reg rs)

/-- `selcc Rs, 0, Rd` (R180). -/
def execSelR0r (rd rs : Reg) (s : State) : Result :=
  moveTo s rd (if s.sr.t then s.reg rs else 0#16)

/-- `setcc Rd` (R181). -/
def execSetT (rd : Reg) (s : State) : Result :=
  moveTo s rd (if s.sr.t then 1#16 else 0#16)

/-- `setncc Rd` (R182). -/
def execSetNt (rd : Reg) (s : State) : Result :=
  moveTo s rd (if s.sr.t then 0#16 else 1#16)

/-- `nop`, the all-zero word (R185): `mov r0, r0`, which writes back the value it read. -/
def execNop (s : State) : Result :=
  moveTo s .r0 (s.reg .r0)

end Sys2Proof.Machine
end

