-- ==== Sys2Proof/Machine/System.lean ====
section
/-! DEFINITION. The prefix instruction (46_prefix.md), interrupt control and halt (47_system.md), and the Reserved
and not-implemented rows (30_encoding.md R100, R101), which the spec gives a model fault or, by `RESERVED_OP`, a
refusal, and no effect. -/

namespace Sys2Proof.Machine

/-- `pfix K` (R240): the latch is set; a second `pfix` in a row is `PrefixMisuse` (R246). -/
def execPfixK (p : BitVec 11) (s : State) : Result :=
  unprefixed s (.next { s with pfx := some p, pc := s.nextPc })

/-- `dint` (R255). -/
def execDint (s : State) : Result :=
  unprefixed s (.next ({ s with sr := { s.sr with i := false } }).advance)

/-- `eint` (R256). -/
def execEint (s : State) : Result :=
  unprefixed s (.next ({ s with sr := { s.sr with i := true } }).advance)

/-- `reti` (R257): it does not check that it runs inside a handler. -/
def execReti (s : State) : Result :=
  unprefixed s (settle (returnFromInterrupt s))

/-- `halt` (R258): PC is left at the word after the `halt`. -/
def execHalt (s : State) : Result :=
  unprefixed s (.next ({ s with halted := true }).advance)

/-! ### Reserved (R100) -/

/-- P 11100. -/
def execReservedPOp11100 (s : State) : Result := reserved s
/-- P 11101. -/
def execReservedPOp11101 (s : State) : Result := reserved s
/-- J 11000. -/
def execReservedJOp11000 (s : State) : Result := reserved s
/-- J 11001. -/
def execReservedJOp11001 (s : State) : Result := reserved s
/-- J 11010. -/
def execReservedJOp11010 (s : State) : Result := reserved s
/-- J 11011. -/
def execReservedJOp11011 (s : State) : Result := reserved s
/-- R3 01111. -/
def execReservedR3Op01111 (s : State) : Result := reserved s
/-- R2 10010. -/
def execReservedR2Op10010 (s : State) : Result := reserved s
/-- R2 10011. -/
def execReservedR2Op10011 (s : State) : Result := reserved s
/-- R2 11101. -/
def execReservedR2Op11101 (s : State) : Result := reserved s
/-- R2 11110. -/
def execReservedR2Op11110 (s : State) : Result := reserved s
/-- R2 11111. -/
def execReservedR2Op11111 (s : State) : Result := reserved s

/-! ### Not implemented (R101) -/

/-- `mov SR, Rd` (43_moves_select.md R183): no operation is defined, and Rd is not written. -/
def execMovSr (_rd : Reg) (s : State) : Result := reserved s
/-- `mov Rs, SR` (43_moves_select.md R184): no operation is defined, and Rs is not read. -/
def execMovRs (_rs : Reg) (s : State) : Result := reserved s

end Sys2Proof.Machine
end

