-- ==== Sys2Proof/Machine/Dispatch.lean ====
section
/-! DEFINITION. One arm per row of spec/opcode_table.json, each one call of the row's meaning. -/

namespace Sys2Proof.Machine

/-- The meaning of an instruction in a state: the state after it, or the reason it stops. -/
def exec (i : Instr) (s : State) : Host.Outcome State Fault Refusal :=
  match i with
  | .movRr rd rs => Sys2Proof.Machine.execMovRr rd rs s
  | .movRq rs => Sys2Proof.Machine.execMovRq rs s
  | .zextRr rd rs => Sys2Proof.Machine.execZextRr rd rs s
  | .sextRr rd rs => Sys2Proof.Machine.execSextRr rd rs s
  | .lsrbRr rd rs => Sys2Proof.Machine.execLsrbRr rd rs s
  | .asrbRr rd rs => Sys2Proof.Machine.execAsrbRr rd rs s
  | .lslbRr rd rs => Sys2Proof.Machine.execLslbRr rd rs s
  | .sextwRr rd rs => Sys2Proof.Machine.execSextwRr rd rs s
  | .lsrRr rd rs => Sys2Proof.Machine.execLsrRr rd rs s
  | .lsrcRr rd rs => Sys2Proof.Machine.execLsrcRr rd rs s
  | .asrRr rd rs => Sys2Proof.Machine.execAsrRr rd rs s
  | .movwPr rd rs => Sys2Proof.Machine.execMovwPr rd rs s
  | .sel0rr rd rs => Sys2Proof.Machine.execSel0rr rd rs s
  | .selR0r rd rs => Sys2Proof.Machine.execSelR0r rd rs s
  | .negRr rd rs => Sys2Proof.Machine.execNegRr rd rs s
  | .notRr rd rs => Sys2Proof.Machine.execNotRr rd rs s
  | .jmpR rs => Sys2Proof.Machine.execJmpR rs s
  | .callR rd => Sys2Proof.Machine.execCallR rd s
  | .reservedR2Op10010 => Sys2Proof.Machine.execReservedR2Op10010 s
  | .reservedR2Op10011 => Sys2Proof.Machine.execReservedR2Op10011 s
  | .movSr rd => Sys2Proof.Machine.execMovSr rd s
  | .movRs rs => Sys2Proof.Machine.execMovRs rs s
  | .setNt rd => Sys2Proof.Machine.execSetNt rd s
  | .setT rd => Sys2Proof.Machine.execSetT rd s
  | .ret => Sys2Proof.Machine.execRet s
  | .reti => Sys2Proof.Machine.execReti s
  | .dint => Sys2Proof.Machine.execDint s
  | .eint => Sys2Proof.Machine.execEint s
  | .halt => Sys2Proof.Machine.execHalt s
  | .reservedR2Op11101 => Sys2Proof.Machine.execReservedR2Op11101 s
  | .reservedR2Op11110 => Sys2Proof.Machine.execReservedR2Op11110 s
  | .reservedR2Op11111 => Sys2Proof.Machine.execReservedR2Op11111 s
  | .cmpCrr cc rs rn => Sys2Proof.Machine.execCmpCrr cc rs rn s
  | .cmpcCrr cc rs rn => Sys2Proof.Machine.execCmpcCrr cc rs rn s
  | .subcRrr rd rs rn => Sys2Proof.Machine.execSubcRrr rd rs rn s
  | .subRrr rd rs rn => Sys2Proof.Machine.execSubRrr rd rs rn s
  | .andRrr rd rs rn => Sys2Proof.Machine.execAndRrr rd rs rn s
  | .orRrr rd rs rn => Sys2Proof.Machine.execOrRrr rd rs rn s
  | .selRrr rd rs rn => Sys2Proof.Machine.execSelRrr rd rs rn s
  | .reservedR3Op01111 => Sys2Proof.Machine.execReservedR3Op01111 s
  | .xorRrr rd rs rn => Sys2Proof.Machine.execXorRrr rd rs rn s
  | .adcRrr rd rs rn => Sys2Proof.Machine.execAdcRrr rd rs rn s
  | .addRrr rd rs rn => Sys2Proof.Machine.execAddRrr rd rs rn s
  | .movwNr rd rs rn => Sys2Proof.Machine.execMovwNr rd rs rn s
  | .movzbNr rd rs rn => Sys2Proof.Machine.execMovzbNr rd rs rn s
  | .movsbNr rd rs rn => Sys2Proof.Machine.execMovsbNr rd rs rn s
  | .movwRn rd rs rn => Sys2Proof.Machine.execMovwRn rd rs rn s
  | .movbRn rd rs rn => Sys2Proof.Machine.execMovbRn rd rs rn s
  | .reservedJOp11000 => Sys2Proof.Machine.execReservedJOp11000 s
  | .reservedJOp11001 => Sys2Proof.Machine.execReservedJOp11001 s
  | .reservedJOp11010 => Sys2Proof.Machine.execReservedJOp11010 s
  | .reservedJOp11011 => Sys2Proof.Machine.execReservedJOp11011 s
  | .brNt a => Sys2Proof.Machine.execBrNt a s
  | .brT a => Sys2Proof.Machine.execBrT a s
  | .addKq a => Sys2Proof.Machine.execAddKq a s
  | .jmpK a => Sys2Proof.Machine.execJmpK a s
  | .movwAr rd k => Sys2Proof.Machine.execMovwAr rd k s
  | .movsbAr rd k => Sys2Proof.Machine.execMovsbAr rd k s
  | .movwRa rd k => Sys2Proof.Machine.execMovwRa rd k s
  | .movbRa rd k => Sys2Proof.Machine.execMovbRa rd k s
  | .movKr rd k => Sys2Proof.Machine.execMovKr rd k s
  | .subKr rd k => Sys2Proof.Machine.execSubKr rd k s
  | .addKr rd k => Sys2Proof.Machine.execAddKr rd k s
  | .leaQr rd k => Sys2Proof.Machine.execLeaQr rd k s
  | .movwQr rd k => Sys2Proof.Machine.execMovwQr rd k s
  | .movsbQr rd k => Sys2Proof.Machine.execMovsbQr rd k s
  | .movwRq rd k => Sys2Proof.Machine.execMovwRq rd k s
  | .movbRq rd k => Sys2Proof.Machine.execMovbRq rd k s
  | .cmpCrk cc rs k => Sys2Proof.Machine.execCmpCrk cc rs k s
  | .cmpcCrk cc rs k => Sys2Proof.Machine.execCmpcCrk cc rs k s
  | .andKr rd rs k => Sys2Proof.Machine.execAndKr rd rs k s
  | .leaMr rd rs k => Sys2Proof.Machine.execLeaMr rd rs k s
  | .movwMr rd rs k => Sys2Proof.Machine.execMovwMr rd rs k s
  | .movsbMr rd rs k => Sys2Proof.Machine.execMovsbMr rd rs k s
  | .movwRm rd rs k => Sys2Proof.Machine.execMovwRm rd rs k s
  | .movbRm rd rs k => Sys2Proof.Machine.execMovbRm rd rs k s
  | .reservedPOp11100 => Sys2Proof.Machine.execReservedPOp11100 s
  | .reservedPOp11101 => Sys2Proof.Machine.execReservedPOp11101 s
  | .call a => Sys2Proof.Machine.execCall a s
  | .pfixK p => Sys2Proof.Machine.execPfixK p s
  | .nop => Sys2Proof.Machine.execNop s

end Sys2Proof.Machine
end

