-- ==== Sys2Proof/Machine/Cycle.lean ====
section
/-! DEFINITION. What happens at an instruction boundary (60_exceptions.md R274, R292): an interrupt is accepted, or
the next instruction is fetched, decoded and executed. -/

namespace Sys2Proof.Machine

/-- Fetch the word at `pc`, decode it and execute it (R59, R106, R292); then the platform drives its request input. -/
def runInstr (s : State) : Result :=
  match fetch s with
  | .error f => .fault f
  | .ok w => driven (exec (decode s.cfg.r3Layout w) s)

/-- The step of a machine that is not halted: where an interrupt may be accepted, a free bit decides whether it is
accepted at this boundary or left for a later one (R274, R312); the entry is the whole step (R292). -/
def boundary (s : State) : Result :=
  match acceptable s with
  | none => runInstr s
  | some vector =>
    if Config.drawBit s.draws then driven (settle (enterInterrupt s.drawn vector))
    else runInstr s.drawn

/-- A program word placed where the next fetch reads it. -/
def placeWord (s : State) (w : Word) : State :=
  { s with prog := Memory.set s.prog s.pc.toNat w }

end Sys2Proof.Machine
end

