-- ==== Sys2Proof/Machine/Step.lean ====
section
/-! DEFINITION. One step of the machine (60_exceptions.md R292). -/

namespace Sys2Proof.Machine

/-- If halted, nothing (47_system.md R258); else the boundary's interrupt or instruction. -/
def step (s : State) : Host.Outcome State Fault Refusal :=
  if s.halted then .next s else boundary s

/-- `s` with the instruction numbered `w`, one 16-bit program word (30_encoding.md R80), at the address of the next
fetch. It stands for the host's load of a program (60_exceptions.md R290; log entry 4). -/
def State.withFetchWord (s : State) (_nbits w : Nat) : State :=
  placeWord s (BitVec.ofNat 16 w)

end Sys2Proof.Machine
end

