-- ==== Sys2Proof/Machine/HostInterface.lean ====
section
/-! DEFINITION. What the host can do to the machine, and how a run stands (60_exceptions.md R290, R291). During a run
the host does nothing. -/

namespace Sys2Proof.Machine

/-- The host gives program words their content, before the run (R290). -/
def State.loadProgram (s : State) (words : List (Word × Word)) : State :=
  { s with prog := Memory.setAll s.prog words }

/-- The host gives chosen data bytes an initial value, before the run (R290); the bytes are also kept apart from what
an earlier run has left in data memory, for the start to come (log entry 15). -/
def State.loadData (s : State) (bytes : List (Word × Byte)) : State :=
  { s with data := Memory.setAll s.data bytes, loaded := Memory.setAll s.loaded bytes }

/-- The host starts the processor, after loading: reset, with program memory as loaded and in data memory only the
bytes the host has loaded since the last start; then execution from `RESET_PC` (R290, 70_reset_and_hazards.md R300).
Registers take the values they have after reset (log entries 1, 2, 15). -/
def State.start (s : State) : State :=
  State.resetWith s.cfg s.prog s.loaded

/-- How a run stands (R291). -/
inductive RunEnd where
  /-- The run has not ended yet. -/
  | running (s : State)
  /-- `halt` has executed: normal termination, with the state after it. -/
  | halted (s : State)
  /-- A model fault was raised: abnormal termination, with the state before the faulting instruction. -/
  | faulted (s : State) (f : Fault)
  /-- The model declined the run at a Reserved or not-implemented word, under `RESERVED_OP = refuse` alone
  (93_implementation_defined.md U1), with the state before it. -/
  | refused (s : State) (r : Refusal)
deriving DecidableEq, Repr

/-- A run of at most `k` steps (R291). -/
def runFor : Nat → State → RunEnd
  | 0, s => if s.halted then .halted s else .running s
  | k + 1, s =>
    if s.halted then .halted s
    else
      match step s with
      | .next t => runFor k t
      | .fault f => .faulted s f
      | .refused r => .refused s r

end Sys2Proof.Machine
end

