-- ==== Sys2Proof/Safety.lean ====
section
/-! DEFINITION. What counts as a safe run, the invariant every step keeps, and the words the claims are stated in:
what an instruction may write, and what a condition says of its operands. -/

namespace Sys2Proof.Machine

/-! ### Runs -/

/-- A run of at most `k` steps meets no model fault and no refusal (60_exceptions.md R270, R291). -/
def safeFor (k : Nat) (s : State) : Bool :=
  match runFor k s with
  | .running _ | .halted _ => true
  | .faulted _ _ | .refused _ _ => false

/-- The invariant: both memories and what the host has loaded keep their canonical form, a halted machine holds no pending prefix (46_prefix.md
R249), and a platform without `HAS_IRQ` requests no interrupt (60_exceptions.md R273). -/
def State.inv (s : State) : Bool :=
  Memory.wf s.data && Memory.wf s.prog && Memory.wf s.loaded && (!s.halted || s.pfx.isNone) && (s.cfg.irqVector.isSome || !s.irq)

/-! ### What an instruction may write -/

/-- The general register an instruction writes, if it writes one; no instruction writes two. (Under a value of
`IRQ_FRAME` that is not the spec's, `reti` also gives back the registers of the frame; log entry 20.) -/
def dest : Instr → Option Reg
  | .movRr rd _ | .zextRr rd _ | .sextRr rd _ | .lsrbRr rd _ | .asrbRr rd _ | .lslbRr rd _ | .sextwRr rd _
  | .lsrRr rd _ | .lsrcRr rd _ | .asrRr rd _ | .movwPr rd _ | .sel0rr rd _ | .selR0r rd _ | .negRr rd _
  | .notRr rd _ | .setNt rd | .setT rd | .subcRrr rd _ _ | .subRrr rd _ _ | .andRrr rd _ _ | .orRrr rd _ _
  | .selRrr rd _ _ | .xorRrr rd _ _ | .adcRrr rd _ _ | .addRrr rd _ _ | .movwNr rd _ _ | .movzbNr rd _ _
  | .movsbNr rd _ _ | .movwAr rd _ | .movsbAr rd _ | .movKr rd _ | .subKr rd _ | .addKr rd _ | .leaQr rd _
  | .movwQr rd _ | .movsbQr rd _ | .andKr rd _ _ | .leaMr rd _ _ | .movwMr rd _ _ | .movsbMr rd _ _ => some rd
  | _ => none

/-- The instructions that write SP (10_state.md R23, the column "writes SP"). -/
def writesSp : Instr → Bool
  | .movRq _ | .addKq _ | .call _ | .callR _ | .ret | .reti => true
  | _ => false

/-- The instructions that write T, C and Z (10_state.md R34): by R30, by R31, and `reti` where the frame holds the SR
image. -/
def writesTCZ : Instr → Bool
  | .addRrr .. | .addKr .. | .adcRrr .. | .subRrr .. | .subKr .. | .subcRrr .. | .negRr ..
  | .lsrRr .. | .lsrcRr .. | .asrRr ..
  | .andRrr .. | .andKr .. | .orRrr .. | .xorRrr .. | .notRr ..
  | .cmpCrr .. | .cmpCrk .. | .cmpcCrr .. | .cmpcCrk .. | .reti => true
  | _ => false

/-- The instructions that write I (10_state.md R34). -/
def writesI : Instr → Bool
  | .dint | .eint | .reti => true
  | _ => false

/-- The logical instructions, which may draw a free bit for C (40_arithmetic_logic.md R137). -/
def isLogical : Instr → Bool
  | .andRrr .. | .andKr .. | .orRrr .. | .xorRrr .. | .notRr .. => true
  | _ => false

/-- The conditional instructions, which read T (10_state.md R32, the complete list). -/
def readsT : Instr → Bool
  | .selRrr .. | .sel0rr .. | .selR0r .. | .setT _ | .setNt _ | .brT _ | .brNt _ => true
  | _ => false

/-- The state with T replaced. -/
def State.withT (s : State) (b : Bool) : State :=
  { s with sr := { s.sr with t := b } }

/-- The state with C and Z replaced. -/
def State.withCZ (s : State) (c z : Bool) : State :=
  { s with sr := { s.sr with c := c, z := z } }

/-- The outcome with its next state, if there is one, changed by `f`. -/
def onNext (f : State → State) : Result → Result
  | .next s => .next (f s)
  | .fault e => .fault e
  | .refused e => .refused e

/-- The instructions that write PC other than by the increment (10_state.md R27). -/
def writesPc : Instr → Bool
  | .jmpK _ | .brT _ | .brNt _ | .jmpR _ | .call _ | .callR _ | .ret | .reti => true
  | _ => false

/-- The bytes of data memory an instruction stores to: the lowest address and how many. A word stands at an even
address (20_memory.md R55, R56), so bit 0 of the effective address plays no part in where a completed word store goes. -/
def storeSpan (s : State) : Instr → Option (Word × Nat)
  | .movwRa _ k => some (eaAbsWord s k &&& 0xFFFE#16, 2)
  | .movwRq _ k => some (eaSpWord s k &&& 0xFFFE#16, 2)
  | .movwRm _ rs k => some (eaBaseWord s rs k &&& 0xFFFE#16, 2)
  | .movwRn _ rs rn => some (eaIndexWord s rs rn &&& 0xFFFE#16, 2)
  | .movbRa _ k => some (eaAbsByte s k, 1)
  | .movbRq _ k => some (eaSpByte s k, 1)
  | .movbRm _ rs k => some (eaBaseByte s rs k, 1)
  | .movbRn _ rs rn => some (eaIndexByte s rs rn, 1)
  | .call _ | .callR _ => some ((s.sp - 2) &&& 0xFFFE#16, 2)
  | _ => none

/-- The effective address of the instruction's first word access of data memory, if it makes one. -/
def wordAccess (s : State) : Instr → Option Word
  | .movwAr _ k | .movwRa _ k => some (eaAbsWord s k)
  | .movwQr _ k | .movwRq _ k => some (eaSpWord s k)
  | .movwMr _ rs k | .movwRm _ rs k => some (eaBaseWord s rs k)
  | .movwNr _ rs rn | .movwRn _ rs rn => some (eaIndexWord s rs rn)
  | .call _ | .callR _ => some (s.sp - 2)
  | .ret => some s.sp
  | .reti => if s.cfg.irqFrame.words.isEmpty then none else some s.sp
  | _ => none

/-- The effective address of the instruction's byte access of data memory, if it makes one. -/
def byteAccess (s : State) : Instr → Option Word
  | .movsbAr _ k | .movbRa _ k => some (eaAbsByte s k)
  | .movsbQr _ k | .movbRq _ k => some (eaSpByte s k)
  | .movsbMr _ rs k | .movbRm _ rs k => some (eaBaseByte s rs k)
  | .movzbNr _ rs rn | .movsbNr _ rs rn | .movbRn _ rs rn => some (eaIndexByte s rs rn)
  | _ => none

/-- The effective address of the instruction's first word read of data memory, if it makes one. -/
def wordRead (s : State) : Instr → Option Word
  | .movwAr _ k => some (eaAbsWord s k)
  | .movwQr _ k => some (eaSpWord s k)
  | .movwMr _ rs k => some (eaBaseWord s rs k)
  | .movwNr _ rs rn => some (eaIndexWord s rs rn)
  | .ret => some s.sp
  | .reti => if s.cfg.irqFrame.words.isEmpty then none else some s.sp
  | _ => none

/-- The effective address of the instruction's byte read of data memory, if it makes one. -/
def byteRead (s : State) : Instr → Option Word
  | .movsbAr _ k => some (eaAbsByte s k)
  | .movsbQr _ k => some (eaSpByte s k)
  | .movsbMr _ rs k => some (eaBaseByte s rs k)
  | .movzbNr _ rs rn | .movsbNr _ rs rn => some (eaIndexByte s rs rn)
  | _ => none

/-! ### Conditions on a data access -/

/-- The two bytes of the word at an even address are populated (20_memory.md R55, R61). -/
def wordOpen (s : State) (a : Word) : Prop :=
  a.getLsbD 0 = false ∧ populated s.cfg.dataMap a.toNat = true ∧ populated s.cfg.dataMap (a + 1).toNat = true

/-- The word at an even, populated address holds `v` (20_memory.md R53). -/
def holdsWord (s : State) (a v : Word) : Prop :=
  wordOpen s a ∧ Memory.get s.data a.toNat = some (firstByte s.cfg.byteOrder v) ∧
    Memory.get s.data (a + 1).toNat = some (secondByte s.cfg.byteOrder v)

/-- The byte at a populated address holds `b`. -/
def holdsByte (s : State) (a : Word) (b : Byte) : Prop :=
  populated s.cfg.dataMap a.toNat = true ∧ Memory.get s.data a.toNat = some b

/-! ### Shapes of claims about loads and stores -/

/-- `i` completes as a word load of `rd` from `ea`: whatever word stands at the even, populated address `ea`, it is
written to `rd`; PC advances, the prefix latch empties, and nothing else changes. -/
def LoadsWord (i : Instr) (rd : Reg) (ea : Word) (s : State) : Prop :=
  ∀ v, holdsWord s ea v →
    exec i s = .next { s with regs := s.regs.set rd v, pc := s.pc + 1, pfx := none }

/-- `i` completes as a byte load of `rd` from `ea`, the byte extended by `ext`; PC advances, the prefix latch empties,
and nothing else changes. -/
def LoadsByte (i : Instr) (rd : Reg) (ea : Word) (ext : Byte → Word) (s : State) : Prop :=
  ∀ b, holdsByte s ea b →
    exec i s = .next { s with regs := s.regs.set rd (ext b), pc := s.pc + 1, pfx := none }

/-- `i` completes as a word store of `rd` at `ea`, where `ea` is even and populated: the two bytes there read back as
the two bytes of the word in byte order, every other address reads as before, PC advances, the prefix latch empties,
and nothing else changes. -/
def StoresWord (i : Instr) (rd : Reg) (ea : Word) (s : State) : Prop :=
  wordOpen s ea →
    ∃ m, exec i s = .next { s with data := m, pc := s.pc + 1, pfx := none } ∧
      Memory.get m ea.toNat = some (firstByte s.cfg.byteOrder (s.reg rd)) ∧
      Memory.get m (ea + 1).toNat = some (secondByte s.cfg.byteOrder (s.reg rd)) ∧
      ∀ a, a ≠ ea.toNat → a ≠ (ea + 1).toNat → Memory.get m a = Memory.get s.data a

/-- `i` completes as a byte store of the low byte of `rd` at `ea`, where `ea` is populated: that byte reads back,
every other address reads as before, PC advances, the prefix latch empties, and nothing else changes. -/
def StoresByte (i : Instr) (rd : Reg) (ea : Word) (s : State) : Prop :=
  populated s.cfg.dataMap ea.toNat = true →
    ∃ m, exec i s = .next { s with data := m, pc := s.pc + 1, pfx := none } ∧
      Memory.get m ea.toNat = some ((s.reg rd).setWidth 8) ∧
      ∀ a, a ≠ ea.toNat → Memory.get m a = Memory.get s.data a

/-- `i` completes as a call of `target`: the word after `i` is pushed on the full-descending stack (20_memory.md R71,
44_branch_call.md R195), PC is the target, the prefix latch empties, and nothing else changes. -/
def CallsTo (i : Instr) (target : Word) (s : State) : Prop :=
  wordOpen s (s.sp - 2) →
    ∃ m, exec i s = .next { s with sp := s.sp - 2, data := m, pc := target, pfx := none } ∧
      Memory.get m (s.sp - 2).toNat = some (firstByte s.cfg.byteOrder (s.pc + 1)) ∧
      Memory.get m (s.sp - 2 + 1).toNat = some (secondByte s.cfg.byteOrder (s.pc + 1)) ∧
      ∀ a, a ≠ (s.sp - 2).toNat → a ≠ (s.sp - 2 + 1).toNat → Memory.get m a = Memory.get s.data a

/-! ### What a condition says -/

/-- What each condition code says of two operands, of any width (42_compare.md R160, last sentence). -/
def condSays {n : Nat} (cc : Cond) (a b : BitVec n) : Bool :=
  match cc with
  | .eq => a == b
  | .ne => a != b
  | .uge => b.ule a
  | .ult => a.ult b
  | .ge => b.sle a
  | .lt => a.slt b
  | .ugt => b.ult a
  | .gt => b.slt a

end Sys2Proof.Machine
end

