-- ==== Sys2Proof/Certificates/Slice0/Obligations.lean ====
section
/-! DEFINITION. The statements for the provers. They come from the numbered rules of spec/; a docstring names the
rules, and says so where a statement rests on a choice of the model. -/

open Sys2Proof Sys2Proof.Machine

/-! ### Encoding -/

/-- Decoding an encoded well-formed instruction gives it back, under either layout of format R3 (R81, R94 to R99). -/
def Obligations.DecodeOfEncodeIsIdentity : Prop :=
  ∀ (lay : R3Layout) (i : Instr), i.wf = true → decode lay (encode lay i) = i

/-- Outside format R2 and the reserved rows no bit of a word is ignored: the decoded instruction encodes to the word
it was decoded from, under either layout (R102, last sentences, for the rows that have a meaning). -/
def Obligations.EncodeOfDecodeOutsideR2 : Prop :=
  ∀ (lay : R3Layout) (w : Word), formatOf w ≠ .r2 → (decode lay w).isReserved = false →
    encode lay (decode lay w) = w

/-- The type of a word is decided by its high bits alone, as R82's table says, and the decoded instruction is a
well-formed row of that type. That it is well-formed says only that no word decodes to `movRr r0 r0`: that the word
R185 calls `mov r0, r0` decodes to a constructor `nop` of its own is the model's choice (log entry 7). -/
def Obligations.TypeByHighBits : Prop :=
  ∀ (lay : R3Layout) (w : Word),
    (decode lay w).format = formatOf w ∧ (decode lay w).wf = true ∧
    (formatOf w = .i1 ↔ field w 14 2 ≠ 0#2 ∧ 8 ≤ (field w 11 5).toNat ∧ (field w 11 5).toNat ≤ 19) ∧
    (formatOf w = .i2 ↔ field w 14 2 ≠ 0#2 ∧ 20 ≤ (field w 11 5).toNat ∧ (field w 11 5).toNat ≤ 27) ∧
    (formatOf w = .p ↔ 28 ≤ (field w 11 5).toNat) ∧
    (formatOf w = .r2 ↔ field w 12 4 = 0#4) ∧
    (formatOf w = .r3 ↔ field w 14 2 = 0#2 ∧ (field w 12 2 = 1#2 ∨ field w 12 2 = 2#2)) ∧
    (formatOf w = .j ↔ field w 12 4 = 3#4)

/-- Under the default layout the words of R100 and R101, and no others, decode to a Reserved or not-implemented row. -/
def Obligations.ReservedWordsAreThoseListed : Prop :=
  ∀ w : Word, (decode .rn42 w).isReserved = true ↔
    (field w 12 4 = 14#4 ∨ field w 11 5 = 6#5 ∨ (field w 11 5 = 3#5 ∧ field w 0 2 = 3#2) ∨
      (field w 12 4 = 0#4 ∧ ((field w 0 5).toNat = 18 ∨ (field w 0 5).toNat = 19 ∨ (field w 0 5).toNat = 20 ∨
        (field w 0 5).toNat = 21 ∨ 29 ≤ (field w 0 5).toNat)))

/-- Two R2 words with the same opcode, the same Rd where the row uses Rd, and the same Rs where the row uses Rs, are
the same instruction, whatever bit 11 and the unused fields hold (R88, R99, R102). Rests on the spec's decision D24
(log entry 13). -/
def Obligations.UnusedR2BitsAreIgnored : Prop :=
  ∀ (lay : R3Layout) (w w' : Word), formatOf w = .r2 → formatOf w' = .r2 →
    field w 0 5 = field w' 0 5 →
    (((field w 0 5).toNat ∉ [1, 16, 18, 19, 21] ∧ (field w 0 5).toNat < 24) → field w 8 3 = field w' 8 3) →
    (((field w 0 5).toNat ≤ 16 ∨ (field w 0 5).toNat = 21) → field w 5 3 = field w' 5 3) →
    decode lay w = decode lay w'

/-- A few words of the spec's own examples decode to the instructions they stand for (95_test_vectors.md). -/
def Obligations.ExampleWordsDecode : Prop :=
  decode .rn42 0x232A#16 = .addRrr .r3 .r1 .r2 ∧ decode .rn42 0x3DF8#16 = .addKq 0x1F8#9 ∧
    decode .rn42 0xA53F#16 = .cmpCrk .lt .r1 0x1F#5 ∧ decode .rn42 0x63FF#16 = .movKr .r3 0xFF#8 ∧
    decode .rn42 0xF300#16 = .call 0x300#11 ∧ decode .rn42 0x0211#16 = .callR .r2 ∧
    decode .rn42 0x07FC#16 = .halt ∧ decode .rn42 0x1803#16 = .reservedR3Op01111 ∧
    decode .rn42 0x2A2E#16 = .movwRn .r2 .r1 .r3 ∧ decode .rn42 0xF891#16 = .pfixK 0x091#11

/-- The all-zero word is the no-operation: it does what `mov r0, r0` does, which is to change PC alone (R103, R185).
That it decodes to a constructor `nop` of its own is the model's choice (log entry 7). -/
def Obligations.ZeroWordIsNoOperation : Prop :=
  (∀ lay : R3Layout, decode lay 0#16 = .nop) ∧
    (∀ s : State, exec .nop s = exec (.movRr .r0 .r0) s) ∧
    ∀ s : State, s.pfx = none → exec .nop s = .next { s with pc := s.pc + 1 }

/-! ### Steps, reset, interrupts -/

/-- Where no interrupt may be accepted and the machine runs, a step is the meaning of the instruction whose word
stands at PC, after which the platform drives its request input; without `HAS_IRQ` it is that meaning alone (R59,
R106, R292). That the platform drives the input to a free level after each completed step is the model's choice (log
entry 8). -/
def Obligations.StepRunsTheDecodedInstruction : Prop :=
  ∀ (s : State) (w : Word) (i : Instr), s.halted = false → acceptable s = none →
    populated s.cfg.progMap s.pc.toNat = true → Memory.get s.prog s.pc.toNat = some w →
    decode s.cfg.r3Layout w = i → i.wf = true →
    step s = driven (exec i s) ∧ (s.cfg.irqVector = none → step s = exec i s)

/-- The fetch comes first: outside `PROG_MAP` the step is `UnmappedFetch`, and a word nothing has written is
`UnwrittenRead` (R59, R272, R290). Rests on the spec's decisions D22 and D28 (log entries 3, 13, 17). -/
def Obligations.FetchFaults : Prop :=
  ∀ s : State, s.halted = false → acceptable s = none →
    (populated s.cfg.progMap s.pc.toNat = false → step s = .fault (.unmappedFetch s.pc)) ∧
    (populated s.cfg.progMap s.pc.toNat = true → Memory.get s.prog s.pc.toNat = none →
      step s = .fault (.unwrittenRead (.programWord s.pc)))

/-- The halted bit: `halt` sets it, no instruction clears it, no other instruction sets it, and while it is set the
processor executes nothing (R40). -/
def Obligations.HaltedBit : Prop :=
  (∀ s t : State, exec .halt s = .next t → t.halted = true) ∧
    (∀ (i : Instr) (s t : State), exec i s = .next t → s.halted = true → t.halted = true) ∧
    (∀ (i : Instr) (s t : State), i ≠ .halt → exec i s = .next t → t.halted = s.halted) ∧
    ∀ s : State, s.halted = true → step s = .next s

/-- An interrupt may be accepted exactly when `HAS_IRQ`, `irq = 1`, `SR.I = 1`, PFX is empty and the machine is not
halted; where it may, the step is the entry sequence or, left for a later boundary, the next instruction; where it may
not, the step is the next instruction (R274, R292). That the platform drives the input to a free level after the entry
step, as after every completed step, and that the choice to accept draws a free bit, which `drawn` counts, is the
model's choice (log entries 5, 8). The halted machine is HaltedBit's. Rests on the spec's decisions D10 to D12 (log
entry 13). -/
def Obligations.InterruptAcceptance : Prop :=
  ∀ s : State, s.halted = false →
    (∀ v, acceptable s = some v ↔
      s.cfg.irqVector = some v ∧ s.irq = true ∧ s.sr.i = true ∧ s.pfx = none) ∧
    (acceptable s = none → step s = runInstr s) ∧
    ∀ v, acceptable s = some v →
      step s = driven (settle (enterInterrupt s.drawn v)) ∨ step s = runInstr s.drawn

/-- The entry sequence under the default `IRQ_FRAME`: PC and, on top of it, the SR image are pushed, I is cleared, PC
is the vector, and T, C, Z, the general registers and every other byte of memory are as they were (R276, R277). Under
any `IRQ_FRAME` a completed entry lowers SP by two for each word of the frame, clears I, goes to the vector and changes
nothing else but data memory; that is the model's reading of an open parameter (log entry 20). Rests on the spec's
decisions D8, D12, D13 and D29 (log entry 13). -/
def Obligations.InterruptEntry : Prop :=
  (∀ (s t : State) (v : Word), enterInterrupt s v = .ok t →
    t = { s with
      sp := s.sp - BitVec.ofNat 16 (2 * s.cfg.irqFrame.words.length)
      sr := { s.sr with i := false }
      pc := v
      data := t.data }) ∧
  ∀ (s : State) (v : Word), s.cfg.irqFrame = IrqFrame.default → wordOpen s (s.sp - 2) → wordOpen s (s.sp - 4) →
    ∃ m, enterInterrupt s v =
        .ok { s with sp := s.sp - 4, sr := { s.sr with i := false }, pc := v, data := m } ∧
      holdsWord { s with data := m } (s.sp - 2) s.pc ∧
      holdsWord { s with data := m } (s.sp - 4)
        (BitVec.ofNat 16 (s.sr.i.toNat * 8 + s.sr.t.toNat * 4 + s.sr.c.toNat * 2 + s.sr.z.toNat)) ∧
      ∀ a, a ≠ (s.sp - 4).toNat → a ≠ (s.sp - 3).toNat → a ≠ (s.sp - 2).toNat → a ≠ (s.sp - 1).toNat →
        Memory.get m a = Memory.get s.data a

/-- A handler that leaves SP and the words of its frame as it found them, and ends in `reti`, gives the interrupted
program back its PC and its SP, and all four flags where the frame holds the SR image, as the default one does; `reti`
itself changes no general register but those the frame holds, of which the default holds none, and no memory (R278,
R257). It says so of every `IRQ_FRAME` that saves PC, R257 reading `reti` as the inverse of the machine's own entry
sequence; what a frame other than the default holds is the model's choice (log entry 20). Rests on the spec's decisions
D8, D12, D13 and D29 (log entry 13). -/
def Obligations.ReturnUndoesEntry : Prop :=
  ∀ (s t h : State) (v : Word), s.cfg.irqFrame.wf = true → enterInterrupt s v = .ok t →
    h.cfg = s.cfg → h.pfx = none → h.sp = t.sp →
    (∀ n, n < s.cfg.irqFrame.words.length →
      readWord h (h.sp + BitVec.ofNat 16 (2 * n)) = readWord t (t.sp + BitVec.ofNat 16 (2 * n))) →
    ∃ g : Regs,
      exec .reti h = .next { h with
        sp := s.sp
        pc := s.pc
        sr := if .sr ∈ s.cfg.irqFrame.words then s.sr else h.sr
        regs := g
        pfx := none } ∧
      (∀ r, g.get r = if .reg r ∈ s.cfg.irqFrame.words then s.reg r else h.reg r) ∧
      (s.cfg.irqFrame = IrqFrame.default → FrameWord.sr ∈ s.cfg.irqFrame.words ∧ g = h.regs)

/-- Every step keeps the invariant: both memories and the host's loads in canonical form, no pending prefix on a halted machine (R249), no
interrupt request without `HAS_IRQ` (R273). The invariant is the model's (Safety.lean). -/
def Obligations.StepKeepsInvariant : Prop :=
  ∀ s t : State, s.inv = true → step s = .next t → t.inv = true

/-- The invariant holds after reset, for every platform and whatever the host has loaded, and loading and starting keep
it. The invariant is the model's (Safety.lean). -/
def Obligations.ResetHasInvariant : Prop :=
  State.reset.inv = true ∧
    (∀ (cfg : Config) (p : List (Word × Word)) (d : List (Word × Byte)),
      (State.resetWith cfg (Memory.setAll [] p) (Memory.setAll [] d)).inv = true) ∧
    ∀ (s : State) (p : List (Word × Word)) (d : List (Word × Byte)), s.inv = true →
      (s.loadProgram p).inv = true ∧ (s.loadData d).inv = true ∧ s.start.inv = true

/-- What reset leaves, where the spec states it: PC at `RESET_PC`, I clear, the prefix latch empty, not halted,
program memory as the host loaded it, in data memory the bytes the host loaded and no others, and no request without
`HAS_IRQ`. The host loads first and then starts, in as many loads and in whichever order; where it loads an address
twice, the later load stands (R43, R300, R301, R290). That the loaded bytes are those since the last start is the
model's choice (log entry 15). Rests on the spec's decision D14 (log entry 13); nothing is said of the request input
with `HAS_IRQ`, whose level after reset is the model's choice (log entry 8). -/
def Obligations.ResetState : Prop :=
  (State.reset.pc = 0#16 ∧ State.reset.sr.i = false ∧ State.reset.pfx = none ∧ State.reset.halted = false ∧
    State.reset.irq = false) ∧
  (∀ s : State,
    s.start.pc = s.cfg.resetPc ∧ s.start.sr.i = false ∧ s.start.pfx = none ∧ s.start.halted = false ∧
    (s.cfg.irqVector = none → s.start.irq = false) ∧
    s.start.prog = s.prog ∧ s.start.data = s.loaded ∧ s.start.loaded = []) ∧
  (∀ (s : State) (d : List (Word × Byte)),
    (∀ (a : Word) (b : Byte) (d1 d2 : List (Word × Byte)), d = d1 ++ (a, b) :: d2 → (∀ e ∈ d2, e.1 ≠ a) →
      Memory.get (s.loadData d).data a.toNat = some b ∧ Memory.get (s.loadData d).start.data a.toNat = some b) ∧
    (∀ a : Word, (∀ e ∈ d, e.1 ≠ a) →
      Memory.get (s.loadData d).start.data a.toNat = Memory.get s.start.data a.toNat ∧
      (s.loaded = [] → Memory.get (s.loadData d).start.data a.toNat = none)) ∧
    (s.loadData d).start.prog = s.start.prog) ∧
  ∀ (s : State) (p : List (Word × Word)),
    (∀ (a w : Word) (p1 p2 : List (Word × Word)), p = p1 ++ (a, w) :: p2 → (∀ e ∈ p2, e.1 ≠ a) →
      Memory.get (s.loadProgram p).start.prog a.toNat = some w) ∧
    (∀ a : Word, (∀ e ∈ p, e.1 ≠ a) →
      Memory.get (s.loadProgram p).start.prog a.toNat = Memory.get s.start.prog a.toNat) ∧
    (s.loadProgram p).start.data = s.start.data

/-- Nothing writes program memory: no step and no instruction changes it (R38, R68). No step changes the platform's
parameters or what the host has loaded for the next start, which stand in the state by the model's choice (log entries
6, 15). No instruction writes the request input, which the platform drives (R41), or moves the counter of free bits,
which is the model's own (log entry 5), but for the logical ones (R137). -/
def Obligations.ProgramMemoryIsConstant : Prop :=
  (∀ s t : State, step s = .next t → t.prog = s.prog ∧ t.cfg = s.cfg ∧ t.loaded = s.loaded) ∧
    ∀ (i : Instr) (s t : State), exec i s = .next t →
      t.prog = s.prog ∧ t.cfg = s.cfg ∧ t.loaded = s.loaded ∧ t.irq = s.irq ∧
        (isLogical i = false → t.draws = s.draws)

/-- How a run ends: at `halt`, in a halted state, or at a model fault, in a state from which the step is that fault
(R291); under `RESERVED_OP = refuse` also at a Reserved or not-implemented word, in a state from which the step is that
refusal, and never otherwise in a refusal (93_implementation_defined.md U1, U2). Rests on the spec's decisions D15 and
D16 (log entry 13). -/
def Obligations.RunEnds : Prop :=
  ∀ (k : Nat) (s : State),
    (∀ t, runFor k s = .halted t → t.halted = true) ∧
    (∀ t f, runFor k s = .faulted t f → t.halted = false ∧ step t = .fault f) ∧
    (∀ t, runFor k s = .running t → t.halted = false) ∧
    (∀ t r, runFor k s = .refused t r → t.halted = false ∧ step t = .refused r ∧ s.cfg.reservedOp = .refuse ∧
      ∃ w, r = .reservedInstruction w ∧ fetch t = .ok w ∧ (decode t.cfg.r3Layout w).isReserved = true) ∧
    (s.cfg.reservedOp = .fault → ∀ t r, runFor k s ≠ .refused t r)

/-! ### Frames -/

/-- A completed instruction changes no general register but the one it names as its destination; an instruction
without a destination register changes none (R20, R34, R45, R225). Under a value of `IRQ_FRAME` that is not the spec's,
`reti` also gives back the registers of the frame; the default holds none (log entry 20). -/
def Obligations.OnlyTheDestinationRegisterChanges : Prop :=
  ∀ (i : Instr) (s t : State), exec i s = .next t → ∀ r : Reg, dest i ≠ some r →
    ((i = .reti ∧ FrameWord.reg r ∈ s.cfg.irqFrame.words) ∨ t.reg r = s.reg r) ∧
    (s.cfg.irqFrame = IrqFrame.default → t.reg r = s.reg r)

/-- Only the instructions of R23's column "writes SP" change SP. Rests on the spec's decisions D8 and D12 (log entry
13). -/
def Obligations.StackPointerWriters : Prop :=
  ∀ (i : Instr) (s t : State), exec i s = .next t → writesSp i = false → t.sp = s.sp

/-- Every instruction not named by R30 and R31, `reti` apart, leaves T, C and Z unchanged, and only `dint`, `eint` and
`reti` write I (R34, R35). Rests on the spec's decisions D17, D18 and D20 (log entry 13). -/
def Obligations.FlagWriters : Prop :=
  ∀ (i : Instr) (s t : State), exec i s = .next t →
    (writesTCZ i = false → t.sr.t = s.sr.t ∧ t.sr.c = s.sr.c ∧ t.sr.z = s.sr.z) ∧
    (writesI i = false → t.sr.i = s.sr.i)

/-- T is read by the seven conditional instructions alone: to every other instruction the old T makes no difference,
but that it is still there afterwards if the instruction writes no flags; and a conditional instruction does the same
whatever C and Z are (R32). `reti` writes the flags where the frame holds the SR image, as the default one does; that a
frame may lack it is the model's reading of an open parameter (log entry 20). -/
def Obligations.ReadersOfT : Prop :=
  (∀ (i : Instr) (s : State) (b : Bool), readsT i = false → writesTCZ i = true →
    (i = .reti → FrameWord.sr ∈ s.cfg.irqFrame.words) → exec i (s.withT b) = exec i s) ∧
  (∀ (i : Instr) (s : State) (b : Bool), readsT i = false →
    (writesTCZ i = false ∨ (i = .reti ∧ FrameWord.sr ∉ s.cfg.irqFrame.words)) →
    exec i (s.withT b) = onNext (fun t => t.withT b) (exec i s)) ∧
  ∀ (i : Instr) (s : State) (c z : Bool), readsT i = true →
    exec i (s.withCZ c z) = onNext (fun t => t.withCZ c z) (exec i s)

/-- An instruction that does not write PC is followed by the one at PC + 1, wrapping at 0xFFFF (R26, R27). Rests on
the spec's decision D3 (log entry 13). -/
def Obligations.ProgramCounterAdvances : Prop :=
  ∀ (i : Instr) (s t : State), exec i s = .next t → writesPc i = false →
    t.pc.toNat = (s.pc.toNat + 1) % 65536

/-- Every byte of data memory outside the bytes an instruction stores to reads as before: all of memory, for an
instruction that stores nothing (R58, R65, R195, R205, R224). -/
def Obligations.MemoryFrame : Prop :=
  ∀ (i : Instr) (s t : State), exec i s = .next t →
    (storeSpan s i = none → ∀ n : Nat, Memory.get t.data n = Memory.get s.data n) ∧
    ∀ (a : Word) (len : Nat), storeSpan s i = some (a, len) →
      ∀ n : Nat, n < a.toNat ∨ a.toNat + len ≤ n → Memory.get t.data n = Memory.get s.data n

/-- `pfix` sets the prefix latch; every other instruction leaves it empty when it completes (R241). Rests on the
spec's decision D9 (log entry 13). -/
def Obligations.PrefixLatchLifetime : Prop :=
  ∀ (i : Instr) (s t : State), exec i s = .next t →
    (∀ p, i = .pfixK p → t.pfx = some p) ∧ ((∀ p, i ≠ .pfixK p) → t.pfx = none)

/-! ### Model faults -/

/-- An instruction of type R2 or R3, or a `pfix`, that executes with a prefix pending raises `PrefixMisuse` with the
instruction word; a Reserved or not-implemented word raises `ReservedInstruction` instead, or is refused where
`RESERVED_OP = refuse` (R246; R272 for the order). Rests on the spec's decisions D9 and D15 (log entry 13). -/
def Obligations.PrefixMisuse : Prop :=
  ∀ (i : Instr) (s : State), s.pfx ≠ none →
    (i.isReserved = false → (i.format = .r2 ∨ i.format = .r3 ∨ ∃ p, i = .pfixK p) →
      exec i s = .fault (.prefixMisuse s.instrWord)) ∧
    (i.isReserved = true → s.cfg.reservedOp = .fault → exec i s = .fault (.reservedInstruction s.instrWord)) ∧
    (i.isReserved = true → s.cfg.reservedOp = .refuse → exec i s = .refused (.reservedInstruction s.instrWord))

/-- A Reserved or not-implemented instruction stops in every state, with the instruction word: with the model fault
`ReservedInstruction`, or, where `RESERVED_OP = refuse`, in a refusal; a step that fetches one stops so with the fetched
word (R100, R101, R183, R184; 93_implementation_defined.md U1, U2). Rests on the spec's decision D15 (log entry 13). -/
def Obligations.ReservedInstructionsStop : Prop :=
  (∀ (i : Instr) (s : State), i.isReserved = true →
    (s.cfg.reservedOp = .fault → exec i s = .fault (.reservedInstruction s.instrWord)) ∧
    (s.cfg.reservedOp = .refuse → exec i s = .refused (.reservedInstruction s.instrWord))) ∧
  ∀ (s : State) (w : Word), s.halted = false → acceptable s = none → fetch s = .ok w →
    (decode s.cfg.r3Layout w).isReserved = true →
    (s.cfg.reservedOp = .fault → step s = .fault (.reservedInstruction w)) ∧
    (s.cfg.reservedOp = .refuse → step s = .refused (.reservedInstruction w))

/-- A word access whose effective address is odd is `MisalignedWord` with that address under the default
`MISALIGNED_WORD`, stack accesses and interrupt entry included; under `clear_bit0` it goes where the even address
below it goes (R56), and so its `UnmappedAccess` reports the even address, which is the model's choice (log entry 21).
Rests on the spec's decision D6 (log entries 13, 14). -/
def Obligations.MisalignedWordAccess : Prop :=
  (∀ (i : Instr) (s : State) (ea : Word), s.cfg.misalignedWord = .fault → wordAccess s i = some ea →
    ea.getLsbD 0 = true → (s.pfx = none ∨ i.isPrefixable = true) →
    exec i s = .fault (.misalignedWord ea)) ∧
  (∀ (s : State) (v : Word), s.cfg.misalignedWord = .fault → s.sp.getLsbD 0 = true →
    s.cfg.irqFrame.words ≠ [] → enterInterrupt s v = .error (.misalignedWord (s.sp - 2))) ∧
  ∀ (s : State) (ea v : Word), s.cfg.misalignedWord = .clearBit0 →
    readWord s ea = readWord s (ea &&& 0xFFFE#16) ∧ writeWord s ea v = writeWord s (ea &&& 0xFFFE#16) v

/-- A data access outside `DATA_MAP` is `UnmappedAccess` with its address: a byte or word access of an instruction, the
first and the second push of an interrupt entry, and the second read of `reti`, two above its first (R61, R71, R272).
The default `IRQ_FRAME` makes two accesses; of a frame with more the rest are not stated. That a word access with one
of its two bytes outside reports the word's address is the model's reading (log entry 9). Rests on the spec's decision
D22 (log entry 13). -/
def Obligations.UnmappedDataAccess : Prop :=
  (∀ (i : Instr) (s : State) (ea : Word), (s.pfx = none ∨ i.isPrefixable = true) →
    (byteAccess s i = some ea → populated s.cfg.dataMap ea.toNat = false →
      exec i s = .fault (.unmappedAccess ea)) ∧
    (wordAccess s i = some ea → ea.getLsbD 0 = false →
      (populated s.cfg.dataMap ea.toNat = false ∨ populated s.cfg.dataMap (ea + 1).toNat = false) →
      exec i s = .fault (.unmappedAccess ea))) ∧
  (∀ (s : State) (v : Word), s.sp.getLsbD 0 = false →
    (1 ≤ s.cfg.irqFrame.words.length →
      (populated s.cfg.dataMap (s.sp - 2).toNat = false ∨ populated s.cfg.dataMap (s.sp - 1).toNat = false) →
      enterInterrupt s v = .error (.unmappedAccess (s.sp - 2))) ∧
    (2 ≤ s.cfg.irqFrame.words.length → wordOpen s (s.sp - 2) →
      (populated s.cfg.dataMap (s.sp - 4).toNat = false ∨ populated s.cfg.dataMap (s.sp - 3).toNat = false) →
      enterInterrupt s v = .error (.unmappedAccess (s.sp - 4)))) ∧
  ∀ (s : State) (top : Word), s.pfx = none → 2 ≤ s.cfg.irqFrame.words.length → s.sp.getLsbD 0 = false →
    readWord s s.sp = .ok top →
    (populated s.cfg.dataMap (s.sp + 2).toNat = false ∨ populated s.cfg.dataMap (s.sp + 3).toNat = false) →
    exec .reti s = .fault (.unmappedAccess (s.sp + 2))

/-- A read of a populated byte, or of the two bytes of a word, that nothing has written is `UnwrittenRead`; a load, a
`ret` or a `reti` whose read faults stops with that fault, a `reti` also where its second read does (R44, R205). That
of a word's two bytes the lower one is reported first is the model's choice (log entry 10), and so is that a fault of
the first read of `reti` is reported whatever the second would report (log entry 22). Rests on the spec's decision D28
(log entries 3, 13). -/
def Obligations.DataReadFaults : Prop :=
  (∀ (s : State) (a : Word), populated s.cfg.dataMap a.toNat = true → Memory.get s.data a.toNat = none →
    readByte s a = .error (.unwrittenRead (.dataByte a))) ∧
  (∀ (s : State) (a : Word), wordOpen s a →
    (Memory.get s.data a.toNat = none → readWord s a = .error (.unwrittenRead (.dataByte a))) ∧
    (Memory.get s.data a.toNat ≠ none → Memory.get s.data (a + 1).toNat = none →
      readWord s a = .error (.unwrittenRead (.dataByte (a + 1))))) ∧
  (∀ (i : Instr) (s : State) (a : Word) (f : Fault), (s.pfx = none ∨ i.isPrefixable = true) →
    ((wordRead s i = some a ∧ readWord s a = .error f) ∨ (byteRead s i = some a ∧ readByte s a = .error f)) →
    exec i s = .fault f) ∧
  ∀ (s : State) (img : Word) (f : Fault), s.pfx = none → 2 ≤ s.cfg.irqFrame.words.length →
    readWord s s.sp = .ok img → readWord s (s.sp + 2) = .error f → exec .reti s = .fault f

/-! ### Arithmetic and logic -/

/-- The adder: the sum of the operands and the carry in, narrowed to 16 bits, with the carry out of bit 15; a
subtraction adds the complement, so it computes `a - b - (1 - cin)`, and with a carry in of 1 its carry is 1 exactly
when `a >= b` unsigned (R120). The sense of the carry is the spec's own inference (R120). -/
def Obligations.Adder : Prop :=
  (∀ (a b : Word) (cin : Bool),
    (addC a b cin).1.toNat = (a.toNat + b.toNat + cin.toNat) % 65536 ∧
    (addC a b cin).2.toNat = (a.toNat + b.toNat + cin.toNat) / 65536) ∧
  (∀ (a b : Word) (cin : Bool), subC a b cin = addC a (65535#16 - b) cin) ∧
  (∀ (a b : Word) (cin : Bool),
    ((subC a b cin).1.toNat : Int) = ((a.toNat : Int) - b.toNat - (1 - cin.toNat)) % 65536) ∧
  ∀ a b : Word, (subC a b true).1 = a - b ∧ ((subC a b true).2 = true ↔ b.toNat ≤ a.toNat)

/-- `add` in both forms: the word, and what it does: the sum modulo 65536, C the carry out of bit 15, Z and T set
exactly when the result is zero; the immediate is the zero-extended field where no prefix is pending (R121, R122). -/
def Obligations.AddCompletes : Prop :=
  (∀ (rd rs rn : Reg) (s : State), s.pfx = none →
    (encode .rn42 (.addRrr rd rs rn)).toNat =
      0x2002 + 256 * rd.bits.toNat + 32 * rs.bits.toNat + 4 * rn.bits.toNat ∧
    exec (.addRrr rd rs rn) s = .next { s with
      regs := s.regs.set rd (s.reg rs + s.reg rn)
      sr := { s.sr with
        c := decide (65536 ≤ (s.reg rs).toNat + (s.reg rn).toNat)
        z := decide (s.reg rs + s.reg rn = 0#16)
        t := decide (s.reg rs + s.reg rn = 0#16) }
      pc := s.pc + 1 }) ∧
  ∀ (rd : Reg) (k : BitVec 8) (s : State) (imm : Word), imm = immZero s k →
    (encode .rn42 (.addKr rd k)).toNat = 0x7000 + 256 * rd.bits.toNat + k.toNat ∧
    (s.pfx = none → imm.toNat = k.toNat) ∧
    exec (.addKr rd k) s = .next { s with
      regs := s.regs.set rd (s.reg rd + imm)
      sr := { s.sr with
        c := decide (65536 ≤ (s.reg rd).toNat + imm.toNat)
        z := decide (s.reg rd + imm = 0#16)
        t := decide (s.reg rd + imm = 0#16) }
      pc := s.pc + 1
      pfx := none }

/-- `addc`: C is added in, C receives the carry out of bit 15, Z and T stay 0 if Z was 0 (R30, R123). That Z
accumulates is the spec's decision D19 (log entry 13). -/
def Obligations.AddWithCarryCompletes : Prop :=
  ∀ (rd rs rn : Reg) (s : State) (v : Word), s.pfx = none →
    v = BitVec.ofNat 16 ((s.reg rs).toNat + (s.reg rn).toNat + s.sr.c.toNat) →
    exec (.adcRrr rd rs rn) s = .next { s with
      regs := s.regs.set rd v
      sr := { s.sr with
        c := decide (65536 ≤ (s.reg rs).toNat + (s.reg rn).toNat + s.sr.c.toNat)
        z := s.sr.z && decide (v = 0#16)
        t := s.sr.z && decide (v = 0#16) }
      pc := s.pc + 1 }

/-- `addx` in its three forms: the word, and what it does: a sum modulo 65536, unscaled, and no flag written; the
immediate is the field, zero-extended or, into SP, sign-extended, where no prefix is pending (R124, R125, R126). -/
def Obligations.AddxCompletes : Prop :=
  (∀ (rd rs : Reg) (k : BitVec 5) (s : State) (imm : Word), imm = immZero s k →
    (encode .rn42 (.leaMr rd rs k)).toNat = 0xB800 + 256 * rd.bits.toNat + 32 * rs.bits.toNat + k.toNat ∧
    (s.pfx = none → imm.toNat = k.toNat) ∧
    exec (.leaMr rd rs k) s = .next { s with
      regs := s.regs.set rd (s.reg rs + imm), pc := s.pc + 1, pfx := none }) ∧
  (∀ (rd : Reg) (k : BitVec 8) (s : State) (imm : Word), imm = immZero s k →
    (encode .rn42 (.leaQr rd k)).toNat = 0x7800 + 256 * rd.bits.toNat + k.toNat ∧
    (s.pfx = none → imm.toNat = k.toNat) ∧
    exec (.leaQr rd k) s = .next { s with
      regs := s.regs.set rd (s.sp + imm), pc := s.pc + 1, pfx := none }) ∧
  ∀ (a : BitVec 9) (s : State) (imm : Word), imm = immSign s a →
    (encode .rn42 (.addKq a)).toNat = 0x3C00 + a.toNat ∧
    (s.pfx = none → imm.toInt = a.toInt) ∧
    exec (.addKq a) s = .next { s with sp := s.sp + imm, pc := s.pc + 1, pfx := none }

/-- `sub` in both forms: the word, and what it does: the difference modulo 65536, C set exactly when there is no
borrow, Z and T set exactly when the result is zero; the immediate is the zero-extended field where no prefix is
pending (R128, R129). -/
def Obligations.SubtractCompletes : Prop :=
  (∀ (rd rs rn : Reg) (s : State), s.pfx = none →
    (encode .rn42 (.subRrr rd rs rn)).toNat =
      0x1003 + 256 * rd.bits.toNat + 32 * rs.bits.toNat + 4 * rn.bits.toNat ∧
    exec (.subRrr rd rs rn) s = .next { s with
      regs := s.regs.set rd (s.reg rs - s.reg rn)
      sr := { s.sr with
        c := decide ((s.reg rn).toNat ≤ (s.reg rs).toNat)
        z := decide (s.reg rs - s.reg rn = 0#16)
        t := decide (s.reg rs - s.reg rn = 0#16) }
      pc := s.pc + 1 }) ∧
  ∀ (rd : Reg) (k : BitVec 8) (s : State) (imm : Word), imm = immZero s k →
    (encode .rn42 (.subKr rd k)).toNat = 0x6800 + 256 * rd.bits.toNat + k.toNat ∧
    (s.pfx = none → imm.toNat = k.toNat) ∧
    exec (.subKr rd k) s = .next { s with
      regs := s.regs.set rd (s.reg rd - imm)
      sr := { s.sr with
        c := decide (imm.toNat ≤ (s.reg rd).toNat)
        z := decide (s.reg rd - imm = 0#16)
        t := decide (s.reg rd - imm = 0#16) }
      pc := s.pc + 1
      pfx := none }

/-- `neg`: `0 - Rs` modulo 65536, as a subtraction from 0: C, "no borrow", only of 0; Z and T set exactly when the
result is zero. That C follows the subtraction is the spec's own inference (R130). -/
def Obligations.NegateCompletes : Prop :=
  ∀ (rd rs : Reg) (s : State), s.pfx = none →
    exec (.negRr rd rs) s = .next { s with
      regs := s.regs.set rd (0#16 - s.reg rs)
      sr := { s.sr with
        c := decide ((s.reg rs).toNat ≤ 0), z := decide (s.reg rs = 0#16), t := decide (s.reg rs = 0#16) }
      pc := s.pc + 1 }

/-- `subc`: under `SUBC_SENSE = not_borrow` it computes `Rs - Rn - (1 - C)`, under `literal` `Rs - Rn - C`; the new C
is "no borrow", and Z and T stay 0 if Z was 0 (R30, R127). That Z accumulates is the spec's decision D19, the carry
90_conflicts.md C4 (log entry 13). -/
def Obligations.SubtractWithCarryCompletes : Prop :=
  ∀ (rd rs rn : Reg) (s : State) (borrow : Nat) (v : Word), s.pfx = none →
    borrow = (match s.cfg.subcSense with | .notBorrow => 1 - s.sr.c.toNat | .literal => s.sr.c.toNat) →
    v = s.reg rs - s.reg rn - BitVec.ofNat 16 borrow →
    exec (.subcRrr rd rs rn) s = .next { s with
      regs := s.regs.set rd v
      sr := { s.sr with
        c := decide ((s.reg rn).toNat + borrow ≤ (s.reg rs).toNat)
        z := s.sr.z && decide (v = 0#16)
        t := s.sr.z && decide (v = 0#16) }
      pc := s.pc + 1 }

/-- The logical instructions: Rd receives the bitwise result, Z and T are set exactly when it is zero, and C is some
bit, which under `LOGIC_C = zero` is 0 and under `unchanged` is the old C; under `draw` nothing is said of it, and one
free bit is counted (R131 to R135, R137; the counter is the model's own, log entry 5). What becomes of C is the spec's
decision D20 (log entry 13). -/
def Obligations.LogicCompletes : Prop :=
  ∀ (i : Instr) (rd : Reg) (s : State) (v : Word),
    ((∃ rs rn, i = .andRrr rd rs rn ∧ v = s.reg rs &&& s.reg rn ∧ s.pfx = none) ∨
      (∃ rs k, i = .andKr rd rs k ∧ v = s.reg rs &&& immZero s k) ∨
      (∃ rs rn, i = .orRrr rd rs rn ∧ v = s.reg rs ||| s.reg rn ∧ s.pfx = none) ∨
      (∃ rs rn, i = .xorRrr rd rs rn ∧ v = s.reg rs ^^^ s.reg rn ∧ s.pfx = none) ∨
      (∃ rs, i = .notRr rd rs ∧ v = 65535#16 - s.reg rs ∧ s.pfx = none)) →
    ∃ (c : Bool) (n : Nat),
      exec i s = .next { s with
        regs := s.regs.set rd v
        sr := { s.sr with c := c, z := decide (v = 0#16), t := decide (v = 0#16) }
        pc := s.pc + 1
        pfx := none
        draws := n } ∧
      (s.cfg.logicC = .draw → n = s.draws + 1) ∧
      (s.cfg.logicC = .zero → c = false ∧ n = s.draws) ∧
      (s.cfg.logicC = .unchanged → c = s.sr.c ∧ n = s.draws)

/-- 32-bit addition and subtraction on register pairs: `add` then `addc` gives the 32-bit sum, C the carry out of bit
31; `sub` then `subc` (not_borrow) gives the 32-bit difference, C set exactly when there is no borrow; after either
pair Z and T say whether all 32 bits are zero (R30, R123, R127). Z rests on the spec's decision D19 (log entry 13). -/
def Obligations.CarryPairsComputeDoubleWords : Prop :=
  ∀ (dl sl nl dh sh nh : Reg) (s : State) (a b : BitVec 32), s.pfx = none →
    dl ≠ sh → dl ≠ nh → dl ≠ dh →
    a = s.reg sh ++ s.reg sl → b = s.reg nh ++ s.reg nl →
    (∃ t u, exec (.addRrr dl sl nl) s = .next t ∧ exec (.adcRrr dh sh nh) t = .next u ∧
      (u.reg dh ++ u.reg dl : BitVec 32) = a + b ∧
      u.sr.c = decide (4294967296 ≤ a.toNat + b.toNat) ∧
      u.sr.z = decide (a + b = 0#32) ∧ u.sr.t = u.sr.z) ∧
    (s.cfg.subcSense = .notBorrow →
      ∃ t u, exec (.subRrr dl sl nl) s = .next t ∧ exec (.subcRrr dh sh nh) t = .next u ∧
        (u.reg dh ++ u.reg dl : BitVec 32) = a - b ∧
        u.sr.c = decide (b.toNat ≤ a.toNat) ∧
        u.sr.z = decide (a = b) ∧ u.sr.t = u.sr.z)

/-! ### Shifts and extensions -/

/-- The single-bit right shifts: bit 0 goes to C; bit 15 is 0 (`lsr`), preserved (`asr`), or the old C (`lsrc`); Z is
set by the result, with the old Z in `lsrc`, and T is Z (R30, R144 to R147). Z and T rest on the spec's decisions D18
and D19 (log entry 13). -/
def Obligations.SingleBitShiftsComplete : Prop :=
  ∀ (rd rs : Reg) (s : State), s.pfx = none →
    (∃ v : Word, v.toNat = (s.reg rs).toNat / 2 ∧
      exec (.lsrRr rd rs) s = .next { s with
        regs := s.regs.set rd v
        sr := { s.sr with c := (s.reg rs).getLsbD 0, z := decide (v = 0#16), t := decide (v = 0#16) }
        pc := s.pc + 1 }) ∧
    (∃ v : Word, v.toInt = (s.reg rs).toInt / 2 ∧
      exec (.asrRr rd rs) s = .next { s with
        regs := s.regs.set rd v
        sr := { s.sr with c := (s.reg rs).getLsbD 0, z := decide (v = 0#16), t := decide (v = 0#16) }
        pc := s.pc + 1 }) ∧
    (∃ v : Word, v.toNat = (s.reg rs).toNat / 2 + s.sr.c.toNat * 32768 ∧
      exec (.lsrcRr rd rs) s = .next { s with
        regs := s.regs.set rd v
        sr := { s.sr with
          c := (s.reg rs).getLsbD 0
          z := s.sr.z && decide (v = 0#16)
          t := s.sr.z && decide (v = 0#16) }
        pc := s.pc + 1 })

/-- A 32-bit right shift of a register pair: `lsr` (or `asr`) on the high half, then `lsrc` on the low half, shifts
the 32-bit value logically (or arithmetically) by one; C is the bit shifted out, and Z and T say whether all 32 bits
are zero (R147). Z and T rest on the spec's decisions D18 and D19 (log entry 13). -/
def Obligations.ShiftPairsShiftDoubleWords : Prop :=
  ∀ (h l : Reg) (s : State) (a : BitVec 32), s.pfx = none → h ≠ l → a = s.reg h ++ s.reg l →
    (∃ t u, exec (.lsrRr h h) s = .next t ∧ exec (.lsrcRr l l) t = .next u ∧
      (u.reg h ++ u.reg l : BitVec 32) = a >>> 1 ∧ u.sr.c = a.getLsbD 0 ∧
      u.sr.z = decide (a >>> 1 = 0#32) ∧ u.sr.t = u.sr.z) ∧
    ∃ t u, exec (.asrRr h h) s = .next t ∧ exec (.lsrcRr l l) t = .next u ∧
      (u.reg h ++ u.reg l : BitVec 32) = a.sshiftRight 1 ∧ u.sr.c = a.getLsbD 0 ∧
      u.sr.z = decide (a.sshiftRight 1 = 0#32) ∧ u.sr.t = u.sr.z

/-- The byte shifts and the extensions write Rd and no flag; each result as a number (R144, R148 to R153). Rests on
the spec's decisions D17 and D21 (log entry 13). -/
def Obligations.ByteShiftsAndExtensionsComplete : Prop :=
  ∀ (i : Instr) (rd rs : Reg) (s : State) (v : Word), s.pfx = none →
    ((i = .lsrbRr rd rs ∧ v.toNat = (s.reg rs).toNat / 256) ∨
      (i = .asrbRr rd rs ∧ v.toInt = (s.reg rs).toInt / 256) ∨
      (i = .lslbRr rd rs ∧ v.toNat = (s.reg rs).toNat * 256 % 65536) ∨
      (i = .zextRr rd rs ∧ v.toNat = (s.reg rs).toNat % 256) ∨
      (i = .sextRr rd rs ∧ v.toInt = ((s.reg rs).setWidth 8).toInt) ∨
      (i = .sextwRr rd rs ∧ v.toInt = if (s.reg rs).toInt < 0 then -1 else 0)) →
    exec i s = .next { s with regs := s.regs.set rd v, pc := s.pc + 1 }

/-! ### Compares -/

/-- The condition codes, and `cmp` in both forms: the word, and what it does: T is what the condition says of the two
operands, C is set exactly when the first is at least the second unsigned, Z exactly when they are equal; no register
is written; the immediate is the sign-extended field where no prefix is pending (R160, R162, R163). -/
def Obligations.CompareCompletes : Prop :=
  (∀ c z n v : Bool,
    condHolds (Cond.ofBits 0#3) c z n v = z ∧ condHolds (Cond.ofBits 1#3) c z n v = !z ∧
    condHolds (Cond.ofBits 2#3) c z n v = c ∧ condHolds (Cond.ofBits 3#3) c z n v = !c ∧
    condHolds (Cond.ofBits 4#3) c z n v = decide (n = v) ∧ condHolds (Cond.ofBits 5#3) c z n v = decide (n ≠ v) ∧
    condHolds (Cond.ofBits 6#3) c z n v = (c && !z) ∧
    condHolds (Cond.ofBits 7#3) c z n v = (decide (n = v) && !z)) ∧
  (∀ (cc : Cond) (rs rn : Reg) (s : State), s.pfx = none →
    (encode .rn42 (.cmpCrr cc rs rn)).toNat =
      0x1000 + 256 * cc.bits.toNat + 32 * rs.bits.toNat + 4 * rn.bits.toNat ∧
    exec (.cmpCrr cc rs rn) s = .next { s with
      sr := { s.sr with
        t := condSays cc (s.reg rs) (s.reg rn)
        c := decide ((s.reg rn).toNat ≤ (s.reg rs).toNat)
        z := decide (s.reg rs = s.reg rn) }
      pc := s.pc + 1 }) ∧
  ∀ (cc : Cond) (rs : Reg) (k : BitVec 5) (s : State) (imm : Word), imm = immSign s k →
    (encode .rn42 (.cmpCrk cc rs k)).toNat = 0xA000 + 256 * cc.bits.toNat + 32 * rs.bits.toNat + k.toNat ∧
    (s.pfx = none → imm.toInt = k.toInt) ∧
    exec (.cmpCrk cc rs k) s = .next { s with
      sr := { s.sr with
        t := condSays cc (s.reg rs) imm
        c := decide (imm.toNat ≤ (s.reg rs).toNat)
        z := decide (s.reg rs = imm) }
      pc := s.pc + 1
      pfx := none }

/-- `cmpc` in both forms, on the old C and Z: C is the carry of `Rs + not b + old C`, Z the old Z and a zero result,
and T the condition on the new C, the new Z, and the sign and signed overflow of that subtraction (R160, R164, R165,
R166). Rests on the spec's decisions D19 and D25 (log entries 11, 13). -/
def Obligations.CompareWithCarryCompletes : Prop :=
  ∀ (i : Instr) (cc : Cond) (s : State) (a b : Word) (d : Int) (r : Word),
    ((∃ rs rn, i = .cmpcCrr cc rs rn ∧ a = s.reg rs ∧ b = s.reg rn ∧ s.pfx = none) ∨
      (∃ rs k, i = .cmpcCrk cc rs k ∧ a = s.reg rs ∧ b = immSign s k)) →
    d = a.toInt - b.toInt - (1 - s.sr.c.toNat) →
    r = BitVec.ofInt 16 d →
    ∃ c z : Bool,
      (c = true ↔ b.toNat + (1 - s.sr.c.toNat) ≤ a.toNat) ∧
      (z = true ↔ s.sr.z = true ∧ r = 0#16) ∧
      exec i s = .next { s with
        sr := { s.sr with
          t := condHolds cc c z (r.getLsbD 15) (decide (d < -32768 ∨ 32767 < d))
          c := c
          z := z }
        pc := s.pc + 1
        pfx := none }

/-- A 32-bit compare of register pairs: `cmp` on the low halves and `cmpc` on the high halves leave in T what the
condition of the `cmpc` says of the two 32-bit values, in C "no borrow" and in Z equality (R164), whatever `SUBC_SENSE`
is: that `cmpc` does not follow it is the model's reading (log entry 11). Z rests on the spec's decision D19, the signed
conditions on D25 (log entry 13). -/
def Obligations.ComparePairComparesDoubleWords : Prop :=
  ∀ (cc cc' : Cond) (al bl ah bh : Reg) (s : State) (a b : BitVec 32), s.pfx = none →
    a = s.reg ah ++ s.reg al → b = s.reg bh ++ s.reg bl →
    ∃ t u, exec (.cmpCrr cc al bl) s = .next t ∧ exec (.cmpcCrr cc' ah bh) t = .next u ∧
      u.sr.t = condSays cc' a b ∧ u.sr.c = decide (b.toNat ≤ a.toNat) ∧ u.sr.z = decide (a = b) ∧
      u.regs = s.regs

/-! ### Moves -/

/-- The moves: Rs or the immediate into Rd, Rs into SP (odd values too), and no flag written; with the words of the
first two, and the immediate as the sign-extended field, or with a prefix pending `p_imm * 32` plus its low five bits
(R175, R176, R177). -/
def Obligations.MovesComplete : Prop :=
  (∀ (rd rs : Reg) (s : State), s.pfx = none →
    (encode .rn42 (.movRr rd rs)).toNat = 256 * rd.bits.toNat + 32 * rs.bits.toNat ∧
    exec (.movRr rd rs) s = .next { s with regs := s.regs.set rd (s.reg rs), pc := s.pc + 1 }) ∧
  (∀ (rd : Reg) (k : BitVec 8) (s : State) (imm : Word), imm = immSign s k →
    (encode .rn42 (.movKr rd k)).toNat = 0x6000 + 256 * rd.bits.toNat + k.toNat ∧
    (s.pfx = none → imm.toInt = k.toInt) ∧
    (∀ p : BitVec 11, s.pfx = some p → imm.toNat = p.toNat * 32 + k.toNat % 32) ∧
    exec (.movKr rd k) s = .next { s with regs := s.regs.set rd imm, pc := s.pc + 1, pfx := none }) ∧
  ∀ (rs : Reg) (s : State), s.pfx = none →
    exec (.movRq rs) s = .next { s with sp := s.reg rs, pc := s.pc + 1 }

/-- Conditional select and set: T chooses, and no flag is written (R178 to R182), with the words of the rows of R179,
R180 and R182. -/
def Obligations.SelectAndSetComplete : Prop :=
  ∀ (rd rs rn : Reg) (s : State), s.pfx = none →
    ((encode .rn42 (.sel0rr rd rs)).toNat = 0x000C + 256 * rd.bits.toNat + 32 * rs.bits.toNat ∧
      (encode .rn42 (.selR0r rd rs)).toNat = 0x000D + 256 * rd.bits.toNat + 32 * rs.bits.toNat ∧
      (encode .rn42 (.setNt rd)).toNat = 0x0016 + 256 * rd.bits.toNat) ∧
    exec (.selRrr rd rs rn) s = .next { s with
      regs := s.regs.set rd (if s.sr.t = true then s.reg rs else s.reg rn), pc := s.pc + 1 } ∧
    exec (.sel0rr rd rs) s = .next { s with
      regs := s.regs.set rd (if s.sr.t = true then 0#16 else s.reg rs), pc := s.pc + 1 } ∧
    exec (.selR0r rd rs) s = .next { s with
      regs := s.regs.set rd (if s.sr.t = true then s.reg rs else 0#16), pc := s.pc + 1 } ∧
    exec (.setT rd) s = .next { s with
      regs := s.regs.set rd (BitVec.ofNat 16 s.sr.t.toNat), pc := s.pc + 1 } ∧
    exec (.setNt rd) s = .next { s with
      regs := s.regs.set rd (BitVec.ofNat 16 (1 - s.sr.t.toNat)), pc := s.pc + 1 }

/-! ### Branches, calls, returns -/

/-- Jumps and branches: the words of the PC-relative ones, and what they do: the target is `pc + BR_BASE + imm` modulo
65536, taken by `brcc` when T is 1 and by `brncc` when T is 0, the immediate being the sign-extended field where no
prefix is pending; `jmp Rs` goes to the whole register; no flag is written (R191, R192, R193, R194). -/
def Obligations.JumpsAndBranchesComplete : Prop :=
  (∀ (a : BitVec 9) (s : State) (base imm target : Word),
    base = (match s.cfg.brBase with | .one => 1#16 | .zero => 0#16) →
    imm = immSign s a → target = s.pc + base + imm →
    ((encode .rn42 (.jmpK a)).toNat = 0x3E00 + a.toNat ∧ (encode .rn42 (.brT a)).toNat = 0x3A00 + a.toNat ∧
      (encode .rn42 (.brNt a)).toNat = 0x3800 + a.toNat) ∧
    (s.pfx = none → imm.toInt = a.toInt) ∧
    exec (.jmpK a) s = .next { s with pc := target, pfx := none } ∧
    exec (.brT a) s = .next { s with pc := if s.sr.t = true then target else s.pc + 1, pfx := none } ∧
    exec (.brNt a) s = .next { s with pc := if s.sr.t = false then target else s.pc + 1, pfx := none }) ∧
  ∀ (rs : Reg) (s : State), s.pfx = none → exec (.jmpR rs) s = .next { s with pc := s.reg rs }

/-- `call` in both forms, with SP - 2 even and populated: the address of the word after the call is pushed, and PC is
the immediate or the register (R71, R195, R196). Rests on the spec's decision D8 (log entry 13). -/
def Obligations.CallsComplete : Prop :=
  (∀ (a : BitVec 11) (s : State), CallsTo (.call a) (immZero s a) s) ∧
  ∀ (rd : Reg) (s : State), s.pfx = none → CallsTo (.callR rd) (s.reg rd) s

/-- `ret` pops the word at SP into PC (R71, R197). Rests on the spec's decision D8 (log entry 13). -/
def Obligations.ReturnCompletes : Prop :=
  ∀ (s : State) (target : Word), s.pfx = none → holdsWord s s.sp target →
    exec .ret s = .next { s with pc := target, sp := s.sp + 2 }

/-- A subroutine that leaves SP and the word on top of the stack as it found them, and ends in `ret`, comes back to
the word after its `call`, with SP as before the call (R195, R196, R197). Rests on the spec's decision D8 (log entry
13). -/
def Obligations.ReturnUndoesCall : Prop :=
  ∀ (i : Instr) (s t h : State), ((∃ a, i = .call a) ∨ ∃ rd, i = .callR rd) → exec i s = .next t →
    h.pfx = none → h.sp = t.sp → readWord h h.sp = readWord t t.sp →
    exec .ret h = .next { h with pc := s.pc + 1, sp := s.sp }

/-! ### Loads and stores -/

/-- Effective addresses as numbers: sums modulo 65536, the immediate or the index of a word access doubled, and the
base never scaled; a prefixed immediate of a word access is doubled unless `PREFIX_WORD_SCALE = false` (R55, R57,
R205, R245). The scaling of a prefixed immediate is the spec's decision D7 (log entry 13). -/
def Obligations.EffectiveAddresses : Prop :=
  ∀ (s : State) (rs rn : Reg) (k5 : BitVec 5) (k8 : BitVec 8) (f : Nat),
    f = (if s.pfx.isSome = true ∧ s.cfg.prefixWordScale = false then 1 else 2) →
    (eaAbsByte s k8).toNat = (immZero s k8).toNat ∧
    (eaAbsWord s k8).toNat = (immZero s k8).toNat * f % 65536 ∧
    (eaSpByte s k8).toNat = (s.sp.toNat + (immZero s k8).toNat) % 65536 ∧
    (eaSpWord s k8).toNat = (s.sp.toNat + (immZero s k8).toNat * f) % 65536 ∧
    (eaBaseByte s rs k5).toNat = ((s.reg rs).toNat + (immZero s k5).toNat) % 65536 ∧
    (eaBaseWord s rs k5).toNat = ((s.reg rs).toNat + (immZero s k5).toNat * f) % 65536 ∧
    (eaIndexByte s rs rn).toNat = ((s.reg rs).toNat + (s.reg rn).toNat) % 65536 ∧
    (eaIndexWord s rs rn).toNat = ((s.reg rs).toNat + (s.reg rn).toNat * 2) % 65536

/-- The loads and stores of data memory, in all their addressing forms. A word load writes the 16 bits read; a byte
load writes the byte sign-extended, or in one form zero-extended; a word store writes all 16 bits of Rd and a byte
store its low byte, and every other byte of memory is left unchanged. The address and the stored value come from the
registers before the instruction, and no base register changes (R58, R225). -/
def Obligations.LoadsAndStoresComplete : Prop :=
  ∀ (rd rs rn : Reg) (k8 : BitVec 8) (k5 : BitVec 5) (s : State),
    (LoadsWord (.movwAr rd k8) rd (eaAbsWord s k8) s ∧
      LoadsWord (.movwQr rd k8) rd (eaSpWord s k8) s ∧
      LoadsWord (.movwMr rd rs k5) rd (eaBaseWord s rs k5) s ∧
      (s.pfx = none → LoadsWord (.movwNr rd rs rn) rd (eaIndexWord s rs rn) s)) ∧
    (LoadsByte (.movsbAr rd k8) rd (eaAbsByte s k8) (fun b => b.signExtend 16) s ∧
      LoadsByte (.movsbQr rd k8) rd (eaSpByte s k8) (fun b => b.signExtend 16) s ∧
      LoadsByte (.movsbMr rd rs k5) rd (eaBaseByte s rs k5) (fun b => b.signExtend 16) s ∧
      (s.pfx = none →
        LoadsByte (.movsbNr rd rs rn) rd (eaIndexByte s rs rn) (fun b => b.signExtend 16) s ∧
        LoadsByte (.movzbNr rd rs rn) rd (eaIndexByte s rs rn) (fun b => b.setWidth 16) s)) ∧
    (StoresWord (.movwRa rd k8) rd (eaAbsWord s k8) s ∧
      StoresWord (.movwRq rd k8) rd (eaSpWord s k8) s ∧
      StoresWord (.movwRm rd rs k5) rd (eaBaseWord s rs k5) s ∧
      (s.pfx = none → StoresWord (.movwRn rd rs rn) rd (eaIndexWord s rs rn) s)) ∧
    StoresByte (.movbRa rd k8) rd (eaAbsByte s k8) s ∧
      StoresByte (.movbRq rd k8) rd (eaSpByte s k8) s ∧
      StoresByte (.movbRm rd rs k5) rd (eaBaseByte s rs k5) s ∧
      (s.pfx = none → StoresByte (.movbRn rd rs rn) rd (eaIndexByte s rs rn) s)

/-- `ld.w {Rs}, Rd`: the whole program word at the program address in Rs; outside `PROG_MAP` it is `UnmappedAccess`,
and a word the host never wrote is `UnwrittenRead` (R223). Rests on the spec's decisions D26 and D28 (log entry 13).
-/
def Obligations.ProgramLoadCompletes : Prop :=
  ∀ (rd rs : Reg) (s : State), s.pfx = none →
    (∀ v, populated s.cfg.progMap (s.reg rs).toNat = true → Memory.get s.prog (s.reg rs).toNat = some v →
      exec (.movwPr rd rs) s = .next { s with regs := s.regs.set rd v, pc := s.pc + 1 }) ∧
    (populated s.cfg.progMap (s.reg rs).toNat = false →
      exec (.movwPr rd rs) s = .fault (.unmappedAccess (s.reg rs))) ∧
    (populated s.cfg.progMap (s.reg rs).toNat = true → Memory.get s.prog (s.reg rs).toNat = none →
      exec (.movwPr rd rs) s = .fault (.unwrittenRead (.programWord (s.reg rs))))

/-- Byte order: after a word is stored at an even address, the byte there is the word's low byte and the next one its
high byte under `little`, the other way round under `big`, and the word reads back whole; a byte stored reads back
(R53, R65). Rests on the spec's decision D5 (log entry 13). -/
def Obligations.ByteOrderOfAWord : Prop :=
  (∀ (s t : State) (a v : Word), a.getLsbD 0 = false → writeWord s a v = .ok t →
    readWord t a = .ok v ∧
    (s.cfg.byteOrder = .little →
      readByte t a = .ok (v.setWidth 8) ∧ readByte t (a + 1) = .ok ((v >>> 8).setWidth 8)) ∧
    (s.cfg.byteOrder = .big →
      readByte t a = .ok ((v >>> 8).setWidth 8) ∧ readByte t (a + 1) = .ok (v.setWidth 8))) ∧
  ∀ (s t : State) (a : Word) (b : Byte), writeByte s a b = .ok t → readByte t a = .ok b

/-! ### The prefix -/

/-- `pfix`: its word; it sets the latch and advances PC, and does nothing else; under a pending prefix it is
`PrefixMisuse`; and the immediate of the instruction that executes next under the latch is
`(p_imm << 5) | (imm & 0b11111)`, `imm` being the one it has without a prefix (R240). -/
def Obligations.PrefixInstruction : Prop :=
  ∀ (p : BitVec 11) (s : State),
    (∀ lay : R3Layout, (encode lay (.pfixK p)).toNat = 0xF800 + p.toNat) ∧
    (s.pfx = none → ∃ t, exec (.pfixK p) s = .next t ∧ t = { s with pfx := some p, pc := s.pc + 1 } ∧
      ∀ (n : Nat) (k : BitVec n), 5 ≤ n → n ≤ 16 →
        immZero t k = (p.setWidth 16 <<< 5) ||| (immZero s k &&& 31#16) ∧
        immSign t k = (p.setWidth 16 <<< 5) ||| (immSign s k &&& 31#16)) ∧
    (s.pfx ≠ none → exec (.pfixK p) s = .fault (.prefixMisuse s.instrWord))

/-- The immediate operand as a number: the field zero- or sign-extended without a prefix; with one, `p_imm * 32` plus
the low five bits of the field, whatever the field's own extension and its other bits (R90, R242). Rests on the spec's
decisions D33 and D34 (log entry 13). -/
def Obligations.ImmediateOperand : Prop :=
  (∀ (n : Nat) (s : State) (k : BitVec n), n ≤ 16 → s.pfx = none →
    (immZero s k).toNat = k.toNat ∧ (immSign s k).toInt = k.toInt) ∧
  ∀ (n : Nat) (s : State) (k : BitVec n) (p : BitVec 11), s.pfx = some p →
    (immZero s k).toNat = p.toNat * 32 + k.toNat % 32 ∧ (immSign s k).toNat = p.toNat * 32 + k.toNat % 32

/-- A prefixed pair gives its core instruction any 16-bit constant: `pfix V[15:5]`, then a core instruction whose
field ends in `V[4:0]`, moves V, or adds V to a register, and PC is then two words on (R242, R244). Rests on the
spec's decisions D9, D33 and D34 (log entry 13). -/
def Obligations.PrefixedPairsTakeSixteenBits : Prop :=
  ∀ (s : State) (v : Word) (rd : Reg) (k8 : BitVec 8) (k5 : BitVec 5) (rs : Reg), s.pfx = none →
    k8.setWidth 5 = v.setWidth 5 → k5 = v.setWidth 5 →
    ∃ t, exec (.pfixK (v.extractLsb' 5 11)) s = .next t ∧ t.pc = s.pc + 1 ∧
      exec (.movKr rd k8) t = .next { s with regs := s.regs.set rd v, pc := s.pc + 2 } ∧
      exec (.leaMr rd rs k5) t = .next { s with regs := s.regs.set rd (s.reg rs + v), pc := s.pc + 2 } ∧
      ∃ u, exec (.addKr rd k8) t = .next u ∧ u.reg rd = s.reg rd + v ∧
        u.sr.c = decide (65536 ≤ (s.reg rd).toNat + v.toNat) ∧ u.pc = s.pc + 2

/-! ### System -/

/-- `dint` and `eint` write I alone; `halt` sets the halted bit. Each leaves PC at the word after it and does nothing
else (R255, R256, R258). Rests on the spec's decisions D11, D16 and D30 (log entry 13). -/
def Obligations.InterruptControlAndHaltComplete : Prop :=
  ∀ s : State, s.pfx = none →
    exec .dint s = .next { s with sr := { s.sr with i := false }, pc := s.pc + 1 } ∧
    exec .eint s = .next { s with sr := { s.sr with i := true }, pc := s.pc + 1 } ∧
    exec .halt s = .next { s with halted := true, pc := s.pc + 1 }

/-- `reti` under the default `IRQ_FRAME` pops the SR image and then PC: the four flags are bits 3 to 0 of the image,
whose other bits are ignored (R257, R277). Under any `IRQ_FRAME` a completed `reti` raises SP by two for each word of
the frame and changes nothing else but PC, SR, the general registers and the prefix latch; that is the model's reading
of an open parameter (log entry 20). Rests on the spec's decisions D12, D13 and D29 (log entry 13). -/
def Obligations.ReturnFromInterruptCompletes : Prop :=
  (∀ s t : State, exec .reti s = .next t →
    t = { s with
      sp := s.sp + BitVec.ofNat 16 (2 * s.cfg.irqFrame.words.length)
      pc := t.pc
      sr := t.sr
      regs := t.regs
      pfx := none }) ∧
  ∀ (s : State) (img target : Word), s.cfg.irqFrame = IrqFrame.default → s.pfx = none →
    holdsWord s s.sp img → holdsWord s (s.sp + 2) target →
    exec .reti s = .next { s with
      sp := s.sp + 4
      sr := { i := img.getLsbD 3, t := img.getLsbD 2, c := img.getLsbD 1, z := img.getLsbD 0 }
      pc := target }
end

