-- ==== Sys2Proof/Laws/Encoding.lean ====
section
/-! SUPPORT. The fields of an encoded word, format by format, and that register and condition numbers round-trip. -/

namespace Sys2Proof

@[simp] theorem Reg.ofBits_bits (r : Reg) : Reg.ofBits r.bits = r := by cases r <;> rfl

@[simp] theorem Cond.ofBits_bits (c : Cond) : Cond.ofBits c.bits = c := by cases c <;> rfl

/-- Only R0 has the number 0. -/
theorem Reg.bits_eq_zero (r : Reg) : r.bits = 0#3 ↔ r = .r0 := by cases r <;> decide

theorem wordP_op (op : BitVec 5) (a : BitVec 11) :
    field (wordP op a) 11 5 = op := by
  ext i hi
  have : i < 5 := hi
  simp only [field, wordP, BitVec.getElem_extractLsb', BitVec.getLsbD_append]
  interval_cases i <;> simp

theorem wordP_a (op : BitVec 5) (a : BitVec 11) :
    field (wordP op a) 0 11 = a := by
  ext i hi
  have : i < 11 := hi
  simp only [field, wordP, BitVec.getElem_extractLsb', BitVec.getLsbD_append]
  interval_cases i <;> simp

theorem wordI2_op (op : BitVec 5) (d s : BitVec 3) (k : BitVec 5) :
    field (wordI2 op d s k) 11 5 = op := by
  ext i hi
  have : i < 5 := hi
  simp only [field, wordI2, BitVec.getElem_extractLsb', BitVec.getLsbD_append]
  interval_cases i <;> simp

theorem wordI2_d (op : BitVec 5) (d s : BitVec 3) (k : BitVec 5) :
    field (wordI2 op d s k) 8 3 = d := by
  ext i hi
  have : i < 3 := hi
  simp only [field, wordI2, BitVec.getElem_extractLsb', BitVec.getLsbD_append]
  interval_cases i <;> simp

theorem wordI2_s (op : BitVec 5) (d s : BitVec 3) (k : BitVec 5) :
    field (wordI2 op d s k) 5 3 = s := by
  ext i hi
  have : i < 3 := hi
  simp only [field, wordI2, BitVec.getElem_extractLsb', BitVec.getLsbD_append]
  interval_cases i <;> simp

theorem wordI2_k (op : BitVec 5) (d s : BitVec 3) (k : BitVec 5) :
    field (wordI2 op d s k) 0 5 = k := by
  ext i hi
  have : i < 5 := hi
  simp only [field, wordI2, BitVec.getElem_extractLsb', BitVec.getLsbD_append]
  interval_cases i <;> simp

theorem wordI1_op (op : BitVec 5) (d : BitVec 3) (k : BitVec 8) :
    field (wordI1 op d k) 11 5 = op := by
  ext i hi
  have : i < 5 := hi
  simp only [field, wordI1, BitVec.getElem_extractLsb', BitVec.getLsbD_append]
  interval_cases i <;> simp

theorem wordI1_d (op : BitVec 5) (d : BitVec 3) (k : BitVec 8) :
    field (wordI1 op d k) 8 3 = d := by
  ext i hi
  have : i < 3 := hi
  simp only [field, wordI1, BitVec.getElem_extractLsb', BitVec.getLsbD_append]
  interval_cases i <;> simp

theorem wordI1_k (op : BitVec 5) (d : BitVec 3) (k : BitVec 8) :
    field (wordI1 op d k) 0 8 = k := by
  ext i hi
  have : i < 8 := hi
  simp only [field, wordI1, BitVec.getElem_extractLsb', BitVec.getLsbD_append]
  interval_cases i <;> simp

theorem wordJ_a (op : BitVec 5) (a : BitVec 9) :
    field (wordJ op a) 0 9 = a := by
  ext i hi
  have : i < 9 := hi
  simp only [field, wordJ, BitVec.getElem_extractLsb', BitVec.getLsbD_append]
  interval_cases i <;> simp

/-- The low three opcode bits of a J word. -/
theorem wordJ_row (op : BitVec 5) (a : BitVec 9) :
    field (wordJ op a) 9 3 = op.extractLsb' 0 3 := by
  ext i hi
  have : i < 3 := hi
  simp only [field, wordJ, BitVec.getElem_extractLsb', BitVec.getLsbD_append]
  interval_cases i <;> simp

/-- The top five bits of a J word are `00` and the three high opcode bits. -/
theorem wordJ_top (op : BitVec 5) (a : BitVec 9) :
    field (wordJ op a) 11 5 = (0#2 ++ op.extractLsb' 2 3 : BitVec 5) := by
  apply BitVec.eq_of_getLsbD_eq
  intro i hi
  have : i < 5 := hi
  simp only [field, wordJ, BitVec.getLsbD_extractLsb', BitVec.getLsbD_append]
  interval_cases i <;> simp

theorem wordR2_op (op : BitVec 5) (d s : BitVec 3) :
    field (wordR2 op d s) 0 5 = op := by
  ext i hi
  have : i < 5 := hi
  simp only [field, wordR2, BitVec.getElem_extractLsb', BitVec.getLsbD_append]
  interval_cases i <;> simp

theorem wordR2_d (op : BitVec 5) (d s : BitVec 3) :
    field (wordR2 op d s) 8 3 = d := by
  ext i hi
  have : i < 3 := hi
  simp only [field, wordR2, BitVec.getElem_extractLsb', BitVec.getLsbD_append]
  interval_cases i <;> simp

theorem wordR2_s (op : BitVec 5) (d s : BitVec 3) :
    field (wordR2 op d s) 5 3 = s := by
  ext i hi
  have : i < 3 := hi
  simp only [field, wordR2, BitVec.getElem_extractLsb', BitVec.getLsbD_append]
  interval_cases i <;> simp

theorem wordR2_top (op : BitVec 5) (d s : BitVec 3) :
    field (wordR2 op d s) 11 5 = 0#5 := by
  ext i hi
  have : i < 5 := hi
  simp only [field, wordR2, BitVec.getElem_extractLsb', BitVec.getLsbD_append]
  interval_cases i <;> simp

theorem wordR3_d (lay : R3Layout) (hi : BitVec 3) (lo : BitVec 2) (d s n : BitVec 3) :
    field (wordR3 lay hi lo d s n) 8 3 = d := by
  cases lay <;>
  · ext i hi
    have : i < 3 := hi
    simp only [field, wordR3, BitVec.getElem_extractLsb', BitVec.getLsbD_append]
    interval_cases i <;> simp

theorem wordR3_s (lay : R3Layout) (hi : BitVec 3) (lo : BitVec 2) (d s n : BitVec 3) :
    field (wordR3 lay hi lo d s n) 5 3 = s := by
  cases lay <;>
  · ext i hi
    have : i < 3 := hi
    simp only [field, wordR3, BitVec.getElem_extractLsb', BitVec.getLsbD_append]
    interval_cases i <;> simp

theorem wordR3_hi (lay : R3Layout) (hi : BitVec 3) (lo : BitVec 2) (d s n : BitVec 3) :
    field (wordR3 lay hi lo d s n) 11 3 = hi := by
  cases lay <;>
  · ext i hi
    have : i < 3 := hi
    simp only [field, wordR3, BitVec.getElem_extractLsb', BitVec.getLsbD_append]
    interval_cases i <;> simp

/-- The top five bits of an R3 word are `00` and the high opcode bits. -/
theorem wordR3_top (lay : R3Layout) (hi : BitVec 3) (lo : BitVec 2) (d s n : BitVec 3) :
    field (wordR3 lay hi lo d s n) 11 5 = (0#2 ++ hi : BitVec 5) := by
  cases lay <;>
  · apply BitVec.eq_of_getLsbD_eq
    intro i hi
    have : i < 5 := hi
    simp only [field, wordR3, BitVec.getLsbD_extractLsb', BitVec.getLsbD_append]
    interval_cases i <;> simp

theorem wordR3_lo (lay : R3Layout) (hi : BitVec 3) (lo : BitVec 2) (d s n : BitVec 3) :
    r3LowOp lay (wordR3 lay hi lo d s n) = lo := by
  cases lay <;>
  · ext i hi
    have : i < 2 := hi
    simp only [field, r3LowOp, wordR3, BitVec.getElem_extractLsb', BitVec.getLsbD_append]
    interval_cases i <;> simp

theorem wordR3_rn (lay : R3Layout) (hi : BitVec 3) (lo : BitVec 2) (d s n : BitVec 3) :
    r3Rn lay (wordR3 lay hi lo d s n) = Reg.ofBits n := by
  cases lay <;>
  · refine congrArg Reg.ofBits ?_
    ext i hi
    have : i < 3 := hi
    simp only [field, wordR3, BitVec.getElem_extractLsb', BitVec.getLsbD_append]
    interval_cases i <;> simp

/-! ### Words as numbers -/

theorem append_toNat {n m : Nat} (a : BitVec n) (b : BitVec m) : (a ++ b).toNat = a.toNat * 2 ^ m + b.toNat := by
  rw [BitVec.toNat_append, ← Nat.shiftLeft_add_eq_or_of_lt b.isLt, Nat.shiftLeft_eq]

theorem wordP_toNat (op : BitVec 5) (a : BitVec 11) : (wordP op a).toNat = op.toNat * 2048 + a.toNat :=
  append_toNat op a

theorem wordI2_toNat (op : BitVec 5) (d s : BitVec 3) (k : BitVec 5) :
    (wordI2 op d s k).toNat = op.toNat * 2048 + d.toNat * 256 + s.toNat * 32 + k.toNat := by
  have h := append_toNat (op ++ d ++ s) k
  rw [append_toNat (op ++ d) s, append_toNat op d] at h
  refine Eq.trans h ?_
  omega

theorem wordI1_toNat (op : BitVec 5) (d : BitVec 3) (k : BitVec 8) :
    (wordI1 op d k).toNat = op.toNat * 2048 + d.toNat * 256 + k.toNat := by
  have h := append_toNat (op ++ d) k
  rw [append_toNat op d] at h
  refine Eq.trans h ?_
  omega

theorem wordJ_toNat (op : BitVec 5) (a : BitVec 9) : (wordJ op a).toNat = op.toNat * 512 + a.toNat := by
  have h := append_toNat (0#2 ++ op) a
  rw [append_toNat 0#2 op] at h
  refine Eq.trans h ?_
  simp

theorem wordR2_toNat (op : BitVec 5) (d s : BitVec 3) :
    (wordR2 op d s).toNat = d.toNat * 256 + s.toNat * 32 + op.toNat := by
  have h := append_toNat (0#5 ++ d ++ s) op
  rw [append_toNat (0#5 ++ d) s, append_toNat 0#5 d] at h
  refine Eq.trans h ?_
  simp
  omega

theorem wordR3_toNat (hi : BitVec 3) (lo : BitVec 2) (d s n : BitVec 3) :
    (wordR3 .rn42 hi lo d s n).toNat =
      hi.toNat * 2048 + d.toNat * 256 + s.toNat * 32 + n.toNat * 4 + lo.toNat := by
  have h := append_toNat (0#2 ++ hi ++ d ++ s ++ n) lo
  rw [append_toNat (0#2 ++ hi ++ d ++ s) n, append_toNat (0#2 ++ hi ++ d) s, append_toNat (0#2 ++ hi) d,
    append_toNat 0#2 hi] at h
  refine Eq.trans h ?_
  simp
  omega

end Sys2Proof
end

