-- ==== Sys2Proof/Laws/Memory.lean ====
section
/-! SUPPORT. Reading after writing, and that every memory operation keeps the canonical form. -/

namespace Sys2Proof.Machine

variable {α : Type}

/-- Reading after a write: the value written at that address, the old content elsewhere. -/
theorem Memory.get_set (m : Memory α) (a b : Nat) (v : α) :
    Memory.get (Memory.set m a v) b = if a = b then some v else Memory.get m b := by
  induction m with
  | nil => simp [Memory.set, Memory.get]
  | cons e rest ih =>
    obtain ⟨c, w⟩ := e
    by_cases hlt : a < c
    · simp [Memory.set, Memory.get, hlt]
    · by_cases hca : c = a
      · subst hca
        simp only [Memory.set, Memory.get, Nat.lt_irrefl, if_false, if_true]
        split <;> rfl
      · simp only [Memory.set, hlt, hca, if_false, Memory.get, ih]
        by_cases hcb : c = b
        · subst hcb
          simp [Ne.symm hca]
        · simp [hcb]

@[simp] theorem Memory.get_set_same (m : Memory α) (a : Nat) (v : α) :
    Memory.get (Memory.set m a v) a = some v := by
  simp [Memory.get_set]

theorem Memory.get_set_of_ne (m : Memory α) {a b : Nat} (v : α) (h : a ≠ b) :
    Memory.get (Memory.set m a v) b = Memory.get m b := by
  simp [Memory.get_set, h]

/-- A canonical form from a bound is one from every lower bound. -/
theorem Memory.wfFrom_mono {m : Memory α} {lo lo' : Nat} (h : Memory.wfFrom lo m = true) (hl : lo' ≤ lo) :
    Memory.wfFrom lo' m = true := by
  cases m with
  | nil => rfl
  | cons e rest =>
    simp only [Memory.wfFrom, Bool.and_eq_true, decide_eq_true_eq] at h ⊢
    exact ⟨⟨hl.trans h.1.1, h.1.2⟩, h.2⟩

theorem Memory.wfFrom_set {m : Memory α} {lo a : Nat} (v : α) (h : Memory.wfFrom lo m = true) (hlo : lo ≤ a)
    (ha : a < 65536) : Memory.wfFrom lo (Memory.set m a v) = true := by
  induction m generalizing lo with
  | nil => simp [Memory.set, Memory.wfFrom, hlo, ha]
  | cons e rest ih =>
    obtain ⟨c, w⟩ := e
    simp only [Memory.wfFrom, Bool.and_eq_true, decide_eq_true_eq] at h
    by_cases hlt : a < c
    · simp [Memory.set, hlt, Memory.wfFrom, hlo, ha, h.1.2, h.2, Nat.succ_le_of_lt hlt]
    · by_cases hca : c = a
      · subst hca
        simp [Memory.set, Memory.wfFrom, h.1.1, h.1.2, h.2]
      · have hgt : c + 1 ≤ a := by omega
        simp [Memory.set, hlt, hca, Memory.wfFrom, h.1.1, h.1.2, ih h.2 hgt]

/-- A write at an address of the space keeps the canonical form. -/
theorem Memory.wf_set {m : Memory α} {a : Nat} (v : α) (h : Memory.wf m = true) (ha : a < 65536) :
    Memory.wf (Memory.set m a v) = true :=
  Memory.wfFrom_set v h (Nat.zero_le a) ha

/-- An address the host does not load reads as before. -/
theorem Memory.get_setAll_of_ne (l : List (Word × α)) (m : Memory α) {a : Word} (h : ∀ e ∈ l, e.1 ≠ a) :
    Memory.get (Memory.setAll m l) a.toNat = Memory.get m a.toNat := by
  induction l generalizing m with
  | nil => rfl
  | cons e rest ih =>
    rw [Memory.setAll, ih _ fun x hx => h x (List.mem_cons_of_mem _ hx), Memory.get_set_of_ne]
    exact fun he => h e List.mem_cons_self (BitVec.eq_of_toNat_eq he)

/-- Loads one after the other. -/
theorem Memory.setAll_append (l l' : List (Word × α)) (m : Memory α) :
    Memory.setAll m (l ++ l') = Memory.setAll (Memory.setAll m l) l' := by
  induction l generalizing m with
  | nil => rfl
  | cons e rest ih => exact ih _

/-- What the host loads keeps the canonical form. -/
theorem Memory.wf_setAll (l : List (Word × α)) {m : Memory α} (h : Memory.wf m = true) :
    Memory.wf (Memory.setAll m l) = true := by
  induction l generalizing m with
  | nil => exact h
  | cons e rest ih => exact ih (Memory.wf_set e.2 h e.1.isLt)

/-- Below the bound its addresses rise from, a canonical memory lists nothing. -/
theorem Memory.get_eq_none_of_lt {m : Memory α} {lo a : Nat} (h : Memory.wfFrom lo m = true) (ha : a < lo) :
    Memory.get m a = none := by
  induction m generalizing lo with
  | nil => rfl
  | cons e rest ih =>
    obtain ⟨c, w⟩ := e
    simp only [Memory.wfFrom, Bool.and_eq_true, decide_eq_true_eq] at h
    have hne : c ≠ a := by omega
    simp only [Memory.get, hne, if_false]
    exact ih h.2 (by omega)

/-- Equal contents are equal data: canonical memories that read alike everywhere are one list. -/
theorem Memory.eq_of_get_eq {m n : Memory α} {lo : Nat} (hm : Memory.wfFrom lo m = true)
    (hn : Memory.wfFrom lo n = true) (h : ∀ a, Memory.get m a = Memory.get n a) : m = n := by
  induction m generalizing n lo with
  | nil =>
    cases n with
    | nil => rfl
    | cons e rest => simpa [Memory.get] using h e.1
  | cons e rest ih =>
    obtain ⟨c, w⟩ := e
    cases n with
    | nil => simpa [Memory.get] using h c
    | cons e' rest' =>
      obtain ⟨c', w'⟩ := e'
      simp only [Memory.wfFrom, Bool.and_eq_true, decide_eq_true_eq] at hm hn
      have hcc : c = c' := by
        rcases Nat.lt_trichotomy c c' with hlt | heq | hgt
        · have := h c
          have hne : c' ≠ c := by omega
          rw [Memory.get, if_pos rfl, Memory.get, if_neg hne,
            Memory.get_eq_none_of_lt hn.2 (by omega)] at this
          cases this
        · exact heq
        · have := h c'
          have hne : c ≠ c' := by omega
          rw [Memory.get, if_neg hne, Memory.get, if_pos rfl,
            Memory.get_eq_none_of_lt hm.2 (by omega)] at this
          cases this
      subst hcc
      have hw : w = w' := by simpa [Memory.get] using h c
      subst hw
      rw [ih hm.2 hn.2 fun a => ?_]
      by_cases hca : c = a
      · subst hca
        rw [Memory.get_eq_none_of_lt hm.2 (by omega), Memory.get_eq_none_of_lt hn.2 (by omega)]
      · simpa [Memory.get, hca] using h a

end Sys2Proof.Machine
end

