-- ==== Sys2Proof/Laws/State.lean ====
section
/-! SUPPORT. The small lemmas of the state: what each named update leaves in each field. -/

namespace Sys2Proof.Machine

/-! ### Registers -/

theorem Regs.get_set (g : Regs) (d r : Reg) (v : Word) :
    (g.set d v).get r = if r = d then v else g.get r := by
  cases d <;> cases r <;> rfl

@[simp] theorem Regs.get_set_same (g : Regs) (d : Reg) (v : Word) : (g.set d v).get d = v := by
  cases d <;> rfl

theorem Regs.get_set_of_ne (g : Regs) {d r : Reg} (v : Word) (h : r ≠ d) : (g.set d v).get r = g.get r := by
  rw [Regs.get_set, if_neg h]

/-- Writing back the value a register holds changes nothing. -/
@[simp] theorem Regs.set_get (g : Regs) (r : Reg) : g.set r (g.get r) = g := by
  cases r <;> rfl

theorem State.reg_eq (s : State) (r : Reg) : s.reg r = s.regs.get r := rfl

/-! ### `setReg` -/

@[simp] theorem State.setReg_regs (s : State) (r : Reg) (v : Word) : (s.setReg r v).regs = s.regs.set r v := rfl
@[simp] theorem State.setReg_sp (s : State) (r : Reg) (v : Word) : (s.setReg r v).sp = s.sp := rfl
@[simp] theorem State.setReg_pc (s : State) (r : Reg) (v : Word) : (s.setReg r v).pc = s.pc := rfl
@[simp] theorem State.setReg_sr (s : State) (r : Reg) (v : Word) : (s.setReg r v).sr = s.sr := rfl
@[simp] theorem State.setReg_pfx (s : State) (r : Reg) (v : Word) : (s.setReg r v).pfx = s.pfx := rfl
@[simp] theorem State.setReg_halted (s : State) (r : Reg) (v : Word) : (s.setReg r v).halted = s.halted := rfl
@[simp] theorem State.setReg_irq (s : State) (r : Reg) (v : Word) : (s.setReg r v).irq = s.irq := rfl
@[simp] theorem State.setReg_data (s : State) (r : Reg) (v : Word) : (s.setReg r v).data = s.data := rfl
@[simp] theorem State.setReg_prog (s : State) (r : Reg) (v : Word) : (s.setReg r v).prog = s.prog := rfl
@[simp] theorem State.setReg_loaded (s : State) (r : Reg) (v : Word) : (s.setReg r v).loaded = s.loaded := rfl
@[simp] theorem State.setReg_cfg (s : State) (r : Reg) (v : Word) : (s.setReg r v).cfg = s.cfg := rfl
@[simp] theorem State.setReg_draws (s : State) (r : Reg) (v : Word) : (s.setReg r v).draws = s.draws := rfl

/-! ### `advance` -/

@[simp] theorem instrSize_eq (u : ProgUnit) : instrSize u = 1 := by
  cases u
  rfl

@[simp] theorem State.nextPc_eq (s : State) : s.nextPc = s.pc + 1 := by
  simp [State.nextPc]

@[simp] theorem State.advance_regs (s : State) : s.advance.regs = s.regs := rfl
@[simp] theorem State.advance_sp (s : State) : s.advance.sp = s.sp := rfl
@[simp] theorem State.advance_pc (s : State) : s.advance.pc = s.pc + 1 := rfl
@[simp] theorem State.advance_sr (s : State) : s.advance.sr = s.sr := rfl
@[simp] theorem State.advance_pfx (s : State) : s.advance.pfx = none := rfl
@[simp] theorem State.advance_halted (s : State) : s.advance.halted = s.halted := rfl
@[simp] theorem State.advance_irq (s : State) : s.advance.irq = s.irq := rfl
@[simp] theorem State.advance_data (s : State) : s.advance.data = s.data := rfl
@[simp] theorem State.advance_prog (s : State) : s.advance.prog = s.prog := rfl
@[simp] theorem State.advance_loaded (s : State) : s.advance.loaded = s.loaded := rfl
@[simp] theorem State.advance_cfg (s : State) : s.advance.cfg = s.cfg := rfl
@[simp] theorem State.advance_draws (s : State) : s.advance.draws = s.draws := rfl

/-! ### `jumpTo` -/

@[simp] theorem State.jumpTo_regs (s : State) (a : Word) : (s.jumpTo a).regs = s.regs := rfl
@[simp] theorem State.jumpTo_sp (s : State) (a : Word) : (s.jumpTo a).sp = s.sp := rfl
@[simp] theorem State.jumpTo_pc (s : State) (a : Word) : (s.jumpTo a).pc = a := rfl
@[simp] theorem State.jumpTo_sr (s : State) (a : Word) : (s.jumpTo a).sr = s.sr := rfl
@[simp] theorem State.jumpTo_pfx (s : State) (a : Word) : (s.jumpTo a).pfx = none := rfl
@[simp] theorem State.jumpTo_halted (s : State) (a : Word) : (s.jumpTo a).halted = s.halted := rfl
@[simp] theorem State.jumpTo_irq (s : State) (a : Word) : (s.jumpTo a).irq = s.irq := rfl
@[simp] theorem State.jumpTo_data (s : State) (a : Word) : (s.jumpTo a).data = s.data := rfl
@[simp] theorem State.jumpTo_prog (s : State) (a : Word) : (s.jumpTo a).prog = s.prog := rfl
@[simp] theorem State.jumpTo_loaded (s : State) (a : Word) : (s.jumpTo a).loaded = s.loaded := rfl
@[simp] theorem State.jumpTo_cfg (s : State) (a : Word) : (s.jumpTo a).cfg = s.cfg := rfl
@[simp] theorem State.jumpTo_draws (s : State) (a : Word) : (s.jumpTo a).draws = s.draws := rfl

/-! ### `storeBytes` -/

@[simp] theorem storeBytes_regs (s : State) (a : Word) (x y : Byte) : (storeBytes s a x y).regs = s.regs := rfl
@[simp] theorem storeBytes_sp (s : State) (a : Word) (x y : Byte) : (storeBytes s a x y).sp = s.sp := rfl
@[simp] theorem storeBytes_pc (s : State) (a : Word) (x y : Byte) : (storeBytes s a x y).pc = s.pc := rfl
@[simp] theorem storeBytes_sr (s : State) (a : Word) (x y : Byte) : (storeBytes s a x y).sr = s.sr := rfl
@[simp] theorem storeBytes_pfx (s : State) (a : Word) (x y : Byte) : (storeBytes s a x y).pfx = s.pfx := rfl
@[simp] theorem storeBytes_halted (s : State) (a : Word) (x y : Byte) : (storeBytes s a x y).halted = s.halted := rfl
@[simp] theorem storeBytes_irq (s : State) (a : Word) (x y : Byte) : (storeBytes s a x y).irq = s.irq := rfl
@[simp] theorem storeBytes_prog (s : State) (a : Word) (x y : Byte) : (storeBytes s a x y).prog = s.prog := rfl
@[simp] theorem storeBytes_loaded (s : State) (a : Word) (x y : Byte) : (storeBytes s a x y).loaded = s.loaded := rfl
@[simp] theorem storeBytes_cfg (s : State) (a : Word) (x y : Byte) : (storeBytes s a x y).cfg = s.cfg := rfl
@[simp] theorem storeBytes_draws (s : State) (a : Word) (x y : Byte) : (storeBytes s a x y).draws = s.draws := rfl

/-! ### `drawn` and `logicDrawn` -/

@[simp] theorem State.drawn_regs (s : State) : s.drawn.regs = s.regs := rfl
@[simp] theorem State.drawn_sp (s : State) : s.drawn.sp = s.sp := rfl
@[simp] theorem State.drawn_pc (s : State) : s.drawn.pc = s.pc := rfl
@[simp] theorem State.drawn_sr (s : State) : s.drawn.sr = s.sr := rfl
@[simp] theorem State.drawn_pfx (s : State) : s.drawn.pfx = s.pfx := rfl
@[simp] theorem State.drawn_halted (s : State) : s.drawn.halted = s.halted := rfl
@[simp] theorem State.drawn_irq (s : State) : s.drawn.irq = s.irq := rfl
@[simp] theorem State.drawn_data (s : State) : s.drawn.data = s.data := rfl
@[simp] theorem State.drawn_prog (s : State) : s.drawn.prog = s.prog := rfl
@[simp] theorem State.drawn_loaded (s : State) : s.drawn.loaded = s.loaded := rfl
@[simp] theorem State.drawn_cfg (s : State) : s.drawn.cfg = s.cfg := rfl
@[simp] theorem State.drawn_draws (s : State) : s.drawn.draws = s.draws + 1 := rfl

@[simp] theorem logicDrawn_regs (s : State) : (logicDrawn s).regs = s.regs := by unfold logicDrawn; split <;> rfl
@[simp] theorem logicDrawn_sp (s : State) : (logicDrawn s).sp = s.sp := by unfold logicDrawn; split <;> rfl
@[simp] theorem logicDrawn_pc (s : State) : (logicDrawn s).pc = s.pc := by unfold logicDrawn; split <;> rfl
@[simp] theorem logicDrawn_sr (s : State) : (logicDrawn s).sr = s.sr := by unfold logicDrawn; split <;> rfl
@[simp] theorem logicDrawn_pfx (s : State) : (logicDrawn s).pfx = s.pfx := by unfold logicDrawn; split <;> rfl
@[simp] theorem logicDrawn_halted (s : State) : (logicDrawn s).halted = s.halted := by unfold logicDrawn; split <;> rfl
@[simp] theorem logicDrawn_irq (s : State) : (logicDrawn s).irq = s.irq := by unfold logicDrawn; split <;> rfl
@[simp] theorem logicDrawn_data (s : State) : (logicDrawn s).data = s.data := by unfold logicDrawn; split <;> rfl
@[simp] theorem logicDrawn_prog (s : State) : (logicDrawn s).prog = s.prog := by unfold logicDrawn; split <;> rfl
@[simp] theorem logicDrawn_loaded (s : State) : (logicDrawn s).loaded = s.loaded := by unfold logicDrawn; split <;> rfl
@[simp] theorem logicDrawn_cfg (s : State) : (logicDrawn s).cfg = s.cfg := by unfold logicDrawn; split <;> rfl

/-! ### The ends of ALU, logical and compare instructions -/

/-- What the end of an ALU instruction is, in one record. -/
theorem finishAlu_eq (s : State) (rd : Reg) (r : Word × Bool) (zin : Bool) :
    finishAlu s rd r zin =
      { s with
        regs := s.regs.set rd r.1
        sr := { s.sr with t := zin && (r.1 == 0#16), c := r.2, z := zin && (r.1 == 0#16) }
        pc := s.pc + 1
        pfx := none } := rfl

/-- What the end of a compare is, in one record. -/
theorem finishCompare_eq (s : State) (cc : Cond) (a b : Word) (cin zin : Bool) :
    finishCompare s cc a b cin zin =
      { s with sr := compareFlags s.sr cc a b cin zin, pc := s.pc + 1, pfx := none } := rfl

/-- What the end of a logical instruction is, in one record. -/
theorem finishLogic_eq (s : State) (rd : Reg) (v : Word) :
    finishLogic s rd v =
      { logicDrawn s with
        regs := s.regs.set rd v
        sr := { s.sr with t := v == 0#16, c := logicCarry s, z := v == 0#16 }
        pc := s.pc + 1
        pfx := none } := by
  simp [finishLogic, finishAlu_eq]

@[simp] theorem compareFlags_i (f : SR) (cc : Cond) (a b : Word) (cin zin : Bool) :
    (compareFlags f cc a b cin zin).i = f.i := rfl

end Sys2Proof.Machine
end

