-- ==== Sys2Proof/Laws/Ops.lean ====
section
/-! SUPPORT. One lemma for each shared operation, which says once everything it can do. -/

namespace Sys2Proof.Machine

/-! ### Outcomes -/

theorem settle_next {r : Except Fault State} {t : State} : settle r = .next t ↔ r = .ok t := by
  cases r <;> simp [settle]

theorem settle_fault {r : Except Fault State} {f : Fault} : settle r = .fault f ↔ r = .error f := by
  cases r <;> simp [settle]

theorem settle_ne_refused (r : Except Fault State) (e : Refusal) : settle r ≠ .refused e := by
  cases r <;> simp [settle]

/-- A mapped result is an answer exactly when the operation answers. -/
theorem map_ok {α β : Type} {r : Except Fault α} {f : α → β} {b : β} :
    r.map f = .ok b ↔ ∃ a, r = .ok a ∧ b = f a := by
  cases r <;> simp [Except.map, eq_comm]

/-- A chain of operations answers exactly when each of them does. -/
theorem bind_ok {α β : Type} {r : Except Fault α} {k : α → Except Fault β} {b : β} :
    (r >>= k) = .ok b ↔ ∃ a, r = .ok a ∧ k a = .ok b := by
  cases r <;> simp [bind, Except.bind]

/-- The last answer of a chain. -/
theorem pure_ok {α : Type} {a b : α} : (pure a : Except Fault α) = .ok b ↔ b = a := by
  simp [pure, Except.pure, eq_comm]

/-- The prefix check lets the instruction through exactly when no prefix is pending. -/
theorem unprefixed_next {s t : State} {r : Result} :
    unprefixed s r = .next t ↔ s.pfx = none ∧ r = .next t := by
  unfold unprefixed
  cases h : s.pfx <;> simp

@[simp] theorem unprefixed_of_none {s : State} (r : Result) (h : s.pfx = none) : unprefixed s r = r := by
  simp [unprefixed, h]

theorem unprefixed_of_pending {s : State} (r : Result) (h : s.pfx ≠ none) :
    unprefixed s r = .fault (.prefixMisuse s.instrWord) := by
  unfold unprefixed
  cases h' : s.pfx with
  | none => exact absurd h' h
  | some p => rfl

theorem reserved_ne_next (s t : State) : reserved s ≠ .next t := by
  unfold reserved
  split <;> simp

theorem reserved_of_fault {s : State} (h : s.cfg.reservedOp = .fault) :
    reserved s = .fault (.reservedInstruction s.instrWord) := by
  simp [reserved, h]

theorem reserved_of_refuse {s : State} (h : s.cfg.reservedOp = .refuse) :
    reserved s = .refused (.reservedInstruction s.instrWord) := by
  simp [reserved, h]

/-! ### Program memory -/

theorem progRead_ok {s : State} {a w : Word} {f : Fault} :
    progRead s a f = .ok w ↔ populated s.cfg.progMap a.toNat = true ∧ Memory.get s.prog a.toNat = some w := by
  unfold progRead
  cases populated s.cfg.progMap a.toNat <;> cases Memory.get s.prog a.toNat <;> simp

theorem fetch_ok {s : State} {w : Word} :
    fetch s = .ok w ↔ populated s.cfg.progMap s.pc.toNat = true ∧ Memory.get s.prog s.pc.toNat = some w :=
  progRead_ok

/-! ### Data memory -/

theorem readByte_ok {s : State} {a : Word} {b : Byte} :
    readByte s a = .ok b ↔ populated s.cfg.dataMap a.toNat = true ∧ Memory.get s.data a.toNat = some b := by
  unfold readByte
  cases populated s.cfg.dataMap a.toNat <;> cases Memory.get s.data a.toNat <;> simp

/-- An address a word access goes on from is even, and is the effective address with bit 0 clear. -/
theorem wordAddress_ok {c : Config} {ea a : Word} :
    wordAddress c ea = .ok a ↔
      a = ea &&& 0xFFFE#16 ∧ (ea.getLsbD 0 = false ∨ c.misalignedWord = .clearBit0) := by
  unfold wordAddress
  cases hb : ea.getLsbD 0 with
  | true =>
    cases hc : c.misalignedWord <;> simp [eq_comm]
  | false =>
    have hand : ea &&& 0xFFFE#16 = ea := by
      ext i hi
      rcases Nat.eq_zero_or_pos i with h0 | h0
      · subst h0
        simpa using hb
      · have : (0xFFFE#16).getLsbD i = true := by
          have h16 : i < 16 := hi
          revert h0
          interval_cases i <;> simp
        simp only [BitVec.getElem_and]
        rw [show (0xFFFE#16)[i] = true from this]
        simp
    simp [hand, eq_comm]

/-- An even address is its own word address. -/
theorem wordAddress_of_even {c : Config} {ea : Word} (h : ea.getLsbD 0 = false) : wordAddress c ea = .ok ea := by
  rw [wordAddress, h]
  rfl

/-- Clearing bit 0 of an even address changes nothing. -/
theorem and_mask_of_even {ea : Word} (h : ea.getLsbD 0 = false) : ea &&& 0xFFFE#16 = ea := by
  have := (wordAddress_ok (c := Config.default)).1 (wordAddress_of_even h)
  exact this.1.symm

theorem wordMapped_ok {s : State} {a : Word} {u : Unit} :
    wordMapped s a = .ok u ↔
      populated s.cfg.dataMap a.toNat = true ∧ populated s.cfg.dataMap (a + 1).toNat = true := by
  unfold wordMapped
  cases populated s.cfg.dataMap a.toNat <;> cases populated s.cfg.dataMap (a + 1).toNat <;> simp

theorem readWord_ok {s : State} {ea v : Word} :
    readWord s ea = .ok v ↔
      ∃ a b0 b1, wordAddress s.cfg ea = .ok a ∧ wordMapped s a = .ok () ∧ readByte s a = .ok b0 ∧
        readByte s (a + 1) = .ok b1 ∧ v = joinBytes s.cfg.byteOrder b0 b1 := by
  unfold readWord
  simp only [bind_ok, pure_ok]
  constructor
  · rintro ⟨a, h1, u, h2, b0, h3, b1, h4, h5⟩
    exact ⟨a, b0, b1, h1, h2, h3, h4, h5⟩
  · rintro ⟨a, b0, b1, h1, h2, h3, h4, h5⟩
    exact ⟨a, h1, (), h2, b0, h3, b1, h4, h5⟩

theorem writeByte_ok {s t : State} {a : Word} {b : Byte} :
    writeByte s a b = .ok t ↔
      populated s.cfg.dataMap a.toNat = true ∧ t = { s with data := Memory.set s.data a.toNat b } := by
  unfold writeByte
  cases populated s.cfg.dataMap a.toNat <;> simp [eq_comm]

theorem writeWord_ok {s t : State} {ea v : Word} :
    writeWord s ea v = .ok t ↔
      ∃ a, wordAddress s.cfg ea = .ok a ∧ wordMapped s a = .ok () ∧
        t = storeBytes s a (firstByte s.cfg.byteOrder v) (secondByte s.cfg.byteOrder v) := by
  unfold writeWord
  simp only [bind_ok, pure_ok]
  constructor
  · rintro ⟨a, h1, u, h2, h3⟩
    exact ⟨a, h1, h2, h3⟩
  · rintro ⟨a, h1, h2, h3⟩
    exact ⟨a, h1, (), h2, h3⟩

/-- What a byte of memory reads as after two bytes have been stored. -/
theorem storeBytes_get (s : State) (a : Word) (x y : Byte) (n : Nat) :
    Memory.get (storeBytes s a x y).data n =
      if (a + 1).toNat = n then some y else if a.toNat = n then some x else Memory.get s.data n := by
  simp [storeBytes, Memory.get_set]

theorem storeBytes_wf {s : State} (a : Word) (x y : Byte) (h : Memory.wf s.data = true) :
    Memory.wf (storeBytes s a x y).data = true :=
  Memory.wf_set y (Memory.wf_set x h a.isLt) (a + 1).isLt

@[simp] theorem joinBytes_split (o : ByteOrder) (v : Word) :
    joinBytes o (firstByte o v) (secondByte o v) = v := by
  cases o <;> simp only [joinBytes, firstByte, secondByte] <;>
    exact BitVec.extractLsb'_append_extractLsb'

/-! ### Stack and interrupts -/

theorem push_ok {s t : State} {v : Word} :
    push s v = .ok t ↔
      ∃ a, wordAddress s.cfg (s.sp - 2) = .ok a ∧ wordMapped s a = .ok () ∧
        t = storeBytes { s with sp := s.sp - 2 } a (firstByte s.cfg.byteOrder v) (secondByte s.cfg.byteOrder v) :=
  writeWord_ok

theorem pushAll_nil_ok {s t : State} : pushAll s [] = .ok t ↔ t = s := by
  simp [pushAll, eq_comm]

theorem pushAll_cons_ok {s t : State} {v : Word} {vs : List Word} :
    pushAll s (v :: vs) = .ok t ↔ ∃ s1, push s v = .ok s1 ∧ pushAll s1 vs = .ok t :=
  bind_ok

theorem push_wf {s t : State} {v : Word} (h : push s v = .ok t) (hm : Memory.wf s.data = true) :
    Memory.wf t.data = true := by
  obtain ⟨a, -, -, rfl⟩ := push_ok.1 h
  exact storeBytes_wf a _ _ hm

/-- What pushes change: SP, by two for each word, and data memory. -/
theorem pushAll_frame {s t : State} {vs : List Word} (h : pushAll s vs = .ok t) :
    t = { s with sp := s.sp - BitVec.ofNat 16 (2 * vs.length), data := t.data } := by
  induction vs generalizing s with
  | nil =>
    obtain rfl := pushAll_nil_ok.1 h
    simp
  | cons v vs ih =>
    obtain ⟨s1, h1, h2⟩ := pushAll_cons_ok.1 h
    obtain ⟨a, -, -, rfl⟩ := push_ok.1 h1
    have hsp : s.sp - 2#16 - BitVec.ofNat 16 (2 * vs.length) = s.sp - BitVec.ofNat 16 (2 * (vs.length + 1)) := by
      rw [Nat.mul_add, BitVec.ofNat_add, BitVec.sub_sub, BitVec.add_comm, Nat.mul_one]
    rw [ih h2]
    simp [storeBytes, hsp]

theorem pushAll_wf {s t : State} {vs : List Word} (h : pushAll s vs = .ok t) (hm : Memory.wf s.data = true) :
    Memory.wf t.data = true := by
  induction vs generalizing s with
  | nil => exact pushAll_nil_ok.1 h ▸ hm
  | cons v vs ih =>
    obtain ⟨s1, h1, h2⟩ := pushAll_cons_ok.1 h
    exact ih h2 (push_wf h1 hm)

theorem enterInterrupt_ok {s t : State} {vector : Word} :
    enterInterrupt s vector = .ok t ↔
      ∃ u, pushAll s (s.cfg.irqFrame.words.map (savedWord s)) = .ok u ∧
        t = { u with sr := { u.sr with i := false }, pc := vector } := by
  unfold enterInterrupt
  simp only [bind_ok, pure_ok]

/-- What an entry changes, whatever the frame: SP, data memory, I and PC. -/
theorem enterInterrupt_frame {s t : State} {vector : Word} (h : enterInterrupt s vector = .ok t) :
    t = { s with
      sp := s.sp - frameBytes s.cfg, data := t.data, sr := { s.sr with i := false }, pc := vector } := by
  obtain ⟨u, h1, rfl⟩ := enterInterrupt_ok.1 h
  have h2 := pushAll_frame h1
  rw [List.length_map] at h2
  rw [h2]
  rfl

/-- The entry with the default frame: PC, and on top of it the SR image. -/
theorem enterInterrupt_default {s t : State} {vector : Word} (hf : s.cfg.irqFrame = IrqFrame.default) :
    enterInterrupt s vector = .ok t ↔
      ∃ s1 s2, push s s.pc = .ok s1 ∧ push s1 (srImage {} s.sr) = .ok s2 ∧
        t = { s2 with sr := { s2.sr with i := false }, pc := vector } := by
  simp only [enterInterrupt_ok, hf, IrqFrame.default, List.map, savedWord, pushAll_cons_ok, pushAll_nil_ok]
  constructor
  · rintro ⟨u, ⟨s1, h1, s2, h2, rfl⟩, rfl⟩
    exact ⟨s1, _, h1, h2, rfl⟩
  · rintro ⟨s1, s2, h1, h2, rfl⟩
    exact ⟨_, ⟨s1, h1, _, h2, rfl⟩, rfl⟩

theorem readFrame_nil_ok {s : State} {a : Word} {vs : List (FrameWord × Word)} :
    readFrame s [] a = .ok vs ↔ vs = [] := by
  simp [readFrame, eq_comm]

theorem readFrame_cons_ok {s : State} {x : FrameWord} {xs : List FrameWord} {a : Word}
    {vs : List (FrameWord × Word)} :
    readFrame s (x :: xs) a = .ok vs ↔
      ∃ v rest, readWord s a = .ok v ∧ readFrame s xs (a + 2) = .ok rest ∧ vs = (x, v) :: rest := by
  simp only [readFrame, bind_ok, pure_ok]
  constructor
  · rintro ⟨v, h1, rest, h2, h3⟩
    exact ⟨v, rest, h1, h2, h3⟩
  · rintro ⟨v, rest, h1, h2, h3⟩
    exact ⟨v, h1, rest, h2, h3⟩

/-- The words read are those of the frame. -/
theorem readFrame_words {s : State} {xs : List FrameWord} {a : Word} {vs : List (FrameWord × Word)}
    (h : readFrame s xs a = .ok vs) : vs.map Prod.fst = xs := by
  induction xs generalizing a vs with
  | nil => obtain rfl := readFrame_nil_ok.1 h; rfl
  | cons x xs ih =>
    obtain ⟨v, rest, -, h2, rfl⟩ := readFrame_cons_ok.1 h
    simp [ih h2]

/-- What the words popped change: PC, SR and the general registers. -/
theorem restore_frame (vs : List (FrameWord × Word)) (s : State) :
    vs.foldl restoreWord s =
      { s with
        pc := (vs.foldl restoreWord s).pc
        sr := (vs.foldl restoreWord s).sr
        regs := (vs.foldl restoreWord s).regs } := by
  induction vs generalizing s with
  | nil => rfl
  | cons p vs ih =>
    rw [List.foldl_cons, ih (restoreWord s p)]
    obtain ⟨x, v⟩ := p
    cases x <;> rfl

/-- A general register that no word of the frame saves keeps its value. -/
theorem restore_reg {vs : List (FrameWord × Word)} {r : Reg} (h : FrameWord.reg r ∉ vs.map Prod.fst) (s : State) :
    (vs.foldl restoreWord s).regs.get r = s.regs.get r := by
  induction vs generalizing s with
  | nil => rfl
  | cons p vs ih =>
    obtain ⟨x, v⟩ := p
    simp only [List.map_cons, List.mem_cons, not_or] at h
    rw [List.foldl_cons, ih h.2]
    cases x with
    | pc => rfl
    | sr => rfl
    | reg d => exact Regs.get_set_of_ne _ _ fun e => h.1 (by rw [e])

theorem returnFromInterrupt_ok {s t : State} :
    returnFromInterrupt s = .ok t ↔
      ∃ vs, readFrame s s.cfg.irqFrame.words.reverse s.sp = .ok vs ∧
        t = { vs.foldl restoreWord s.advance with sp := s.sp + frameBytes s.cfg } := by
  unfold returnFromInterrupt
  simp only [bind_ok, pure_ok]

/-- What a return changes, whatever the frame: SP, PC, SR, the general registers and the prefix latch. -/
theorem returnFromInterrupt_frame {s t : State} (h : returnFromInterrupt s = .ok t) :
    t = { s with
      sp := s.sp + frameBytes s.cfg, pc := t.pc, sr := t.sr, regs := t.regs, pfx := none } := by
  obtain ⟨vs, -, rfl⟩ := returnFromInterrupt_ok.1 h
  rw [restore_frame]
  rfl

/-- The return with the default frame: the SR image, and above it PC. -/
theorem returnFromInterrupt_default {s t : State} (hf : s.cfg.irqFrame = IrqFrame.default) :
    returnFromInterrupt s = .ok t ↔
      ∃ img target, readWord s s.sp = .ok img ∧ readWord s (s.sp + 2) = .ok target ∧
        t = { s with sp := s.sp + 4, sr := srOfImage {} img, pc := target, pfx := none } := by
  have hr : s.cfg.irqFrame.words.reverse = [.sr, .pc] := by rw [hf]; rfl
  have hb : frameBytes s.cfg = 4 := by unfold frameBytes; rw [hf]; rfl
  have hi : s.cfg.irqFrame.image = {} := by rw [hf]; rfl
  simp only [returnFromInterrupt_ok, hr, hb, readFrame_cons_ok, readFrame_nil_ok]
  constructor
  · rintro ⟨_, ⟨img, _, h1, ⟨target, _, h2, rfl, rfl⟩, rfl⟩, rfl⟩
    refine ⟨img, target, h1, h2, ?_⟩
    simp [restoreWord, State.advance, hi]
  · rintro ⟨img, target, h1, h2, rfl⟩
    refine ⟨_, ⟨img, _, h1, ⟨target, _, h2, rfl, rfl⟩, rfl⟩, ?_⟩
    simp [restoreWord, State.advance, hi]

theorem bitAt_getLsbD (n m : Fin 16) (b : Bool) : (bitAt n b).getLsbD m = (decide (n = m) && b) := by
  revert n m b
  decide

/-- An image gives back the flags it was made of, where the four flags have four different bits. -/
theorem srOfImage_srImage {l : ImageBits} (h : [l.i, l.t, l.c, l.z].Nodup) (f : SR) :
    srOfImage l (srImage l f) = f := by
  simp only [List.nodup_cons, List.mem_cons, List.not_mem_nil, or_false, not_or] at h
  obtain ⟨⟨h1, h2, h3⟩, ⟨h4, h5⟩, h6, -⟩ := h
  simp only [srOfImage, srImage, BitVec.getLsbD_or, bitAt_getLsbD, h1, h2, h3, h4, h5, h6, Ne.symm h1, Ne.symm h2,
    Ne.symm h3, Ne.symm h4, Ne.symm h5, Ne.symm h6, decide_true, decide_false, Bool.true_and, Bool.false_and,
    Bool.or_false, Bool.false_or]

@[simp] theorem srOfImage_srImage_default (f : SR) : srOfImage {} (srImage {} f) = f :=
  srOfImage_srImage (by decide) f

theorem acceptable_some {s : State} {v : Word} :
    acceptable s = some v ↔
      s.irq = true ∧ s.sr.i = true ∧ s.pfx = none ∧ s.halted = false ∧ s.cfg.irqVector = some v := by
  unfold acceptable
  cases s.irq <;> cases s.sr.i <;> cases s.pfx <;> cases s.halted <;> simp

/-! ### The platform -/

theorem driven_next {r : Result} {t : State} : driven r = .next t ↔ ∃ u, r = .next u ∧ t = platform u := by
  cases r <;> simp [driven, eq_comm]

@[simp] theorem platform_regs (s : State) : (platform s).regs = s.regs := by unfold platform; split <;> rfl
@[simp] theorem platform_sp (s : State) : (platform s).sp = s.sp := by unfold platform; split <;> rfl
@[simp] theorem platform_pc (s : State) : (platform s).pc = s.pc := by unfold platform; split <;> rfl
@[simp] theorem platform_sr (s : State) : (platform s).sr = s.sr := by unfold platform; split <;> rfl
@[simp] theorem platform_pfx (s : State) : (platform s).pfx = s.pfx := by unfold platform; split <;> rfl
@[simp] theorem platform_halted (s : State) : (platform s).halted = s.halted := by unfold platform; split <;> rfl
@[simp] theorem platform_data (s : State) : (platform s).data = s.data := by unfold platform; split <;> rfl
@[simp] theorem platform_prog (s : State) : (platform s).prog = s.prog := by unfold platform; split <;> rfl
@[simp] theorem platform_loaded (s : State) : (platform s).loaded = s.loaded := by unfold platform; split <;> rfl
@[simp] theorem platform_cfg (s : State) : (platform s).cfg = s.cfg := by unfold platform; split <;> rfl

/-- Without `HAS_IRQ` the platform does nothing. -/
theorem platform_of_none {s : State} (h : s.cfg.irqVector = none) : platform s = s := by
  simp [platform, h]

end Sys2Proof.Machine
end

