-- ==== Sys2Proof/Laws/Exec.lean ====
section
/-! SUPPORT. The shared ends of the meanings: when each answers a next state, and which. -/

namespace Sys2Proof.Machine

theorem next_next {s t : State} : (Host.Outcome.next s : Result) = .next t ↔ t = s := by
  simp [eq_comm]

theorem moveTo_next {s t : State} {rd : Reg} {v : Word} :
    moveTo s rd v = .next t ↔ s.pfx = none ∧ t = (s.setReg rd v).advance := by
  simp only [moveTo, unprefixed_next, next_next]

theorem loadWord_next {s t : State} {rd : Reg} {ea : Word} :
    loadWord s rd ea = .next t ↔ ∃ v, readWord s ea = .ok v ∧ t = (s.setReg rd v).advance := by
  simp only [loadWord, settle_next, map_ok]

theorem loadSignedByte_next {s t : State} {rd : Reg} {ea : Word} :
    loadSignedByte s rd ea = .next t ↔
      ∃ b, readByte s ea = .ok b ∧ t = (s.setReg rd (b.signExtend 16)).advance := by
  simp only [loadSignedByte, settle_next, map_ok]

theorem loadZeroByte_next {s t : State} {rd : Reg} {ea : Word} :
    loadZeroByte s rd ea = .next t ↔
      ∃ b, readByte s ea = .ok b ∧ t = (s.setReg rd (b.setWidth 16)).advance := by
  simp only [loadZeroByte, settle_next, map_ok]

theorem storeWord_next {s t : State} {rd : Reg} {ea : Word} :
    storeWord s rd ea = .next t ↔ ∃ u, writeWord s ea (s.reg rd) = .ok u ∧ t = u.advance := by
  simp only [storeWord, settle_next, map_ok]

theorem storeByte_next {s t : State} {rd : Reg} {ea : Word} :
    storeByte s rd ea = .next t ↔ ∃ u, writeByte s ea (field (s.reg rd) 0 8) = .ok u ∧ t = u.advance := by
  simp only [storeByte, settle_next, map_ok]

theorem callTo_next {s t : State} {target : Word} :
    callTo s target = .next t ↔ ∃ u, push s (s.pc + 1) = .ok u ∧ t = u.jumpTo target := by
  simp only [callTo, settle_next, map_ok, State.nextPc_eq]

theorem execRet_next {s t : State} :
    execRet s = .next t ↔
      s.pfx = none ∧ ∃ target, readWord s s.sp = .ok target ∧ t = ({ s with sp := s.sp + 2 }).jumpTo target := by
  simp only [execRet, unprefixed_next, settle_next, map_ok]

theorem execReti_next {s t : State} :
    execReti s = .next t ↔ s.pfx = none ∧ returnFromInterrupt s = .ok t := by
  simp only [execReti, unprefixed_next, settle_next]

theorem execMovwPr_next {s t : State} {rd rs : Reg} :
    execMovwPr rd rs s = .next t ↔
      s.pfx = none ∧ ∃ v, progRead s (s.reg rs) (.unmappedAccess (s.reg rs)) = .ok v ∧
        t = (s.setReg rd v).advance := by
  simp only [execMovwPr, unprefixed_next, settle_next, map_ok]

end Sys2Proof.Machine
end

