-- ==== Sys2Proof/Laws/Flags.lean ====
section
/-! SUPPORT. What the adder answers, as bit vectors and as numbers. -/

namespace Sys2Proof.Machine

theorem addC_result (a b : Word) (cin : Bool) :
    (addC a b cin).1 = a + b + BitVec.ofNat 16 cin.toNat := by
  apply BitVec.eq_of_toNat_eq
  cases cin <;> simp [addC, BitVec.toNat_add]

theorem addC_carry (a b : Word) (cin : Bool) :
    (addC a b cin).2 = decide (65536 ≤ a.toNat + b.toNat + cin.toNat) := rfl

theorem subC_result (a b : Word) (cin : Bool) :
    (subC a b cin).1 = a - b - BitVec.ofNat 16 (!cin).toNat := by
  apply BitVec.eq_of_toNat_eq
  have ha := a.isLt
  have hb := b.isLt
  cases cin <;> simp [subC, addC, BitVec.toNat_sub] <;> omega

/-- The carry of a subtraction is "no borrow". -/
theorem subC_carry (a b : Word) (cin : Bool) :
    (subC a b cin).2 = decide (b.toNat + (!cin).toNat ≤ a.toNat) := by
  have ha := a.isLt
  have hb := b.isLt
  cases cin <;> simp [subC, addC] <;> omega

end Sys2Proof.Machine
end

