-- ==== Sys2Proof/Laws/Step.lean ====
section
/-! SUPPORT. What a step can do, said once. -/

namespace Sys2Proof.Machine

theorem runInstr_next {s t : State} :
    runInstr s = .next t ↔
      ∃ w u, fetch s = .ok w ∧ exec (decode s.cfg.r3Layout w) s = .next u ∧ t = platform u := by
  unfold runInstr
  cases fetch s with
  | error f => simp
  | ok w => simp [driven_next]

/-- A step that answers: nothing where the machine is halted, an interrupt entry where one may be accepted, or one
fetched instruction, executed from the state or from the state after the free bit that declined an interrupt. -/
theorem step_next {s t : State} (h : step s = .next t) :
    (s.halted = true ∧ t = s) ∨
      (s.halted = false ∧ ∃ v u, acceptable s = some v ∧ enterInterrupt s.drawn v = .ok u ∧ t = platform u) ∨
      (s.halted = false ∧ ∃ s0 w u, (s0 = s ∨ s0 = s.drawn) ∧ fetch s0 = .ok w ∧
        exec (decode s0.cfg.r3Layout w) s0 = .next u ∧ t = platform u) := by
  unfold step at h
  split at h
  · rename_i hh
    exact .inl ⟨hh, by simpa [eq_comm] using h⟩
  · rename_i hh
    have hh' : s.halted = false := by simpa using hh
    refine .inr ?_
    unfold boundary at h
    split at h
    · obtain ⟨w, u, h1, h2, h3⟩ := runInstr_next.1 h
      exact .inr ⟨hh', s, w, u, .inl rfl, h1, h2, h3⟩
    · rename_i v hv
      split at h
      · obtain ⟨u, h1, h2⟩ := driven_next.1 h
        exact .inl ⟨hh', v, u, hv, settle_next.1 h1, h2⟩
      · obtain ⟨w, u, h1, h2, h3⟩ := runInstr_next.1 h
        exact .inr ⟨hh', s.drawn, w, u, .inr rfl, h1, h2, h3⟩

end Sys2Proof.Machine
end

