-- ==== Sys2Proof/Tests/Slice0.lean ====
section
/-! SUPPORT. Tests. Expected results are the spec's: words written out bit by bit from 30_encoding.md R81 to R101, and
the vectors of 95_test_vectors.md, whose numbers the comments give. The theorems named `witness_<Statement>` show a
concrete case that meets the hypotheses of that statement. -/

namespace Sys2Proof.Tests

open Sys2Proof.Machine

/-! ### Well-formedness -/

theorem test_wf_refuses_move_of_r0_to_itself : Instr.wf (.movRr .r0 .r0) = false := by decide
theorem test_wf_accepts_nop : Instr.wf .nop = true := by decide
theorem test_wf_accepts_move_of_r1_to_itself : Instr.wf (.movRr .r1 .r1) = true := by decide

/-! ### Decoding: one word for every constructor, its fields apart -/

theorem test_decode_r2_moves :
    decode .rn42 0b0000_0_010_001_00000#16 = .movRr .r2 .r1 ∧
    decode .rn42 0b0000_0_000_001_00001#16 = .movRq .r1 ∧
    decode .rn42 0b0000_0_010_001_01011#16 = .movwPr .r2 .r1 ∧
    decode .rn42 0b0000_0_011_001_01100#16 = .sel0rr .r3 .r1 ∧
    decode .rn42 0b0000_0_011_001_01101#16 = .selR0r .r3 .r1 ∧
    decode .rn42 0b0000_0_011_000_10100#16 = .movSr .r3 ∧
    decode .rn42 0b0000_0_000_001_10101#16 = .movRs .r1 ∧
    decode .rn42 0b0000_0_011_000_10110#16 = .setNt .r3 ∧
    decode .rn42 0b0000_0_011_000_10111#16 = .setT .r3 ∧
    decode .rn42 0b0000_0_000_000_00000#16 = .nop := by decide

theorem test_decode_r2_alu :
    decode .rn42 0b0000_0_010_001_00010#16 = .zextRr .r2 .r1 ∧
    decode .rn42 0b0000_0_010_001_00011#16 = .sextRr .r2 .r1 ∧
    decode .rn42 0b0000_0_010_001_00100#16 = .lsrbRr .r2 .r1 ∧
    decode .rn42 0b0000_0_010_001_00101#16 = .asrbRr .r2 .r1 ∧
    decode .rn42 0b0000_0_010_001_00110#16 = .lslbRr .r2 .r1 ∧
    decode .rn42 0b0000_0_010_001_00111#16 = .sextwRr .r2 .r1 ∧
    decode .rn42 0b0000_0_010_001_01000#16 = .lsrRr .r2 .r1 ∧
    decode .rn42 0b0000_0_010_001_01001#16 = .lsrcRr .r2 .r1 ∧
    decode .rn42 0b0000_0_010_001_01010#16 = .asrRr .r2 .r1 ∧
    decode .rn42 0b0000_0_010_001_01110#16 = .negRr .r2 .r1 ∧
    decode .rn42 0b0000_0_010_001_01111#16 = .notRr .r2 .r1 := by decide

theorem test_decode_r2_control :
    decode .rn42 0b0000_0_000_001_10000#16 = .jmpR .r1 ∧
    decode .rn42 0b0000_0_010_000_10001#16 = .callR .r2 ∧
    decode .rn42 0b0000_0_000_000_11000#16 = .ret ∧
    decode .rn42 0b0000_0_000_000_11001#16 = .reti ∧
    decode .rn42 0b0000_0_000_000_11010#16 = .dint ∧
    decode .rn42 0b0000_0_000_000_11011#16 = .eint ∧
    decode .rn42 0b0000_0_000_000_11100#16 = .halt := by decide

theorem test_decode_reserved :
    decode .rn42 0b0000_0_000_000_10010#16 = .reservedR2Op10010 ∧
    decode .rn42 0b0000_0_000_000_10011#16 = .reservedR2Op10011 ∧
    decode .rn42 0b0000_0_000_000_11101#16 = .reservedR2Op11101 ∧
    decode .rn42 0b0000_0_000_000_11110#16 = .reservedR2Op11110 ∧
    decode .rn42 0b0000_0_000_000_11111#16 = .reservedR2Op11111 ∧
    decode .rn42 0b00_011_000_000_000_11#16 = .reservedR3Op01111 ∧
    decode .rn42 0b00_11000_000000000#16 = .reservedJOp11000 ∧
    decode .rn42 0b00_11001_000000000#16 = .reservedJOp11001 ∧
    decode .rn42 0b00_11010_000000000#16 = .reservedJOp11010 ∧
    decode .rn42 0b00_11011_000000000#16 = .reservedJOp11011 ∧
    decode .rn42 0b11100_00000000000#16 = .reservedPOp11100 ∧
    decode .rn42 0b11101_00000000000#16 = .reservedPOp11101 := by decide

theorem test_decode_r3 :
    decode .rn42 0b00_010_101_001_010_00#16 = .cmpCrr .lt .r1 .r2 ∧
    decode .rn42 0b00_010_011_001_011_01#16 = .cmpcCrr .ult .r1 .r3 ∧
    decode .rn42 0b00_010_011_001_010_10#16 = .subcRrr .r3 .r1 .r2 ∧
    decode .rn42 0b00_010_011_001_010_11#16 = .subRrr .r3 .r1 .r2 ∧
    decode .rn42 0b00_011_011_001_010_00#16 = .andRrr .r3 .r1 .r2 ∧
    decode .rn42 0b00_011_011_001_010_01#16 = .orRrr .r3 .r1 .r2 ∧
    decode .rn42 0b00_011_011_001_010_10#16 = .selRrr .r3 .r1 .r2 ∧
    decode .rn42 0b00_100_011_001_010_00#16 = .xorRrr .r3 .r1 .r2 ∧
    decode .rn42 0b00_100_011_001_010_01#16 = .adcRrr .r3 .r1 .r2 ∧
    decode .rn42 0b00_100_011_001_010_10#16 = .addRrr .r3 .r1 .r2 ∧
    decode .rn42 0b00_100_010_001_011_11#16 = .movwNr .r2 .r1 .r3 ∧
    decode .rn42 0b00_101_010_001_011_00#16 = .movzbNr .r2 .r1 .r3 ∧
    decode .rn42 0b00_101_010_001_011_01#16 = .movsbNr .r2 .r1 .r3 ∧
    decode .rn42 0b00_101_010_001_011_10#16 = .movwRn .r2 .r1 .r3 ∧
    decode .rn42 0b00_101_010_001_011_11#16 = .movbRn .r2 .r1 .r3 := by decide

theorem test_decode_r3_other_layout :
    decode .rn20 0b00_100_011_001_10_010#16 = .addRrr .r3 .r1 .r2 ∧
    decode .rn20 0b00_011_000_000_11_000#16 = .reservedR3Op01111 := by decide

theorem test_decode_j :
    decode .rn42 0b00_11100_111111100#16 = .brNt 0x1FC#9 ∧
    decode .rn42 0b00_11101_000000011#16 = .brT 0x003#9 ∧
    decode .rn42 0b00_11110_111111000#16 = .addKq 0x1F8#9 ∧
    decode .rn42 0b00_11111_000000101#16 = .jmpK 0x005#9 := by decide

theorem test_decode_i1 :
    decode .rn42 0b01000_001_00100000#16 = .movwAr .r1 0x20#8 ∧
    decode .rn42 0b01001_001_01010000#16 = .movsbAr .r1 0x50#8 ∧
    decode .rn42 0b01010_001_00100000#16 = .movwRa .r1 0x20#8 ∧
    decode .rn42 0b01011_001_01000001#16 = .movbRa .r1 0x41#8 ∧
    decode .rn42 0b01100_011_10000000#16 = .movKr .r3 0x80#8 ∧
    decode .rn42 0b01101_100_11111111#16 = .subKr .r4 0xFF#8 ∧
    decode .rn42 0b01110_100_11001000#16 = .addKr .r4 200#8 ∧
    decode .rn42 0b01111_101_00000100#16 = .leaQr .r5 4#8 ∧
    decode .rn42 0b10000_010_00000010#16 = .movwQr .r2 2#8 ∧
    decode .rn42 0b10001_010_00000011#16 = .movsbQr .r2 3#8 ∧
    decode .rn42 0b10010_010_00000010#16 = .movwRq .r2 2#8 ∧
    decode .rn42 0b10011_010_11111111#16 = .movbRq .r2 0xFF#8 := by decide

theorem test_decode_i2_and_p :
    decode .rn42 0b10100_101_001_11111#16 = .cmpCrk .lt .r1 0x1F#5 ∧
    decode .rn42 0b10101_100_001_00000#16 = .cmpcCrk .ge .r1 0#5 ∧
    decode .rn42 0b10110_010_001_11111#16 = .andKr .r2 .r1 0x1F#5 ∧
    decode .rn42 0b10111_010_001_11111#16 = .leaMr .r2 .r1 0x1F#5 ∧
    decode .rn42 0b11000_010_001_00011#16 = .movwMr .r2 .r1 3#5 ∧
    decode .rn42 0b11001_010_001_00011#16 = .movsbMr .r2 .r1 3#5 ∧
    decode .rn42 0b11010_010_001_00011#16 = .movwRm .r2 .r1 3#5 ∧
    decode .rn42 0b11011_010_001_11111#16 = .movbRm .r2 .r1 0x1F#5 ∧
    decode .rn42 0b11110_01100000000#16 = .call 0x300#11 ∧
    decode .rn42 0b11111_00010010001#16 = .pfixK 0x091#11 := by decide

/-- Vectors E1 to E3: don't-care bits. -/
theorem test_decode_dont_care_bits :
    decode .rn42 0x0800#16 = .nop ∧ decode .rn42 0x07FC#16 = .halt ∧ decode .rn42 0x0718#16 = .ret := by decide

/-- The condition codes, in the order of R93. -/
theorem test_decode_condition_codes :
    (List.range 8).map (fun n => Cond.ofBits (BitVec.ofNat 3 n)) =
      [.eq, .ne, .uge, .ult, .ge, .lt, .ugt, .gt] := by decide

theorem test_decode_table_word :
    decodeTableWord 16 0x232A = some (.addRrr .r3 .r1 .r2) ∧ decodeTableWord 32 0x232A = none ∧
      decodeTableWord 16 65536 = none := by decide

theorem test_decode_words_refuses_an_empty_list : decodeWords .rn42 [] = .error .noWord := by rfl

/-- Vectors A8 and B13: the two words of a prefixed instruction. -/
theorem test_encode_prefixed :
    encodePrefixed .rn42 0x1234#16 (.addKr .r4 0x14#8) = [0xF891#16, 0x7414#16] ∧
      encodePrefixed .rn42 0x1234#16 (.call 0x14#11) = [0xF891#16, 0xF014#16] := by decide

/-! ### One step -/

/-- A machine about to fetch at 0x0100, with R0 to R3, SP, the flags T, C, Z, and data memory as given. -/
def machine (r0 r1 r2 r3 sp : Word) (t c z : Bool) (data : DataMemory) : State :=
  { State.reset with
    regs := ⟨r0, r1, r2, r3, 0x4444#16, 0x5555#16, 0x6666#16, 0x7777#16⟩
    sp := sp
    pc := 0x0100#16
    sr := ⟨false, t, c, z⟩
    data := data }

/-- One step of `s` with the word `w` at PC answers a next state that `p` accepts. -/
def runs (s : State) (w : Nat) (p : State → Bool) : Bool :=
  match step (s.withFetchWord 16 w) with
  | .next t => p t
  | .fault _ | .refused _ => false

/-- The flags of a state, in the order T, C, Z. -/
def flags (s : State) : Bool × Bool × Bool :=
  (s.sr.t, s.sr.c, s.sr.z)

/-- A machine with R1, R2 and the flags C and Z alone, the others set so that a wrong read shows. -/
def alu (r1 r2 : Word) (c z : Bool) : State :=
  machine 0x0F0F#16 r1 r2 0x3333#16 0x8000#16 false c z []

/-- A2. -/
theorem test_add_wraps_to_zero : runs (alu 0xFFFF#16 1#16 false false) 0x232A
    (fun t => t.regs.r3 == 0#16 && flags t == (true, true, true) && t.pc == 0x0101#16) = true := by decide
/-- A4: the destination is both sources. -/
theorem test_add_of_a_register_to_itself : runs (machine 0x8000#16 0 0 0 0 false false false []) 0x2002
    (fun t => t.regs.r0 == 0#16 && flags t == (true, true, true)) = true := by decide
/-- A6: K is zero-extended. -/
theorem test_add_immediate : runs { alu 0 0 false false with regs := ⟨0, 0, 0, 0, 1#16, 0, 0, 0⟩ } 0x74FF
    (fun t => t.regs.r4 == 0x0100#16 && flags t == (false, false, false)) = true := by decide
/-- A9. -/
theorem test_addc_adds_carry : runs (alu 1#16 2#16 true true) 0x2329
    (fun t => t.regs.r3 == 4#16 && flags t == (false, false, false)) = true := by decide
/-- A11: Z stays 0. -/
theorem test_addc_accumulates_zero : runs (alu 0xFFFF#16 0#16 true false) 0x2329
    (fun t => t.regs.r3 == 0#16 && flags t == (false, true, false)) = true := by decide
/-- A13. -/
theorem test_addx_register : runs (alu 0xFFF0#16 0 true false) 0xBA3F
    (fun t => t.regs.r2 == 0x000F#16 && flags t == (false, true, false)) = true := by decide
/-- A15. -/
theorem test_addx_sp_to_register : runs (machine 0 0 0 0 0xFF80#16 true true true []) 0x7DFF
    (fun t => t.regs.r5 == 0x007F#16 && t.sp == 0xFF80#16 && flags t == (true, true, true)) = true := by decide
/-- A18: K is sign-extended. -/
theorem test_addx_sp : runs (machine 0 0 0 0 0x0010#16 true true true []) 0x3D00
    (fun t => t.sp == 0xFF10#16 && flags t == (true, true, true)) = true := by decide
/-- A21. -/
theorem test_sub_borrows : runs (alu 3#16 5#16 true true) 0x132B
    (fun t => t.regs.r3 == 0xFFFE#16 && flags t == (false, false, false)) = true := by decide
/-- A25. -/
theorem test_sub_immediate_borrows : runs { alu 0 0 true true with regs := ⟨0, 0, 0, 0, 0, 0, 0, 0⟩ } 0x6C01
    (fun t => t.regs.r4 == 0xFFFF#16 && flags t == (false, false, false)) = true := by decide
/-- A27. -/
theorem test_subc_not_borrow : runs (alu 5#16 3#16 false true) 0x132A
    (fun t => t.regs.r3 == 1#16 && flags t == (false, true, false)) = true := by decide
/-- A27 under `SUBC_SENSE = literal`: R3 = 0002. -/
theorem test_subc_literal :
    runs { alu 5#16 3#16 false true with cfg := { Config.default with subcSense := .literal } } 0x132A
      (fun t => t.regs.r3 == 2#16) = true := by decide
/-- A35. -/
theorem test_neg_of_the_most_negative : runs (alu 0x8000#16 0 true true) 0x022E
    (fun t => t.regs.r2 == 0x8000#16 && flags t == (false, false, false)) = true := by decide
/-- A36; C is free. -/
theorem test_and : runs (alu 0xF0F0#16 0x0FF0#16 true true) 0x1B28
    (fun t => t.regs.r3 == 0x00F0#16 && !t.sr.z && !t.sr.t) = true := by decide
/-- A38. -/
theorem test_and_immediate : runs (alu 0xABCD#16 0 true true) 0xB23F
    (fun t => t.regs.r2 == 0x000D#16 && !t.sr.z && !t.sr.t) = true := by decide
/-- A41. -/
theorem test_or : runs (alu 0xF000#16 0x000F#16 true true) 0x1B29
    (fun t => t.regs.r3 == 0xF00F#16 && !t.sr.z && !t.sr.t) = true := by decide
/-- A43. -/
theorem test_xor_of_a_register_with_itself : runs (alu 0x5A5A#16 0 true false) 0x2124
    (fun t => t.regs.r1 == 0#16 && t.sr.z && t.sr.t) = true := by decide
/-- A44. -/
theorem test_not : runs (alu 0x1234#16 0 true true) 0x022F
    (fun t => t.regs.r2 == 0xEDCB#16 && !t.sr.z && !t.sr.t) = true := by decide

/-- H1. -/
theorem test_lsr : runs (alu 0x8001#16 0 false true) 0x0228
    (fun t => t.regs.r2 == 0x4000#16 && flags t == (false, true, false)) = true := by decide
/-- H4. -/
theorem test_asr : runs (alu 0x8001#16 0 false true) 0x022A
    (fun t => t.regs.r2 == 0xC000#16 && flags t == (false, true, false)) = true := by decide
/-- H7. -/
theorem test_lsrc_shifts_carry_in : runs (alu 2#16 0 true true) 0x0229
    (fun t => t.regs.r2 == 0x8001#16 && flags t == (false, false, false)) = true := by decide
/-- H9: Z stays 0. -/
theorem test_lsrc_accumulates_zero : runs (alu 1#16 0 false false) 0x0229
    (fun t => t.regs.r2 == 0#16 && flags t == (false, true, false)) = true := by decide
/-- H13. -/
theorem test_lsrb : runs (alu 0xABCD#16 0 true false) 0x0224
    (fun t => t.regs.r2 == 0x00AB#16 && flags t == (false, true, false)) = true := by decide
/-- H14. -/
theorem test_asrb : runs (alu 0xABCD#16 0 true false) 0x0225 (fun t => t.regs.r2 == 0xFFAB#16) = true := by decide
/-- H16. -/
theorem test_lslb : runs (alu 0xABCD#16 0 true false) 0x0226 (fun t => t.regs.r2 == 0xCD00#16) = true := by decide
/-- H17. -/
theorem test_zext : runs (alu 0xABCD#16 0 true false) 0x0222 (fun t => t.regs.r2 == 0x00CD#16) = true := by decide
/-- H18. -/
theorem test_sext : runs (alu 0xAB80#16 0 true false) 0x0223 (fun t => t.regs.r2 == 0xFF80#16) = true := by decide
/-- H20. -/
theorem test_sextw : runs (alu 0x8000#16 0 true false) 0x0227 (fun t => t.regs.r2 == 0xFFFF#16) = true := by decide

/-- M9: signed overflow. -/
theorem test_cmp_signed : runs (alu 0x8000#16 0x7FFF#16 false true) 0x1528
    (fun t => flags t == (true, true, false) && t.regs == (alu 0x8000#16 0x7FFF#16 false true).regs) = true := by decide
/-- M12. -/
theorem test_cmp_ugt_of_equals : runs (alu 5#16 5#16 false false) 0x1628
    (fun t => flags t == (false, true, true)) = true := by decide
/-- M15: K is sign-extended. -/
theorem test_cmp_immediate : runs (alu 0xFFFE#16 0 true true) 0xA53F
    (fun t => flags t == (true, false, false)) = true := by decide
/-- M20, the second instruction. -/
theorem test_cmpc : runs (machine 0 1#16 0xFFFF#16 0 0 true false false []) 0x132D
    (fun t => flags t == (false, true, false)) = true := by decide
/-- M23. -/
theorem test_cmpc_immediate : runs (alu 0 0 false true) 0xAC20
    (fun t => flags t == (false, false, false)) = true := by decide

/-- V1. -/
theorem test_mov : runs (alu 0xBEEF#16 0 true false) 0x0220
    (fun t => t.regs.r2 == 0xBEEF#16 && flags t == (false, true, false)) = true := by decide
/-- V2. -/
theorem test_nop : runs (alu 1#16 2#16 true false) 0x0000
    (fun t => t.regs == (alu 1#16 2#16 true false).regs && t.pc == 0x0101#16) = true := by decide
/-- V5. -/
theorem test_mov_immediate : runs (alu 0 0 true false) 0x6380 (fun t => t.regs.r3 == 0xFF80#16) = true := by decide
/-- V9. -/
theorem test_mov_to_sp : runs (alu 0x7FF1#16 0 true false) 0x0021 (fun t => t.sp == 0x7FF1#16) = true := by decide
/-- V10. -/
theorem test_selcc : runs (machine 0 0xAAAA#16 0x5555#16 0 0 true false false []) 0x1B2A
    (fun t => t.regs.r3 == 0xAAAA#16) = true := by decide
/-- V11. -/
theorem test_selcc_zero_first : runs (alu 0xAAAA#16 0 true false) 0x032C
    (fun t => t.regs.r3 == 0xAAAA#16) = true := by decide
/-- V12. -/
theorem test_selcc_zero_second : runs (alu 0xAAAA#16 0 true false) 0x032D
    (fun t => t.regs.r3 == 0#16) = true := by decide
/-- V13. -/
theorem test_setcc : runs (alu 0 0 true true) 0x0317 (fun t => t.regs.r3 == 0#16) = true := by decide
/-- V14. -/
theorem test_setncc : runs (alu 0 0 true true) 0x0316 (fun t => t.regs.r3 == 1#16) = true := by decide

/-- B3. -/
theorem test_jmp_backward : runs (alu 0 0 true true) 0x3F00 (fun t => t.pc == 0x0001#16) = true := by decide
/-- B5: the target wraps. -/
theorem test_jmp_wraps : runs { alu 0 0 true true with pc := 0xFFFF#16 } 0x3E00
    (fun t => t.pc == 0#16) = true := by decide
/-- B7, T = 1. -/
theorem test_brcc_taken : runs (machine 0 0 0 0 0 true false false []) 0x3A03
    (fun t => t.pc == 0x0104#16) = true := by decide
/-- B7, T = 0. -/
theorem test_brcc_not_taken : runs (alu 0 0 true true) 0x3A03 (fun t => t.pc == 0x0101#16) = true := by decide
/-- B9, T = 0. -/
theorem test_brncc_taken : runs (alu 0 0 true true) 0x39FC (fun t => t.pc == 0x00FD#16) = true := by decide
/-- B11. -/
theorem test_jmp_register : runs (alu 0x0400#16 0 true true) 0x0030 (fun t => t.pc == 0x0400#16) = true := by decide
/-- B12. -/
theorem test_call : runs (alu 0 0 true true) 0xF300
    (fun t => t.pc == 0x0300#16 && t.sp == 0x7FFE#16 && t.data == [(0x7FFE, 0x01#8), (0x7FFF, 0x01#8)]) = true := by
  decide
/-- B14. -/
theorem test_call_register : runs (alu 0 0x1234#16 true true) 0x0211
    (fun t => t.pc == 0x1234#16 && t.sp == 0x7FFE#16) = true := by decide
/-- B17. -/
theorem test_ret_wraps_sp : runs (machine 0 0 0 0 0xFFFE#16 true true true [(0xFFFE, 0x34#8), (0xFFFF, 0x12#8)]) 0x0018
    (fun t => t.pc == 0x1234#16 && t.sp == 0#16) = true := by decide

/-- Data for the load tests: words 0x2211 at 0x2006 and 0x5678 at 0x7FF4, byte 0x85 at 0x2003, byte 0xFE at 0x7FF3. -/
def cells : DataMemory :=
  [(0x0040, 0x34#8), (0x0041, 0x92#8), (0x2003, 0x85#8), (0x2006, 0x11#8), (0x2007, 0x22#8), (0x7FF3, 0xFE#8),
    (0x7FF4, 0x78#8), (0x7FF5, 0x56#8)]

/-- A machine with R1, R2, R3 and SP for the load and store tests. -/
def mem (r1 r2 r3 : Word) : State :=
  machine 0 r1 r2 r3 0x7FF0#16 true false true cells

/-- L1. -/
theorem test_load_word_absolute : runs (mem 0 0 0) 0x4120 (fun t => t.regs.r1 == 0x9234#16) = true := by decide
/-- L1 under `BYTE_ORDER = big`. -/
theorem test_load_word_big_endian :
    runs { mem 0 0 0 with cfg := { Config.default with byteOrder := .big } } 0x4120
      (fun t => t.regs.r1 == 0x3492#16) = true := by decide
/-- R207, the byte of L1. -/
theorem test_load_byte_absolute : runs (mem 0 0 0) 0x4941 (fun t => t.regs.r1 == 0xFF92#16) = true := by decide
/-- L7. -/
theorem test_store_word_absolute : runs (mem 0xBEEF#16 0 0) 0x5120
    (fun t => Memory.get t.data 0x40 == some 0xEF#8 && Memory.get t.data 0x41 == some 0xBE#8) = true := by decide
/-- L8. -/
theorem test_store_byte_absolute : runs (mem 0xBEEF#16 0 0) 0x5941
    (fun t => Memory.get t.data 0x40 == some 0x34#8 && Memory.get t.data 0x41 == some 0xEF#8) = true := by decide
/-- L9. -/
theorem test_load_word_sp : runs (mem 0 0 0) 0x8202 (fun t => t.regs.r2 == 0x5678#16) = true := by decide
/-- L11. -/
theorem test_load_byte_sp : runs (mem 0 0 0) 0x8A03 (fun t => t.regs.r2 == 0xFFFE#16) = true := by decide
/-- L13. -/
theorem test_store_word_sp : runs (mem 0 0x1234#16 0) 0x92FF
    (fun t => Memory.get t.data 0x81EE == some 0x34#8 && Memory.get t.data 0x81EF == some 0x12#8) = true := by decide
/-- L15. -/
theorem test_store_byte_sp : runs (mem 0 0x1234#16 0) 0x9AFF
    (fun t => Memory.get t.data 0x80EF == some 0x34#8 && t.data.length == 9) = true := by decide
/-- L16. -/
theorem test_load_word_base : runs (mem 0x2000#16 0 0) 0xC223 (fun t => t.regs.r2 == 0x2211#16) = true := by decide
/-- L19: the destination is the base. -/
theorem test_load_word_into_its_base : runs (mem 0x2006#16 0 0) 0xC120
    (fun t => t.regs.r1 == 0x2211#16) = true := by decide
/-- L20. -/
theorem test_load_byte_base : runs (mem 0x2000#16 0 0) 0xCA23 (fun t => t.regs.r2 == 0xFF85#16) = true := by decide
/-- L22: the address wraps. -/
theorem test_store_word_base_wraps : runs (mem 0xFFFE#16 0xCAFE#16 0) 0xD221
    (fun t => Memory.get t.data 0 == some 0xFE#8 && Memory.get t.data 1 == some 0xCA#8) = true := by decide
/-- L24. -/
theorem test_store_byte_base : runs (mem 0x2000#16 0xCAFE#16 0) 0xDA3F
    (fun t => Memory.get t.data 0x201F == some 0xFE#8) = true := by decide
/-- L26: the index is doubled modulo 65536. -/
theorem test_load_word_index : runs (mem 0x2008#16 0 0xFFFF#16) 0x222F
    (fun t => t.regs.r2 == 0x2211#16) = true := by decide
/-- L28. -/
theorem test_load_zero_byte_index : runs (mem 0x2000#16 0 3#16) 0x2A2C
    (fun t => t.regs.r2 == 0x0085#16) = true := by decide
/-- L29. -/
theorem test_load_signed_byte_index : runs (mem 0x2000#16 0 3#16) 0x2A2D
    (fun t => t.regs.r2 == 0xFF85#16) = true := by decide
/-- L30. -/
theorem test_store_word_index : runs (mem 0x2000#16 0xCAFE#16 3#16) 0x2A2E
    (fun t => Memory.get t.data 0x2006 == some 0xFE#8 && Memory.get t.data 0x2007 == some 0xCA#8) = true := by decide
/-- L31. -/
theorem test_store_byte_index : runs (mem 0x2000#16 0xCAFE#16 3#16) 0x2A2F
    (fun t => Memory.get t.data 0x2003 == some 0xFE#8) = true := by decide
/-- L32. -/
theorem test_load_program_word : runs { mem 0x0200#16 0 0 with prog := [(0x0200, 0xA55A#16)] } 0x022B
    (fun t => t.regs.r2 == 0xA55A#16) = true := by decide

/-- The machine of `mem` with a prefix pending. -/
def prefixed (p : BitVec 11) : State :=
  { mem 0x2000#16 0xCAFE#16 0 with pfx := some p }

/-- X1. -/
theorem test_pfix : runs (mem 0 0 0) 0xF891
    (fun t => t.pfx == some 0x091#11 && t.pc == 0x0101#16) = true := by decide
/-- X5: bits 7 to 5 of the field are ignored. -/
theorem test_prefixed_move : runs (prefixed 0x091#11) 0x63F4
    (fun t => t.regs.r3 == 0x1234#16 && t.pfx == none) = true := by decide
/-- B6: the offset is not extended. -/
theorem test_prefixed_jump : runs { prefixed 0x7E0#11 with pc := 0x0101#16 } 0x3E00
    (fun t => t.pc == 0xFD02#16) = true := by decide
/-- L23: a prefixed immediate of a word access is doubled. -/
theorem test_prefixed_store : runs { prefixed 0x080#11 with regs := ⟨0, 6#16, 0xCAFE#16, 0, 0, 0, 0, 0⟩ } 0xD220
    (fun t => Memory.get t.data 0x2006 == some 0xFE#8 && Memory.get t.data 0x2007 == some 0xCA#8) = true := by decide

/-- Y1. -/
theorem test_dint : runs { alu 0 0 true true with sr := ⟨true, true, false, true⟩ } 0x001A
    (fun t => t.sr == ⟨false, true, false, true⟩) = true := by decide
/-- Y2. -/
theorem test_eint : runs (alu 0 0 true false) 0x001B (fun t => t.sr == ⟨true, false, true, false⟩) = true := by decide
/-- Y3. -/
theorem test_reti :
    runs (machine 0 0 0 0 0x7FFC#16 true false false
      [(0x7FFC, 0x0B#8), (0x7FFD, 0x00#8), (0x7FFE, 0x23#8), (0x7FFF, 0x01#8)]) 0x0019
      (fun t => t.pc == 0x0123#16 && t.sp == 0x8000#16 && t.sr == ⟨true, false, true, true⟩) = true := by decide
/-- Y4. -/
theorem test_halt : runs (alu 0 0 true true) 0x001C (fun t => t.halted && t.pc == 0x0101#16) = true := by decide

/-! ### Model faults -/

/-- The fault of one step of `s` with the word `w` at PC, if it raises one. -/
def faultOf (s : State) (w : Nat) : Option Fault :=
  match step (s.withFetchWord 16 w) with
  | .fault f => some f
  | .next _ | .refused _ => none

/-- B15. -/
theorem test_call_with_odd_sp : faultOf (machine 0 0 0 0 0x7FFF#16 true true true []) 0xF005 =
    some (.misalignedWord 0x7FFD#16) := by decide
/-- L18. -/
theorem test_load_word_misaligned : faultOf (mem 0x2001#16 0 0) 0xC220 = some (.misalignedWord 0x2001#16) := by decide
/-- X6 and X8. -/
theorem test_prefix_misuse : faultOf (prefixed 1#11) 0xF802 = some (.prefixMisuse 0xF802#16) ∧
    faultOf (prefixed 1#11) 0x232A = some (.prefixMisuse 0x232A#16) := by decide
/-- Y5. -/
theorem test_reserved_words :
    [0xE000, 0xE800, 0x3000, 0x3200, 0x3400, 0x3600, 0x1803, 0x0012, 0x0013, 0x001D, 0x001E, 0x001F].map
      (fun w => faultOf (alu 0 0 true true) w == some (.reservedInstruction (BitVec.ofNat 16 w))) =
      List.replicate 12 true := by decide
/-- V15 and V16. -/
theorem test_not_implemented_words : faultOf (alu 0 0 true true) 0x0314 = some (.reservedInstruction 0x0314#16) ∧
    faultOf (alu 0 0 true true) 0x0035 = some (.reservedInstruction 0x0035#16) := by decide
/-- R44. -/
theorem test_unwritten_byte : faultOf (mem 0 0 0) 0x4950 = some (.unwrittenRead (.dataByte 0x50#16)) := by decide
/-- R290. -/
theorem test_unwritten_program_word : step State.reset = .fault (.unwrittenRead (.programWord 0#16)) := by rfl

/-! ### Interrupts -/

/-- The machine of the worked example R289, at its instruction boundary. -/
def requested : State :=
  { machine 0 0 0 0 0x8000#16 false true true [] with
    pc := 0x0123#16, sr := ⟨true, false, true, true⟩, irq := true
    cfg := { Config.default with irqVector := some 0x0004#16 } }

/-- The machine after the entry of R289. -/
def entered : State :=
  { requested with
    sp := 0x7FFC#16, pc := 0x0004#16, sr := ⟨false, false, true, true⟩
    data := [(0x7FFC, 0x0B#8), (0x7FFD, 0x00#8), (0x7FFE, 0x23#8), (0x7FFF, 0x01#8)] }

/-- R289, the entry. -/
theorem test_interrupt_entry : enterInterrupt requested 0x0004#16 = .ok entered := by rfl
/-- R289, the return: the handler ended with PC at 0x0010. -/
theorem test_interrupt_return : exec .reti { entered with pc := 0x0010#16 } =
    .next { requested with data := entered.data } := by rfl

/-- A platform whose interrupt entry saves the SR image, PC and R1, in that order, Z in the highest bit (log entry
20). -/
def otherFrame : Config :=
  { Config.default with irqVector := some 4#16, irqFrame := ⟨[.sr, .pc, .reg .r1], { z := 15 }⟩ }

theorem test_default_frame_wf : IrqFrame.default.wf = true ∧ otherFrame.irqFrame.wf = true := by decide

/-- Another frame than the spec's: entry and return are still inverse to each other. -/
theorem test_other_frame :
    enterInterrupt { requested with cfg := otherFrame } 4#16 = .ok { requested with
      cfg := otherFrame, sp := 0x7FFA#16, pc := 4#16, sr := ⟨false, false, true, true⟩
      data := [(0x7FFA, 0#8), (0x7FFB, 0#8), (0x7FFC, 0x23#8), (0x7FFD, 0x01#8), (0x7FFE, 0x0A#8), (0x7FFF, 0x80#8)] } ∧
    exec .reti { requested with
      cfg := otherFrame, sp := 0x7FFA#16, pc := 9#16, sr := ⟨false, true, false, false⟩
      data := [(0x7FFA, 0#8), (0x7FFB, 0#8), (0x7FFC, 0x23#8), (0x7FFD, 0x01#8), (0x7FFE, 0x0A#8), (0x7FFF, 0x80#8)] } =
      .next { requested with
        cfg := otherFrame, data := [(0x7FFA, 0#8), (0x7FFB, 0#8), (0x7FFC, 0x23#8), (0x7FFD, 0x01#8),
          (0x7FFE, 0x0A#8), (0x7FFF, 0x80#8)] } := ⟨by rfl, by rfl⟩

/-! ### Witnesses: each shows a case that meets the hypotheses of the statement it is named after -/

/-- A machine with the canonical word of `i` at PC. -/
def about (i : Instr) : State :=
  (alu 1#16 2#16 true true).withFetchWord 16 (encode .rn42 i).toNat

theorem witness_DecodeOfEncodeIsIdentity : Instr.wf (.movRr .r0 .r1) = true ∧ Instr.wf (.movRr .r1 .r0) = true ∧
    Instr.wf (.jmpK 0x1FF#9) = true ∧ Instr.wf (.pfixK 0x7FF#11) = true := by decide

theorem witness_EncodeOfDecodeOutsideR2 :
    (formatOf 0x1000#16 ≠ .r2 ∧ (decode .rn42 0x1000#16).isReserved = false) ∧
      (formatOf 0xFFFF#16 ≠ .r2 ∧ (decode .rn42 0xFFFF#16).isReserved = false) := by decide

/-- A row with both registers, one with Rd alone, one with Rs alone, one with neither. -/
theorem witness_UnusedR2BitsAreIgnored :
    [(0x0A2F#16, 0x022F#16), (0x0F36#16, 0x0716#16), (0x0F30#16, 0x0030#16), (0x0FFC#16, 0x001C#16)].all
      (fun (p : Word × Word) => formatOf p.1 == .r2 && formatOf p.2 == .r2 && field p.1 0 5 == field p.2 0 5 &&
        p.1 != p.2) = true ∧
    field 0x0A2F#16 8 3 = field 0x022F#16 8 3 ∧ field 0x0A2F#16 5 3 = field 0x022F#16 5 3 ∧
    field 0x0F36#16 8 3 = field 0x0716#16 8 3 ∧ field 0x0F30#16 5 3 = field 0x0030#16 5 3 := by decide

theorem witness_ZeroWordIsNoOperation : State.reset.pfx = none := by decide

theorem witness_StepRunsTheDecodedInstruction :
    (about .halt).halted = false ∧ acceptable (about .halt) = none ∧
      populated (about .halt).cfg.progMap (about .halt).pc.toNat = true ∧
      Memory.get (about .halt).prog (about .halt).pc.toNat = some 0x001C#16 ∧
      decode (about .halt).cfg.r3Layout 0x001C#16 = .halt ∧ Instr.wf .halt = true ∧
      (about .halt).cfg.irqVector = none := by decide

/-- A platform that declines a run at a reserved word. -/
def refusing : Config :=
  { Config.default with reservedOp := .refuse }

/-- 93_implementation_defined.md U1, U2: `RESERVED_OP = refuse`, a Reserved and a not-implemented word. -/
theorem test_reserved_refused :
    step { about .reservedPOp11100 with cfg := refusing } = .refused (.reservedInstruction 0xE000#16) ∧
      step { about (.movSr .r3) with cfg := refusing } = .refused (.reservedInstruction 0x0314#16) := ⟨by rfl, by rfl⟩

/-- A platform whose two memories hold addresses 4 to 15 alone. -/
def smallMaps : Config :=
  { Config.default with progMap := [⟨4, 12⟩], dataMap := [⟨4, 12⟩] }

theorem witness_FetchFaults :
    State.reset.halted = false ∧ acceptable State.reset = none ∧
      populated smallMaps.progMap 3 = false ∧ populated smallMaps.progMap 16 = false ∧
      populated smallMaps.progMap 4 = true ∧ populated smallMaps.progMap 15 = true ∧
      Memory.get State.reset.prog 15 = none ∧ acceptable { State.reset with cfg := smallMaps } = none := by decide

theorem witness_HaltedBit :
    (∃ t, exec .halt State.reset = .next t) ∧
      (∃ t, exec .nop { State.reset with halted := true } = .next t) ∧
      ∃ s : State, s.halted = true :=
  ⟨⟨_, rfl⟩, ⟨_, rfl⟩, { State.reset with halted := true }, rfl⟩

theorem witness_InterruptAcceptance : requested.halted = false ∧ acceptable requested = some 0x0004#16 ∧
    State.reset.halted = false ∧ acceptable State.reset = none := by decide

/-- The default frame at the top of memory, and one that wraps; another frame. -/
theorem witness_InterruptEntry :
    (∃ t, enterInterrupt { requested with cfg := otherFrame } 4#16 = .ok t) ∧
      requested.cfg.irqFrame = IrqFrame.default ∧
      (wordOpen { requested with sp := 0#16 } (0#16 - 2) ∧ wordOpen { requested with sp := 0#16 } (0#16 - 4)) ∧
      wordOpen { requested with sp := 2#16 } (2#16 - 2) ∧ wordOpen { requested with sp := 2#16 } (2#16 - 4) := by
  refine ⟨⟨_, rfl⟩, by decide, ?_⟩
  unfold wordOpen
  decide

/-- The default frame, and another. -/
theorem witness_ReturnUndoesEntry :
    (requested.cfg.irqFrame.wf = true ∧ requested.cfg.irqFrame = IrqFrame.default ∧
      enterInterrupt requested 0x0004#16 = .ok entered ∧ entered.cfg = requested.cfg ∧ entered.pfx = none ∧
      readWord entered entered.sp = .ok 0x000B#16 ∧ readWord entered (entered.sp + 2) = .ok 0x0123#16) ∧
    otherFrame.irqFrame.wf = true ∧
      ∃ t, enterInterrupt { requested with cfg := otherFrame } 4#16 = .ok t ∧ t.cfg = otherFrame ∧ t.pfx = none :=
  ⟨⟨by decide, by decide, rfl, rfl, rfl, rfl, rfl⟩, by decide, _, rfl, rfl, rfl⟩

theorem witness_StepKeepsInvariant : (about .halt).inv = true ∧ ∃ t, step (about .halt) = .next t :=
  ⟨by decide, _, rfl⟩

/-- The host's loads for a machine that has run: two loads of data, one of a program. -/
def hostLoaded : State :=
  ((({ State.reset with data := [(5, 1#8)], halted := true }).loadData [(0#16, 5#8), (65535#16, 9#8)]).loadProgram
    [(0#16, 0x001C#16)]).loadData [(0#16, 7#8)]

theorem witness_ResetHasInvariant : hostLoaded.inv = true := by decide

/-- Each end of data and program memory loaded, loaded twice, and not loaded; a platform without the input. -/
theorem witness_ResetState :
    (State.reset.cfg.irqVector = none ∧ State.reset.loaded = [] ∧
      [((0#16, 5#8) : Word × Byte), (0#16, 7#8), (65535#16, 9#8)] =
        [(0#16, 5#8)] ++ (0#16, 7#8) :: [(65535#16, 9#8)] ∧
      (∀ e ∈ [((65535#16, 9#8) : Word × Byte)], e.1 ≠ 0#16) ∧
      (∀ e ∈ ([] : List (Word × Byte)), e.1 ≠ 65535#16) ∧
      ∀ e ∈ [((1#16, 7#8) : Word × Byte)], e.1 ≠ 0#16) ∧
    [((0#16, 5#16) : Word × Word), (0#16, 7#16)] = [(0#16, 5#16)] ++ (0#16, 7#16) :: [] ∧
      (∀ e ∈ ([] : List (Word × Word)), e.1 ≠ 0#16) ∧ ∀ e ∈ [((0#16, 7#16) : Word × Word)], e.1 ≠ 65535#16 :=
  ⟨⟨rfl, rfl, rfl, by simp, by simp, by simp⟩, rfl, by simp, by simp⟩

/-- R290, R300: after the start the loaded bytes are there, the later of two loads of one address, and the byte the
earlier run wrote is not; a start without a load leaves no byte. -/
theorem test_load_then_start :
    Memory.get hostLoaded.start.data 0 = some 7#8 ∧ Memory.get hostLoaded.start.data 65535 = some 9#8 ∧
      Memory.get hostLoaded.start.data 5 = none ∧ Memory.get hostLoaded.start.prog 0 = some 0x001C#16 ∧
      hostLoaded.start.halted = false ∧ hostLoaded.start.start.data = [] := by decide

theorem witness_ProgramMemoryIsConstant :
    (∃ t, step (about (.movwRa .r1 0xFF#8)) = .next t) ∧ (∃ t, exec (.movwRa .r1 0xFF#8) State.reset = .next t) ∧
      isLogical (.movwRa .r1 0xFF#8) = false :=
  ⟨⟨_, rfl⟩, ⟨_, rfl⟩, rfl⟩

theorem witness_RunEnds :
    (∃ t, runFor 1 (about .halt) = .halted t) ∧ (∃ t f, runFor 1 State.reset = .faulted t f) ∧
      (∃ t, runFor 1 (about .nop) = .running t) ∧
      (∃ t r, runFor 1 { about .reservedPOp11100 with cfg := refusing } = .refused t r) ∧
      State.reset.cfg.reservedOp = .fault :=
  ⟨⟨_, rfl⟩, ⟨_, _, rfl⟩, ⟨_, rfl⟩, ⟨_, _, rfl⟩, rfl⟩

theorem witness_OnlyTheDestinationRegisterChanges :
    (∃ t, exec (.addRrr .r3 .r1 .r2) State.reset = .next t) ∧ dest (.addRrr .r3 .r1 .r2) ≠ some .r0 ∧
      dest .eint ≠ some .r7 ∧ State.reset.cfg.irqFrame = IrqFrame.default :=
  ⟨⟨_, rfl⟩, by decide, by decide, by decide⟩

theorem witness_StackPointerWriters :
    (∃ t, exec (.leaQr .r3 1#8) State.reset = .next t) ∧ writesSp (.leaQr .r3 1#8) = false :=
  ⟨⟨_, rfl⟩, rfl⟩

theorem witness_FlagWriters :
    (∃ t, exec (.leaQr .r3 1#8) State.reset = .next t) ∧ writesTCZ (.leaQr .r3 1#8) = false ∧
      writesI (.leaQr .r3 1#8) = false :=
  ⟨⟨_, rfl⟩, rfl, rfl⟩

theorem witness_ReadersOfT :
    readsT (.addRrr .r3 .r1 .r2) = false ∧ writesTCZ (.addRrr .r3 .r1 .r2) = true ∧
      readsT .reti = false ∧ writesTCZ .reti = true ∧ FrameWord.sr ∈ State.reset.cfg.irqFrame.words ∧
      FrameWord.sr ∉ [FrameWord.pc] ∧
      readsT .halt = false ∧ writesTCZ .halt = false ∧ readsT (.brT 0#9) = true := by decide

theorem witness_ProgramCounterAdvances :
    (∃ t, exec .nop { State.reset with pc := 0xFFFF#16 } = .next t) ∧ writesPc .nop = false :=
  ⟨⟨_, rfl⟩, rfl⟩

theorem witness_MemoryFrame :
    (∃ t, exec .nop (alu 0 0 true true) = .next t) ∧ storeSpan (alu 0 0 true true) .nop = none ∧
      (∃ t, exec (.call 0#11) (alu 0 0 true true) = .next t) ∧
      storeSpan (alu 0 0 true true) (.call 0#11) = some (0x7FFE#16, 2) ∧
      (∃ t, exec (.movbRa .r1 0xFF#8) (alu 0 0 true true) = .next t) ∧
      storeSpan (alu 0 0 true true) (.movbRa .r1 0xFF#8) = some (0x00FF#16, 1) :=
  ⟨⟨_, rfl⟩, rfl, ⟨_, rfl⟩, by decide, ⟨_, rfl⟩, by decide⟩

theorem witness_PrefixLatchLifetime :
    (∃ t, exec (.pfixK 0x7FF#11) State.reset = .next t) ∧ ∃ t, exec (.movKr .r1 0#8) (prefixed 0#11) = .next t :=
  ⟨⟨_, rfl⟩, _, rfl⟩

theorem witness_PrefixMisuse :
    (prefixed 0#11).pfx ≠ none ∧ Instr.isReserved .nop = false ∧ Instr.format .nop = .r2 ∧
      Instr.isReserved (.movbRn .r1 .r2 .r3) = false ∧ Instr.format (.movbRn .r1 .r2 .r3) = .r3 ∧
      Instr.isReserved (.pfixK 0#11) = false ∧ Instr.isReserved (.movSr .r0) = true ∧
      (prefixed 0#11).cfg.reservedOp = .fault ∧ refusing.reservedOp = .refuse := by decide

theorem witness_ReservedInstructionsStop :
    Instr.isReserved .reservedPOp11100 = true ∧ (about .reservedPOp11100).halted = false ∧
      acceptable (about .reservedPOp11100) = none ∧ fetch (about .reservedPOp11100) = .ok 0xE000#16 ∧
      (decode .rn42 0xE000#16).isReserved = true ∧ (about .reservedPOp11100).cfg.reservedOp = .fault ∧
      refusing.reservedOp = .refuse :=
  ⟨rfl, rfl, rfl, rfl, by decide, rfl, rfl⟩

/-- Odd addresses at both ends of the space: a store through a prefixed immediate, a `ret` at 0xFFFF. -/
theorem witness_MisalignedWordAccess :
    (State.reset.cfg.misalignedWord = .fault ∧
      wordAccess { State.reset with sp := 0xFFFF#16 } .ret = some 0xFFFF#16 ∧ (0xFFFF#16).getLsbD 0 = true ∧
      State.reset.pfx = none ∧ State.reset.cfg.irqFrame.words ≠ []) ∧
    (wordAccess { State.reset with sp := 1#16, pfx := some 0#11 } (.movwRq .r1 0#8) = some 1#16 ∧
      (1#16).getLsbD 0 = true ∧ Instr.isPrefixable (.movwRq .r1 0#8) = true) ∧
    { Config.default with misalignedWord := .clearBit0 }.misalignedWord = .clearBit0 := by decide

/-- The pushes of an entry and the second read of `reti` at the two ends of a small map of addresses 4 to 15. -/
theorem witness_UnmappedDataAccess :
    (State.reset.pfx = none ∧
      byteAccess State.reset (.movsbAr .r1 3#8) = some 3#16 ∧ populated smallMaps.dataMap 3 = false ∧
      byteAccess State.reset (.movsbAr .r1 16#8) = some 16#16 ∧ populated smallMaps.dataMap 16 = false ∧
      wordAccess State.reset (.movwAr .r1 1#8) = some 2#16 ∧ (2#16).getLsbD 0 = false ∧
      populated smallMaps.dataMap 2 = false ∧ populated [⟨0, 15⟩] 15 = false) ∧
    ((4#16).getLsbD 0 = false ∧ smallMaps.irqFrame.words.length = 2 ∧
      populated smallMaps.dataMap (4#16 - 2).toNat = false ∧ populated smallMaps.dataMap (4#16 - 1).toNat = false) ∧
    ((6#16).getLsbD 0 = false ∧ wordOpen { State.reset with cfg := smallMaps } (6#16 - 2) ∧
      populated smallMaps.dataMap (6#16 - 4).toNat = false ∧ populated smallMaps.dataMap (6#16 - 3).toNat = false) ∧
    (14#16).getLsbD 0 = false ∧
      readWord { State.reset with cfg := smallMaps, data := [(14, 1#8), (15, 2#8)] } 14#16 = .ok 0x0201#16 ∧
      populated smallMaps.dataMap (14#16 + 2).toNat = false ∧ populated smallMaps.dataMap (14#16 + 3).toNat = false := by
  refine ⟨by decide, by decide, ⟨by decide, by unfold wordOpen; decide, by decide, by decide⟩, by decide, rfl,
    by decide, by decide⟩

/-- R61, R71: the second push of an entry below the map, and the second read of `reti` above it. -/
theorem test_unmapped_frame :
    enterInterrupt { State.reset with cfg := smallMaps, sp := 6#16 } 0#16 = .error (.unmappedAccess 2#16) ∧
      exec .reti { State.reset with cfg := smallMaps, sp := 14#16, data := [(14, 1#8), (15, 2#8)] } =
        .fault (.unmappedAccess 16#16) := ⟨rfl, rfl⟩

/-- The second address of the frame of `reti` is unwritten in `half`. -/
def half : State :=
  machine 0 0 0 0 0xFFFE#16 true true true [(0xFFFE, 0x34#8), (0xFFFF, 0x12#8)]

theorem witness_DataReadFaults :
    (populated State.reset.cfg.dataMap 65535 = true ∧ Memory.get State.reset.data 65535 = none) ∧
    (wordOpen State.reset 0xFFFE#16 ∧ Memory.get State.reset.data 65534 = none) ∧
    (Memory.get [((65534, 1#8) : Nat × Byte)] 65534 ≠ none ∧ Memory.get [((65534, 1#8) : Nat × Byte)] 65535 = none) ∧
    (State.reset.pfx = none ∧ wordRead State.reset .ret = some 0xA5A4#16 ∧
      readWord State.reset 0xA5A4#16 = .error (.unwrittenRead (.dataByte 0xA5A4#16))) ∧
    (Instr.isPrefixable (.movsbAr .r1 31#8) = true ∧
      byteRead (prefixed 0x7FF#11) (.movsbAr .r1 31#8) = some 0xFFFF#16 ∧
      readByte (prefixed 0x7FF#11) 0xFFFF#16 = .error (.unwrittenRead (.dataByte 0xFFFF#16))) ∧
    (half.pfx = none ∧ half.cfg.irqFrame.words.length = 2 ∧ readWord half half.sp = .ok 0x1234#16 ∧
      readWord half (half.sp + 2) = .error (.unwrittenRead (.dataByte 0#16))) := by
  refine ⟨⟨by decide, rfl⟩, ⟨by unfold wordOpen; decide, rfl⟩, ⟨by decide, rfl⟩, ⟨rfl, rfl, rfl⟩, ⟨rfl, by decide, rfl⟩,
    rfl, rfl, rfl, rfl⟩

theorem witness_AddCompletes : State.reset.pfx = none ∧ (255#16 : Word) = immZero State.reset 255#8 ∧
    (0x1234#16 : Word) = immZero (prefixed 0x091#11) 0xF4#8 := by decide
theorem witness_AddxCompletes : State.reset.pfx = none ∧ (31#16 : Word) = immZero State.reset 31#5 ∧
    (0xFF00#16 : Word) = immSign State.reset 0x100#9 := by decide
theorem witness_AddWithCarryCompletes : (alu 0xFFFF#16 0#16 true true).pfx = none ∧
    (0#16 : Word) = BitVec.ofNat 16 (65535 + 0 + 1) := by decide
theorem witness_SubtractCompletes : State.reset.pfx = none ∧ (255#16 : Word) = immZero State.reset 255#8 := by decide
theorem witness_NegateCompletes : State.reset.pfx = none := by decide
theorem witness_SubtractWithCarryCompletes : (alu 0#16 0#16 false true).pfx = none ∧
    Config.default.subcSense = .notBorrow ∧ (0xFFFF#16 : Word) = 0#16 - 0#16 - BitVec.ofNat 16 (1 - 0) ∧
    { Config.default with subcSense := .literal }.subcSense = .literal := by decide
theorem witness_LogicCompletes : (alu 0xF0F0#16 0x0F0F#16 true true).pfx = none ∧
    (0#16 : Word) = 0xF0F0#16 &&& 0x0F0F#16 ∧ (0xFFFF#16 : Word) = 65535#16 - 0#16 ∧
    Config.default.logicC = .draw ∧ { Config.default with logicC := .zero }.logicC = .zero ∧
    { Config.default with logicC := .unchanged }.logicC = .unchanged := by decide
theorem witness_CarryPairsComputeDoubleWords : State.reset.pfx = none ∧ Reg.r4 ≠ .r1 ∧ Reg.r4 ≠ .r3 ∧ Reg.r4 ≠ .r5 ∧
    State.reset.cfg.subcSense = .notBorrow := by decide
theorem witness_SingleBitShiftsComplete : State.reset.pfx = none := by decide
theorem witness_ShiftPairsShiftDoubleWords : State.reset.pfx = none ∧ Reg.r1 ≠ .r0 := by decide
theorem witness_ByteShiftsAndExtensionsComplete : State.reset.pfx = none ∧
    (0x00FF#16).toNat = (0xFFFF#16).toNat / 256 ∧ (0xFFFF#16).toInt = (0xFF00#16).toInt / 256 ∧
    (0xFF00#16).toNat = (0xFFFF#16).toNat * 256 % 65536 ∧ (0x00FF#16).toNat = (0xFFFF#16).toNat % 256 ∧
    (0xFF80#16).toInt = ((0x0080#16).setWidth 8).toInt ∧
    (0xFFFF#16).toInt = if (0x8000#16).toInt < 0 then -1 else 0 := by decide
theorem witness_CompareCompletes : State.reset.pfx = none ∧ (0xFFF0#16 : Word) = immSign State.reset 16#5 := by decide
theorem witness_CompareWithCarryCompletes : (alu 0x8000#16 0x7FFF#16 true true).pfx = none ∧
    (-65535 : Int) = (0x8000#16).toInt - (0x7FFF#16).toInt - (1 - 1) ∧ (1#16 : Word) = BitVec.ofInt 16 (-65535) := by
  decide
theorem witness_ComparePairComparesDoubleWords : State.reset.pfx = none := by decide
theorem witness_MovesComplete : State.reset.pfx = none ∧ (0xFF80#16 : Word) = immSign State.reset 0x80#8 ∧
    (prefixed 0x7FF#11).pfx = some 0x7FF#11 ∧ (0xFFFF#16 : Word) = immSign (prefixed 0x7FF#11) 31#8 := by decide
theorem witness_SelectAndSetComplete : State.reset.pfx = none := by decide
theorem witness_JumpsAndBranchesComplete : State.reset.pfx = none ∧ Config.default.brBase = .one ∧
    (0xFF00#16 : Word) = immSign State.reset 0x100#9 ∧ (0#16 : Word) = 0xFFFF#16 + 1#16 + immSign State.reset 0#9 := by
  decide

/-- SP = 2 pushes at address 0, SP = 0 at the top of memory. -/
theorem witness_CallsComplete : State.reset.pfx = none ∧ wordOpen { State.reset with sp := 2#16 } (2#16 - 2) ∧
    wordOpen { State.reset with sp := 0#16 } (0#16 - 2) := by
  unfold wordOpen
  decide

/-- A machine whose data memory holds words at both ends. -/
def ends : State :=
  { machine 0 0xFFC0#16 0xFFE0#16 31#16 0xFE00#16 true true true
      [(0, 0x78#8), (1, 0x56#8), (0xFFFE, 0x34#8), (0xFFFF, 0x12#8)] with pfx := none }

theorem witness_ReturnCompletes : ends.pfx = none ∧ holdsWord ends 0xFFFE#16 0x1234#16 ∧ holdsWord ends 0#16 0x5678#16 := by
  unfold holdsWord wordOpen
  decide

theorem witness_ReturnUndoesCall :
    (∃ a, Instr.call 0x300#11 = .call a) ∧
      ∃ t, exec (.call 0x300#11) (alu 0 0 true true) = .next t ∧ t.pfx = none ∧ t.sp = 0x7FFE#16 ∧
        readWord t t.sp = .ok 0x0101#16 :=
  ⟨⟨_, rfl⟩, _, rfl, rfl, rfl, rfl⟩

theorem witness_EffectiveAddresses : (2 : Nat) = (if State.reset.pfx.isSome = true ∧
      State.reset.cfg.prefixWordScale = false then 1 else 2) ∧
    (1 : Nat) = (if (some 0#11).isSome = true ∧
      { Config.default with prefixWordScale := false }.prefixWordScale = false then 1 else 2) := by decide

/-- Every form at the last word and at the last byte of memory, the absolute ones by a prefix; a word at address 0. -/
theorem witness_LoadsAndStoresComplete :
    (eaAbsWord { ends with pfx := some 0x3FF#11 } 31#8 = 0xFFFE#16 ∧ eaSpWord ends 255#8 = 0xFFFE#16 ∧
      eaBaseWord ends .r1 31#5 = 0xFFFE#16 ∧ eaIndexWord ends .r1 .r3 = 0xFFFE#16 ∧ ends.pfx = none ∧
      holdsWord ends 0xFFFE#16 0x1234#16 ∧ holdsWord { ends with pfx := some 0x3FF#11 } 0xFFFE#16 0x1234#16 ∧
      wordOpen ends 0xFFFE#16 ∧ wordOpen ends 0#16) ∧
    eaAbsByte { ends with pfx := some 0x7FF#11 } 31#8 = 0xFFFF#16 ∧
      eaSpByte { ends with sp := 0xFF00#16 } 255#8 = 0xFFFF#16 ∧ eaBaseByte ends .r2 31#5 = 0xFFFF#16 ∧
      eaIndexByte ends .r2 .r3 = 0xFFFF#16 ∧ holdsByte ends 0xFFFF#16 0x12#8 ∧
      holdsByte { ends with pfx := some 0x7FF#11 } 0xFFFF#16 0x12#8 ∧
      populated ends.cfg.dataMap 65535 = true ∧ populated ends.cfg.dataMap 0 = true := by
  unfold holdsWord holdsByte wordOpen
  decide

theorem witness_ProgramLoadCompletes :
    State.reset.pfx = none ∧ populated State.reset.cfg.progMap 65535 = true ∧
      Memory.get { State.reset with prog := [(65535, 1#16)] }.prog 65535 = some 1#16 ∧
      populated smallMaps.progMap 3 = false ∧ populated smallMaps.progMap 16 = false ∧
      Memory.get State.reset.prog 65535 = none := by decide

theorem witness_ByteOrderOfAWord :
    (0xFFFE#16).getLsbD 0 = false ∧ (∃ t, writeWord State.reset 0xFFFE#16 0x1234#16 = .ok t) ∧
      State.reset.cfg.byteOrder = .little ∧ { Config.default with byteOrder := .big }.byteOrder = .big ∧
      ∃ t, writeByte State.reset 0xFFFF#16 0x34#8 = .ok t :=
  ⟨by decide, ⟨_, rfl⟩, rfl, rfl, _, rfl⟩

theorem witness_PrefixInstruction : State.reset.pfx = none ∧ 5 ≤ 5 ∧ 5 ≤ 16 ∧ 11 ≤ 16 ∧ (prefixed 0#11).pfx ≠ none := by
  decide

theorem witness_ImmediateOperand : 5 ≤ 16 ∧ 8 ≤ 16 ∧ 9 ≤ 16 ∧ 11 ≤ 16 ∧ State.reset.pfx = none ∧
    (prefixed 0x7FF#11).pfx = some 0x7FF#11 := by decide

theorem witness_PrefixedPairsTakeSixteenBits : State.reset.pfx = none ∧
    (0xFF#8).setWidth 5 = (0xFFFF#16).setWidth 5 ∧ 0x1F#5 = (0xFFFF#16).setWidth 5 := by decide

theorem witness_InterruptControlAndHaltComplete : State.reset.pfx = none := by decide

/-- The frame at the top of memory, and one that wraps. -/
theorem witness_ReturnFromInterruptCompletes :
    (∃ t, exec .reti { ends with sp := 0xFFFE#16 } = .next t) ∧ ends.cfg.irqFrame = IrqFrame.default ∧
      ends.pfx = none ∧ holdsWord ends 0xFFFE#16 0x1234#16 ∧ holdsWord ends (0xFFFE#16 + 2) 0x5678#16 := by
  refine ⟨⟨_, rfl⟩, by decide, ?_⟩
  unfold holdsWord wordOpen
  decide

end Sys2Proof.Tests
end

/-! ### Proofs: the halted bit (10_state.md R40) -/

namespace Sys2Proof.Machine

/-- The fields of the state that no instruction but `halt` writes: the halted bit (R40), the interrupt request input
(R41), program memory (R38), and the model's own records of the host's loads and of the parameters. -/
structure SameFixed (s t : State) : Prop where
  halted : t.halted = s.halted
  irq : t.irq = s.irq
  prog : t.prog = s.prog
  loaded : t.loaded = s.loaded
  cfg : t.cfg = s.cfg

/-- Where a meaning answers a next state, that state agrees with `s` on the fixed fields. -/
def KeepsFixed (s : State) (r : Result) : Prop :=
  ∀ t, r = .next t → SameFixed s t

/-! #### What the shared ends of the meanings keep -/

theorem keepsFixed_next {s u : State} (h : SameFixed s u) : KeepsFixed s (.next u) := by
  intro t ht
  obtain rfl := next_next.1 ht
  exact h

theorem keepsFixed_unprefixed {s : State} {r : Result} (h : KeepsFixed s r) : KeepsFixed s (unprefixed s r) :=
  fun t ht => h t (unprefixed_next.1 ht).2

theorem keepsFixed_reserved (s : State) : KeepsFixed s (reserved s) :=
  fun t ht => absurd ht (reserved_ne_next s t)

theorem sameFixed_advance (s : State) : SameFixed s s.advance :=
  ⟨rfl, rfl, rfl, rfl, rfl⟩

theorem sameFixed_jumpTo (s : State) (target : Word) : SameFixed s (s.jumpTo target) :=
  ⟨rfl, rfl, rfl, rfl, rfl⟩

/-- Either way of a conditional branch. -/
theorem sameFixed_ite {s u v : State} {b : Prop} [Decidable b] (hu : SameFixed s u) (hv : SameFixed s v) :
    SameFixed s (if b then u else v) := by
  split
  · exact hu
  · exact hv

theorem sameFixed_setReg_advance (s : State) (rd : Reg) (v : Word) : SameFixed s (s.setReg rd v).advance :=
  ⟨rfl, rfl, rfl, rfl, rfl⟩

theorem sameFixed_finishAlu (s : State) (rd : Reg) (r : Word × Bool) (zin : Bool) :
    SameFixed s (finishAlu s rd r zin) :=
  ⟨rfl, rfl, rfl, rfl, rfl⟩

theorem sameFixed_finishCompare (s : State) (cc : Cond) (a b : Word) (cin zin : Bool) :
    SameFixed s (finishCompare s cc a b cin zin) :=
  ⟨rfl, rfl, rfl, rfl, rfl⟩

/-- The free bit of `LOGIC_C` moves the counter alone. -/
theorem sameFixed_finishLogic (s : State) (rd : Reg) (v : Word) : SameFixed s (finishLogic s rd v) := by
  rw [finishLogic_eq]
  constructor <;> simp

theorem keepsFixed_moveTo (s : State) (rd : Reg) (v : Word) : KeepsFixed s (moveTo s rd v) :=
  keepsFixed_unprefixed (keepsFixed_next (sameFixed_setReg_advance s rd v))

theorem keepsFixed_loadWord (s : State) (rd : Reg) (ea : Word) : KeepsFixed s (loadWord s rd ea) := by
  intro t ht
  obtain ⟨v, -, rfl⟩ := loadWord_next.1 ht
  exact sameFixed_setReg_advance s rd v

theorem keepsFixed_loadSignedByte (s : State) (rd : Reg) (ea : Word) : KeepsFixed s (loadSignedByte s rd ea) := by
  intro t ht
  obtain ⟨b, -, rfl⟩ := loadSignedByte_next.1 ht
  exact sameFixed_setReg_advance s rd _

theorem keepsFixed_loadZeroByte (s : State) (rd : Reg) (ea : Word) : KeepsFixed s (loadZeroByte s rd ea) := by
  intro t ht
  obtain ⟨b, -, rfl⟩ := loadZeroByte_next.1 ht
  exact sameFixed_setReg_advance s rd _

theorem keepsFixed_storeWord (s : State) (rd : Reg) (ea : Word) : KeepsFixed s (storeWord s rd ea) := by
  intro t ht
  obtain ⟨u, hu, rfl⟩ := storeWord_next.1 ht
  obtain ⟨a, -, -, rfl⟩ := writeWord_ok.1 hu
  exact ⟨rfl, rfl, rfl, rfl, rfl⟩

theorem keepsFixed_storeByte (s : State) (rd : Reg) (ea : Word) : KeepsFixed s (storeByte s rd ea) := by
  intro t ht
  obtain ⟨u, hu, rfl⟩ := storeByte_next.1 ht
  obtain ⟨-, rfl⟩ := writeByte_ok.1 hu
  exact ⟨rfl, rfl, rfl, rfl, rfl⟩

theorem keepsFixed_callTo (s : State) (target : Word) : KeepsFixed s (callTo s target) := by
  intro t ht
  obtain ⟨u, hu, rfl⟩ := callTo_next.1 ht
  obtain ⟨a, -, -, rfl⟩ := push_ok.1 hu
  exact ⟨rfl, rfl, rfl, rfl, rfl⟩

/-! #### What the meanings with an end of their own keep -/

theorem keepsFixed_execMovwPr (rd rs : Reg) (s : State) : KeepsFixed s (execMovwPr rd rs s) := by
  intro t ht
  obtain ⟨-, v, -, rfl⟩ := execMovwPr_next.1 ht
  exact sameFixed_setReg_advance s rd v

theorem keepsFixed_execRet (s : State) : KeepsFixed s (execRet s) := by
  intro t ht
  obtain ⟨-, target, -, rfl⟩ := execRet_next.1 ht
  exact ⟨rfl, rfl, rfl, rfl, rfl⟩

/-- A frame holds PC, SR and general registers: popping one reaches none of the fixed fields. -/
theorem keepsFixed_execReti (s : State) : KeepsFixed s (execReti s) := by
  intro t ht
  have hframe := returnFromInterrupt_frame (execReti_next.1 ht).2
  rw [hframe]
  exact ⟨rfl, rfl, rfl, rfl, rfl⟩

theorem execHalt_next {s t : State} :
    execHalt s = .next t ↔ s.pfx = none ∧ t = ({ s with halted := true }).advance := by
  simp only [execHalt, unprefixed_next, next_next]

/-! #### All instructions -/

/-- Every instruction but `halt` keeps the fixed fields: each arm ends in one of the shared ends above. -/
theorem exec_keepsFixed {i : Instr} (s : State) (hi : i ≠ .halt) : KeepsFixed s (exec i s) := by
  cases i with
  | halt => exact absurd rfl hi
  | movRr | zextRr | sextRr | lsrbRr | asrbRr | lslbRr | sextwRr | sel0rr | selR0r | selRrr | setT | setNt | nop =>
    exact keepsFixed_moveTo s _ _
  | addRrr | adcRrr | subRrr | subcRrr | negRr | lsrRr | lsrcRr | asrRr =>
    exact keepsFixed_unprefixed (keepsFixed_next (sameFixed_finishAlu ..))
  | addKr | subKr => exact keepsFixed_next (sameFixed_finishAlu ..)
  | andRrr | orRrr | xorRrr | notRr =>
    exact keepsFixed_unprefixed (keepsFixed_next (sameFixed_finishLogic ..))
  | andKr => exact keepsFixed_next (sameFixed_finishLogic ..)
  | cmpCrr | cmpcCrr => exact keepsFixed_unprefixed (keepsFixed_next (sameFixed_finishCompare ..))
  | cmpCrk | cmpcCrk => exact keepsFixed_next (sameFixed_finishCompare ..)
  | movKr | leaMr | leaQr => exact keepsFixed_next (sameFixed_setReg_advance ..)
  | addKq => exact keepsFixed_next ⟨rfl, rfl, rfl, rfl, rfl⟩
  | movRq | pfixK | dint | eint =>
    exact keepsFixed_unprefixed (keepsFixed_next ⟨rfl, rfl, rfl, rfl, rfl⟩)
  | jmpK => exact keepsFixed_next (sameFixed_jumpTo ..)
  | jmpR => exact keepsFixed_unprefixed (keepsFixed_next (sameFixed_jumpTo ..))
  | brT => exact keepsFixed_next (sameFixed_ite (sameFixed_jumpTo ..) (sameFixed_advance s))
  | brNt => exact keepsFixed_next (sameFixed_ite (sameFixed_advance s) (sameFixed_jumpTo ..))
  | call => exact keepsFixed_callTo s _
  | callR => exact keepsFixed_unprefixed (keepsFixed_callTo s _)
  | ret => exact keepsFixed_execRet s
  | reti => exact keepsFixed_execReti s
  | movwAr | movwQr | movwMr => exact keepsFixed_loadWord s _ _
  | movsbAr | movsbQr | movsbMr => exact keepsFixed_loadSignedByte s _ _
  | movwRa | movwRq | movwRm => exact keepsFixed_storeWord s _ _
  | movbRa | movbRq | movbRm => exact keepsFixed_storeByte s _ _
  | movwNr => exact keepsFixed_unprefixed (keepsFixed_loadWord s _ _)
  | movsbNr => exact keepsFixed_unprefixed (keepsFixed_loadSignedByte s _ _)
  | movzbNr => exact keepsFixed_unprefixed (keepsFixed_loadZeroByte s _ _)
  | movwRn => exact keepsFixed_unprefixed (keepsFixed_storeWord s _ _)
  | movbRn => exact keepsFixed_unprefixed (keepsFixed_storeByte s _ _)
  | movwPr => exact keepsFixed_execMovwPr _ _ s
  | reservedR2Op10010 | reservedR2Op10011 | reservedR2Op11101 | reservedR2Op11110 | reservedR2Op11111
  | reservedR3Op01111 | reservedJOp11000 | reservedJOp11001 | reservedJOp11010 | reservedJOp11011
  | reservedPOp11100 | reservedPOp11101 | movSr | movRs => exact keepsFixed_reserved s

theorem exec_halt_sets_halted {s t : State} (h : exec .halt s = .next t) : t.halted = true := by
  obtain ⟨-, rfl⟩ := execHalt_next.1 h
  rfl

theorem exec_halted_eq {i : Instr} {s t : State} (hi : i ≠ .halt) (h : exec i s = .next t) : t.halted = s.halted :=
  (exec_keepsFixed s hi t h).halted

theorem exec_keeps_halted {i : Instr} {s t : State} (h : exec i s = .next t) (hs : s.halted = true) :
    t.halted = true := by
  by_cases hi : i = .halt
  · subst hi
    exact exec_halt_sets_halted h
  · rw [exec_halted_eq hi h, hs]

theorem step_of_halted {s : State} (h : s.halted = true) : step s = .next s := by
  rw [step, if_pos h]

/-- Settles O10, from the frame of every instruction but `halt` and the two lemmas on `halt` and on a halted step. -/
theorem haltedBit : Obligations.HaltedBit :=
  ⟨fun _ _ => exec_halt_sets_halted, fun _ _ _ => exec_keeps_halted, fun _ _ _ => exec_halted_eq,
    fun _ => step_of_halted⟩

end Sys2Proof.Machine

/-! ### Proofs: loads and stores of data memory (20_memory.md R58, 45_load_store.md R225) -/

namespace Sys2Proof.Machine

/-! #### Accesses that complete -/

theorem readWord_of_holdsWord {s : State} {ea v : Word} (h : holdsWord s ea v) : readWord s ea = .ok v := by
  obtain ⟨⟨heven, hlow, hhigh⟩, hfirst, hsecond⟩ := h
  exact readWord_ok.2 ⟨ea, _, _, wordAddress_of_even heven, wordMapped_ok.2 ⟨hlow, hhigh⟩,
    readByte_ok.2 ⟨hlow, hfirst⟩, readByte_ok.2 ⟨hhigh, hsecond⟩, (joinBytes_split _ v).symm⟩

theorem writeWord_of_wordOpen {s : State} {ea : Word} (v : Word) (h : wordOpen s ea) :
    writeWord s ea v = .ok (storeBytes s ea (firstByte s.cfg.byteOrder v) (secondByte s.cfg.byteOrder v)) := by
  obtain ⟨heven, hlow, hhigh⟩ := h
  exact writeWord_ok.2 ⟨ea, wordAddress_of_even heven, wordMapped_ok.2 ⟨hlow, hhigh⟩, rfl⟩

/-- The two bytes of a word stand at two addresses, also where the address wraps. -/
theorem toNat_add_one_ne (a : Word) : (a + 1).toNat ≠ a.toNat := by
  bv_omega

/-! #### An instruction that ends in a shared access completes as its shape says -/

theorem loadsWord_of_exec {i : Instr} {rd : Reg} {ea : Word} {s : State} (hi : exec i s = loadWord s rd ea) :
    LoadsWord i rd ea s := by
  intro v hv
  rw [hi]
  exact loadWord_next.2 ⟨v, readWord_of_holdsWord hv, rfl⟩

theorem loadsByte_of_exec_signed {i : Instr} {rd : Reg} {ea : Word} {s : State}
    (hi : exec i s = loadSignedByte s rd ea) : LoadsByte i rd ea (fun b => b.signExtend 16) s := by
  intro b hb
  rw [hi]
  exact loadSignedByte_next.2 ⟨b, readByte_ok.2 hb, rfl⟩

theorem loadsByte_of_exec_zero {i : Instr} {rd : Reg} {ea : Word} {s : State}
    (hi : exec i s = loadZeroByte s rd ea) : LoadsByte i rd ea (fun b => b.setWidth 16) s := by
  intro b hb
  rw [hi]
  exact loadZeroByte_next.2 ⟨b, readByte_ok.2 hb, rfl⟩

theorem storesWord_of_exec {i : Instr} {rd : Reg} {ea : Word} {s : State} (hi : exec i s = storeWord s rd ea) :
    StoresWord i rd ea s := by
  intro hopen
  refine ⟨_, hi.trans (storeWord_next.2 ⟨_, writeWord_of_wordOpen (s.reg rd) hopen, rfl⟩), ?_, ?_, ?_⟩
  · rw [storeBytes_get, if_neg (toNat_add_one_ne ea), if_pos rfl]
  · rw [storeBytes_get, if_pos rfl]
  · intro a hlow hhigh
    rw [storeBytes_get, if_neg hhigh.symm, if_neg hlow.symm]

theorem storesByte_of_exec {i : Instr} {rd : Reg} {ea : Word} {s : State} (hi : exec i s = storeByte s rd ea) :
    StoresByte i rd ea s := by
  intro hmapped
  have hlow : field (s.reg rd) 0 8 = (s.reg rd).setWidth 8 := (BitVec.setWidth_eq_extractLsb' (by decide)).symm
  refine ⟨_, hi.trans (storeByte_next.2 ⟨_, writeByte_ok.2 ⟨hmapped, rfl⟩, rfl⟩), ?_, ?_⟩
  · rw [Memory.get_set_same, hlow]
  · intro a ha
    exact Memory.get_set_of_ne _ _ ha.symm

/-! #### The loads and stores, by the access they end in -/

theorem wordLoads_complete (rd rs rn : Reg) (k8 : BitVec 8) (k5 : BitVec 5) (s : State) :
    LoadsWord (.movwAr rd k8) rd (eaAbsWord s k8) s ∧ LoadsWord (.movwQr rd k8) rd (eaSpWord s k8) s ∧
      LoadsWord (.movwMr rd rs k5) rd (eaBaseWord s rs k5) s ∧
      (s.pfx = none → LoadsWord (.movwNr rd rs rn) rd (eaIndexWord s rs rn) s) :=
  ⟨loadsWord_of_exec rfl, loadsWord_of_exec rfl, loadsWord_of_exec rfl,
    fun h => loadsWord_of_exec (unprefixed_of_none _ h)⟩

theorem byteLoads_complete (rd rs rn : Reg) (k8 : BitVec 8) (k5 : BitVec 5) (s : State) :
    LoadsByte (.movsbAr rd k8) rd (eaAbsByte s k8) (fun b => b.signExtend 16) s ∧
      LoadsByte (.movsbQr rd k8) rd (eaSpByte s k8) (fun b => b.signExtend 16) s ∧
      LoadsByte (.movsbMr rd rs k5) rd (eaBaseByte s rs k5) (fun b => b.signExtend 16) s ∧
      (s.pfx = none →
        LoadsByte (.movsbNr rd rs rn) rd (eaIndexByte s rs rn) (fun b => b.signExtend 16) s ∧
        LoadsByte (.movzbNr rd rs rn) rd (eaIndexByte s rs rn) (fun b => b.setWidth 16) s) :=
  ⟨loadsByte_of_exec_signed rfl, loadsByte_of_exec_signed rfl, loadsByte_of_exec_signed rfl,
    fun h => ⟨loadsByte_of_exec_signed (unprefixed_of_none _ h), loadsByte_of_exec_zero (unprefixed_of_none _ h)⟩⟩

theorem wordStores_complete (rd rs rn : Reg) (k8 : BitVec 8) (k5 : BitVec 5) (s : State) :
    StoresWord (.movwRa rd k8) rd (eaAbsWord s k8) s ∧ StoresWord (.movwRq rd k8) rd (eaSpWord s k8) s ∧
      StoresWord (.movwRm rd rs k5) rd (eaBaseWord s rs k5) s ∧
      (s.pfx = none → StoresWord (.movwRn rd rs rn) rd (eaIndexWord s rs rn) s) :=
  ⟨storesWord_of_exec rfl, storesWord_of_exec rfl, storesWord_of_exec rfl,
    fun h => storesWord_of_exec (unprefixed_of_none _ h)⟩

theorem byteStores_complete (rd rs rn : Reg) (k8 : BitVec 8) (k5 : BitVec 5) (s : State) :
    StoresByte (.movbRa rd k8) rd (eaAbsByte s k8) s ∧ StoresByte (.movbRq rd k8) rd (eaSpByte s k8) s ∧
      StoresByte (.movbRm rd rs k5) rd (eaBaseByte s rs k5) s ∧
      (s.pfx = none → StoresByte (.movbRn rd rs rn) rd (eaIndexByte s rs rn) s) :=
  ⟨storesByte_of_exec rfl, storesByte_of_exec rfl, storesByte_of_exec rfl,
    fun h => storesByte_of_exec (unprefixed_of_none _ h)⟩

/-- Settles O53, from the four kinds of access: each form ends in one of them, at the address of its state before. -/
theorem loadsAndStoresComplete : Obligations.LoadsAndStoresComplete := fun rd rs rn k8 k5 s =>
  ⟨wordLoads_complete rd rs rn k8 k5 s, byteLoads_complete rd rs rn k8 k5 s, wordStores_complete rd rs rn k8 k5 s,
    byteStores_complete rd rs rn k8 k5 s⟩

end Sys2Proof.Machine

/-! ### Proofs: `add`, `addx` and `sub` (40_arithmetic_logic.md R121, R122, R124 to R126, R128, R129) -/

namespace Sys2Proof.Machine

/-! #### Immediates where no prefix is pending (30_encoding.md R90) -/

theorem immediate_of_none {n : Nat} {s : State} (k : BitVec n) (short : Word) (h : s.pfx = none) :
    immediate s k short = short := by
  simp [immediate, h]

/-- A zero-extended field keeps its number. -/
theorem immZero_toNat_of_none {n : Nat} {s : State} (k : BitVec n) (hn : n ≤ 16) (h : s.pfx = none) :
    (immZero s k).toNat = k.toNat := by
  rw [immZero, immediate_of_none k _ h, BitVec.toNat_setWidth_of_le hn]

/-- A sign-extended field keeps its signed number. -/
theorem immSign_toInt_of_none {n : Nat} {s : State} (k : BitVec n) (hn : n ≤ 16) (h : s.pfx = none) :
    (immSign s k).toInt = k.toInt := by
  rw [immSign, immediate_of_none k _ h, BitVec.toInt_signExtend_of_le hn]

/-! #### The adder without a carry or a borrow in, and the end of the instructions that use it so -/

theorem addC_false (a b : Word) : addC a b false = (a + b, decide (65536 ≤ a.toNat + b.toNat)) := by
  refine Prod.ext ?_ (addC_carry a b false)
  simpa using addC_result a b false

theorem subC_true (a b : Word) : subC a b true = (a - b, decide (b.toNat ≤ a.toNat)) := by
  refine Prod.ext ?_ (subC_carry a b true)
  simpa using subC_result a b true

/-- Where Z does not accumulate, Z and T say whether the result is zero (10_state.md R30). -/
theorem finishAlu_true (s : State) (rd : Reg) (v : Word) (c : Bool) :
    finishAlu s rd (v, c) true =
      { s with
        regs := s.regs.set rd v
        sr := { s.sr with c := c, z := decide (v = 0#16), t := decide (v = 0#16) }
        pc := s.pc + 1
        pfx := none } :=
  finishAlu_eq s rd (v, c) true

/-- The same end where no prefix is pending: the latch need not be named. -/
theorem finishAlu_true_of_none {s : State} (rd : Reg) (v : Word) (c : Bool) (h : s.pfx = none) :
    finishAlu s rd (v, c) true =
      { s with
        regs := s.regs.set rd v
        sr := { s.sr with c := c, z := decide (v = 0#16), t := decide (v = 0#16) }
        pc := s.pc + 1 } := by
  rw [finishAlu_true, ← h]

/-! #### What the instructions do, as the ends above -/

theorem exec_addRrr_of_none {s : State} (rd rs rn : Reg) (h : s.pfx = none) :
    exec (.addRrr rd rs rn) s = .next (finishAlu s rd (addC (s.reg rs) (s.reg rn) false) true) :=
  unprefixed_of_none _ h

theorem exec_subRrr_of_none {s : State} (rd rs rn : Reg) (h : s.pfx = none) :
    exec (.subRrr rd rs rn) s = .next (finishAlu s rd (subC (s.reg rs) (s.reg rn) true) true) :=
  unprefixed_of_none _ h

theorem exec_addKr (rd : Reg) (k : BitVec 8) (s : State) :
    exec (.addKr rd k) s = .next (finishAlu s rd (addC (s.reg rd) (immZero s k) false) true) := rfl

theorem exec_subKr (rd : Reg) (k : BitVec 8) (s : State) :
    exec (.subKr rd k) s = .next (finishAlu s rd (subC (s.reg rd) (immZero s k) true) true) := rfl

/-! #### The words, as numbers: the opcode's place value `v`, then the fields (30_encoding.md R94, R95, R98) -/

theorem wordR3_toNat_of_opcode {hi : BitVec 3} {lo : BitVec 2} {d s n : BitVec 3} {v : Nat}
    (h : hi.toNat * 2048 + lo.toNat = v) :
    (wordR3 .rn42 hi lo d s n).toNat = v + 256 * d.toNat + 32 * s.toNat + 4 * n.toNat := by
  subst h
  rw [wordR3_toNat]
  omega

theorem wordI1_toNat_of_opcode {op : BitVec 5} {d : BitVec 3} {k : BitVec 8} {v : Nat} (h : op.toNat * 2048 = v) :
    (wordI1 op d k).toNat = v + 256 * d.toNat + k.toNat := by
  rw [wordI1_toNat, h]
  omega

theorem wordI2_toNat_of_opcode {op : BitVec 5} {d s : BitVec 3} {k : BitVec 5} {v : Nat}
    (h : op.toNat * 2048 = v) :
    (wordI2 op d s k).toNat = v + 256 * d.toNat + 32 * s.toNat + k.toNat := by
  rw [wordI2_toNat, h]
  omega

/-! #### The obligations -/

/-- Settles O32, from the adder without a carry in and the shared end of the ALU instructions. -/
theorem addCompletes : Obligations.AddCompletes := by
  refine ⟨fun rd rs rn s hpfx => ⟨wordR3_toNat_of_opcode rfl, ?_⟩, ?_⟩
  · rw [exec_addRrr_of_none rd rs rn hpfx, addC_false, finishAlu_true_of_none _ _ _ hpfx]
  · rintro rd k s imm rfl
    refine ⟨wordI1_toNat_of_opcode rfl, immZero_toNat_of_none k (by decide), ?_⟩
    rw [exec_addKr, addC_false, finishAlu_true]

/-- Settles O34: the three meanings are sums with the immediate, and write no flag. -/
theorem addxCompletes : Obligations.AddxCompletes := by
  refine ⟨?_, ?_, ?_⟩
  · rintro rd rs k s imm rfl
    exact ⟨wordI2_toNat_of_opcode rfl, immZero_toNat_of_none k (by decide), rfl⟩
  · rintro rd k s imm rfl
    exact ⟨wordI1_toNat_of_opcode rfl, immZero_toNat_of_none k (by decide), rfl⟩
  · rintro a s imm rfl
    exact ⟨wordJ_toNat 0b11110#5 a, immSign_toInt_of_none a (by decide), rfl⟩

/-- Settles O35, from the adder without a borrow in and the shared end of the ALU instructions. -/
theorem subtractCompletes : Obligations.SubtractCompletes := by
  refine ⟨fun rd rs rn s hpfx => ⟨wordR3_toNat_of_opcode rfl, ?_⟩, ?_⟩
  · rw [exec_subRrr_of_none rd rs rn hpfx, subC_true, finishAlu_true_of_none _ _ _ hpfx]
  · rintro rd k s imm rfl
    refine ⟨wordI1_toNat_of_opcode rfl, immZero_toNat_of_none k (by decide), ?_⟩
    rw [exec_subKr, subC_true, finishAlu_true]

end Sys2Proof.Machine

/-! ### Proofs: the condition codes and `cmp` (42_compare.md R160, R162, R163, R166) -/

namespace Sys2Proof.Machine

/-! #### The sign and the signed overflow of a compare's subtraction -/

/-- V of a compare (R166), for operands `a`, `b` and the difference `r`. -/
def compareOverflow (a b r : Word) : Bool :=
  (a.getLsbD 15 != b.getLsbD 15) && (r.getLsbD 15 != a.getLsbD 15)

/-- What a compare leaves in SR, with V by its name. -/
theorem compareFlags_eq (f : SR) (cc : Cond) (a b : Word) (cin zin : Bool) :
    compareFlags f cc a b cin zin =
      { f with
        t := condHolds cc (subC a b cin).2 (zin && ((subC a b cin).1 == 0#16)) ((subC a b cin).1.getLsbD 15)
          (compareOverflow a b (subC a b cin).1)
        c := (subC a b cin).2
        z := zin && ((subC a b cin).1 == 0#16) } := rfl

theorem getLsbD_15_eq_decide (a : Word) : a.getLsbD 15 = decide (a.toInt < 0) :=
  (BitVec.msb_eq_getLsbD_last a).symm.trans BitVec.msb_eq_toInt

/-- The difference of operands of one sign is exact. -/
theorem subC_toInt_of_sign_eq {a b : Word} (cin : Bool) (h : a.getLsbD 15 = b.getLsbD 15) :
    (subC a b cin).1.toInt = a.toInt - b.toInt - (!cin).toNat := by
  rw [getLsbD_15_eq_decide, getLsbD_15_eq_decide, decide_eq_decide] at h
  have ha := BitVec.two_mul_toInt_lt (x := a)
  have ha' := BitVec.le_two_mul_toInt (x := a)
  have hb := BitVec.two_mul_toInt_lt (x := b)
  have hb' := BitVec.le_two_mul_toInt (x := b)
  have hd : (subC a b cin).1.toInt = (a.toInt - b.toInt - (!cin).toNat).bmod (2 ^ 16) := by
    rw [subC_result, BitVec.toInt_sub, BitVec.toInt_sub]
    cases cin <;> simp
  have hborrow := Bool.toNat_le (!cin)
  rw [hd, Int.bmod_eq_of_le] <;> omega

/-- `S = V` says that the exact difference is not negative (R166), with or without a borrow in. Operands of one sign
do not overflow; for operands of two signs, V is the complement of S or S itself as `a` is negative or not. -/
theorem sign_beq_compareOverflow (a b : Word) (cin : Bool) :
    ((subC a b cin).1.getLsbD 15 == compareOverflow a b (subC a b cin).1) =
      decide (b.toInt + (!cin).toNat ≤ a.toInt) := by
  by_cases h : a.getLsbD 15 = b.getLsbD 15
  · have hv : compareOverflow a b (subC a b cin).1 = false := by
      rw [compareOverflow, h, bne_self_eq_false, Bool.false_and]
    rw [hv, getLsbD_15_eq_decide, subC_toInt_of_sign_eq cin h, beq_false, ← decide_not, decide_eq_decide]
    omega
  · have hv : ((subC a b cin).1.getLsbD 15 == compareOverflow a b (subC a b cin).1) = !a.getLsbD 15 := by
      rw [compareOverflow, bne_iff_ne.2 h]
      cases (subC a b cin).1.getLsbD 15 <;> simp
    rw [getLsbD_15_eq_decide, getLsbD_15_eq_decide, decide_eq_decide] at h
    rw [hv, getLsbD_15_eq_decide, ← decide_not, decide_eq_decide]
    have hborrow := Bool.toNat_le (!cin)
    omega

/-! #### What the condition codes say of two operands -/

/-- With C "no borrow", Z equality and `S = V` "signed at least", each condition says of the operands what its name
says (R160), at any width. -/
theorem condHolds_eq_condSays {n : Nat} (cc : Cond) (a b : BitVec n) {sgn v : Bool} (h : (sgn == v) = b.sle a) :
    condHolds cc (b.ule a) (a == b) sgn v = condSays cc a b := by
  cases cc with
  | eq | ne | uge => rfl
  | ult => rw [condHolds, condSays, BitVec.ule_eq_not_ult, Bool.not_not]
  | ge => exact h
  | lt => rw [condHolds, condSays, bne, h, BitVec.sle_eq_not_slt, Bool.not_not]
  | ugt =>
    rw [condHolds, condSays, BEq.comm, Bool.eq_iff_iff, BitVec.ult_iff_toNat_lt, Nat.lt_iff_le_and_ne,
      ne_eq, BitVec.toNat_inj]
    simp [BitVec.ule_iff_toNat_le]
  | gt => rw [condHolds, condSays, h, BitVec.slt_eq_sle_and_ne, bne, BEq.comm]

/-- What `cmp` leaves in SR (R162, R163). -/
theorem compareFlags_true (f : SR) (cc : Cond) (a b : Word) :
    compareFlags f cc a b true true =
      { f with t := condSays cc a b, c := decide (b.toNat ≤ a.toNat), z := decide (a = b) } := by
  have hsign : ((subC a b true).1.getLsbD 15 == compareOverflow a b (subC a b true).1) = b.sle a := by
    simpa [BitVec.sle_eq_decide] using sign_beq_compareOverflow a b true
  have hzero : (a - b == 0#16) = (a == b) := by
    rw [Bool.eq_iff_iff, beq_iff_eq, beq_iff_eq]
    exact sub_eq_zero
  rw [compareFlags_eq, ← condHolds_eq_condSays cc a b hsign, subC_true]
  simp only [Bool.true_and, hzero]
  rfl

/-! #### `cmp`, as the end of a compare -/

theorem exec_cmpCrr_of_none {s : State} (cc : Cond) (rs rn : Reg) (h : s.pfx = none) :
    exec (.cmpCrr cc rs rn) s = .next (finishCompare s cc (s.reg rs) (s.reg rn) true true) :=
  unprefixed_of_none _ h

theorem exec_cmpCrk (cc : Cond) (rs : Reg) (k : BitVec 5) (s : State) :
    exec (.cmpCrk cc rs k) s = .next (finishCompare s cc (s.reg rs) (immSign s k) true true) := rfl

/-- Settles O43, from the flags of a compare without a borrow in; the condition field is the word's Rd field. -/
theorem compareCompletes : Obligations.CompareCompletes := by
  refine ⟨fun c z n v => ⟨rfl, rfl, rfl, rfl, rfl, (decide_not ..).symm, rfl, rfl⟩, ?_, ?_⟩
  · intro cc rs rn s hpfx
    refine ⟨wordR3_toNat_of_opcode rfl, ?_⟩
    rw [exec_cmpCrr_of_none cc rs rn hpfx, finishCompare_eq, compareFlags_true, ← hpfx]
  · rintro cc rs k s imm rfl
    refine ⟨wordI2_toNat_of_opcode rfl, immSign_toInt_of_none k (by decide), ?_⟩
    rw [exec_cmpCrk, finishCompare_eq, compareFlags_true]

end Sys2Proof.Machine

/-! ### Proofs: moves, conditional select and set (43_moves_select.md R175 to R182) -/

namespace Sys2Proof.Machine

/-! #### The immediate under a pending prefix (30_encoding.md R90, 46_prefix.md R242) -/

theorem immediate_of_some {n : Nat} {s : State} {p : BitVec 11} (k : BitVec n) (short : Word) (h : s.pfx = some p) :
    immediate s k short = p ++ k.setWidth 5 := by
  simp [immediate, h]

/-- Nothing is extended: the prefix, then the low five bits of the field. -/
theorem immediate_toNat_of_some {n : Nat} {s : State} {p : BitVec 11} (k : BitVec n) (short : Word)
    (h : s.pfx = some p) : (immediate s k short).toNat = p.toNat * 32 + k.toNat % 32 := by
  rw [immediate_of_some k short h]
  exact (append_toNat p (k.setWidth 5)).trans (congrArg _ (BitVec.toNat_setWidth 5 k))

/-! #### The end of a plain move where no prefix is pending -/

/-- The latch is empty already: PC alone moves (10_state.md R26). -/
theorem State.advance_of_none {s : State} (h : s.pfx = none) : s.advance = { s with pc := s.pc + 1 } := by
  rw [State.advance, State.nextPc_eq, ← h]

/-- An instruction that ends in a plain move of `v` writes Rd and PC, and so no flag (10_state.md R34). -/
theorem exec_of_moveTo {i : Instr} {s : State} {rd : Reg} {v : Word} (hi : exec i s = moveTo s rd v)
    (h : s.pfx = none) : exec i s = .next { s with regs := s.regs.set rd v, pc := s.pc + 1 } := by
  have hadvance := State.advance_of_none (s := s.setReg rd v) h
  exact hi.trans (moveTo_next.2 ⟨h, hadvance.symm⟩)

/-! #### The instructions with an end or a value of their own -/

theorem exec_movKr (rd : Reg) (k : BitVec 8) (s : State) :
    exec (.movKr rd k) s = .next (s.setReg rd (immSign s k)).advance := rfl

/-- `mov Rs, SP` takes every value, odd ones too (R177). -/
theorem exec_movRq_of_none {s : State} (rs : Reg) (h : s.pfx = none) :
    exec (.movRq rs) s = .next { s with sp := s.reg rs, pc := s.pc + 1 } := by
  have hadvance := State.advance_of_none (s := { s with sp := s.reg rs }) h
  exact (unprefixed_of_none _ h).trans (congrArg _ hadvance)

theorem exec_setT (rd : Reg) (s : State) : exec (.setT rd) s = moveTo s rd (BitVec.ofNat 16 s.sr.t.toNat) := by
  have hbit : (if s.sr.t then 1#16 else 0#16) = BitVec.ofNat 16 s.sr.t.toNat := by cases s.sr.t <;> rfl
  exact congrArg (moveTo s rd) hbit

theorem exec_setNt (rd : Reg) (s : State) :
    exec (.setNt rd) s = moveTo s rd (BitVec.ofNat 16 (1 - s.sr.t.toNat)) := by
  have hbit : (if s.sr.t then 0#16 else 1#16) = BitVec.ofNat 16 (1 - s.sr.t.toNat) := by cases s.sr.t <;> rfl
  exact congrArg (moveTo s rd) hbit

/-! #### The words of type R2, as numbers (30_encoding.md R99) -/

theorem wordR2_toNat_of_opcode {op : BitVec 5} {d s : BitVec 3} {v : Nat} (h : op.toNat = v) :
    (wordR2 op d s).toNat = v + 256 * d.toNat + 32 * s.toNat := by
  rw [wordR2_toNat, h]
  omega

/-! #### The obligations -/

/-- Settles O46, from the ends of the three moves; the opcode of `mov Rs, Rd` is 0, so its word is its fields. -/
theorem movesComplete : Obligations.MovesComplete := by
  refine ⟨fun rd rs s hpfx => ⟨?_, exec_of_moveTo rfl hpfx⟩, ?_, fun rs s hpfx => exec_movRq_of_none rs hpfx⟩
  · rw [encode, wordR2_toNat_of_opcode (v := 0) rfl, Nat.zero_add]
  · rintro rd k s imm rfl
    exact ⟨wordI1_toNat_of_opcode rfl, immSign_toInt_of_none k (by decide),
      fun p hp => immediate_toNat_of_some k _ hp, exec_movKr rd k s⟩

/-- Settles O47: each of the five ends in a plain move of the value that T chooses. -/
theorem selectAndSetComplete : Obligations.SelectAndSetComplete := by
  intro rd rs rn s hpfx
  refine ⟨⟨wordR2_toNat_of_opcode rfl, wordR2_toNat_of_opcode rfl, wordR2_toNat_of_opcode rfl⟩, ?_⟩
  exact ⟨exec_of_moveTo rfl hpfx, exec_of_moveTo rfl hpfx, exec_of_moveTo rfl hpfx,
    exec_of_moveTo (exec_setT rd s) hpfx, exec_of_moveTo (exec_setNt rd s) hpfx⟩

end Sys2Proof.Machine

/-! ### Proofs: jumps and branches (44_branch_call.md R190 to R194) -/

namespace Sys2Proof.Machine

/-! #### The two ways on -/

/-- A jump writes PC and empties the latch: no flag, no register (R190). -/
theorem State.jumpTo_eq (s : State) (target : Word) : s.jumpTo target = { s with pc := target, pfx := none } := rfl

theorem State.advance_eq (s : State) : s.advance = { s with pc := s.pc + 1, pfx := none } := by
  rw [State.advance, State.nextPc_eq]

/-- Either way on empties the latch; the condition chooses PC alone. -/
theorem ite_jumpTo_advance (s : State) (target : Word) (p : Prop) [Decidable p] :
    (if p then s.jumpTo target else s.advance) = { s with pc := if p then target else s.pc + 1, pfx := none } := by
  by_cases hp : p
  · rw [if_pos hp, if_pos hp, State.jumpTo_eq]
  · rw [if_neg hp, if_neg hp, State.advance_eq]

/-! #### What the instructions do -/

theorem exec_jmpK (a : BitVec 9) (s : State) :
    exec (.jmpK a) s = .next { s with pc := branchTarget s a, pfx := none } := rfl

theorem exec_brT (a : BitVec 9) (s : State) :
    exec (.brT a) s =
      .next { s with pc := if s.sr.t = true then branchTarget s a else s.pc + 1, pfx := none } :=
  congrArg _ (ite_jumpTo_advance s (branchTarget s a) (s.sr.t = true))

/-- The model asks whether T is 1 and falls through; the other reading asks whether T is 0 and jumps. -/
theorem exec_brNt (a : BitVec 9) (s : State) :
    exec (.brNt a) s =
      .next { s with pc := if s.sr.t = false then branchTarget s a else s.pc + 1, pfx := none } := by
  have hswap : (if s.sr.t = true then s.advance else s.jumpTo (branchTarget s a)) =
      if s.sr.t = false then s.jumpTo (branchTarget s a) else s.advance := by
    cases s.sr.t <;> rfl
  exact congrArg _ (hswap.trans (ite_jumpTo_advance s _ _))

theorem exec_jmpR_of_none {s : State} (rs : Reg) (h : s.pfx = none) :
    exec (.jmpR rs) s = .next { s with pc := s.reg rs } := by
  have hjump : s.jumpTo (s.reg rs) = { s with pc := s.reg rs } := by
    rw [State.jumpTo_eq, ← h]
  exact (unprefixed_of_none _ h).trans (congrArg _ hjump)

/-! #### The words of type J, as numbers (30_encoding.md R97) -/

theorem wordJ_toNat_of_opcode {op : BitVec 5} {a : BitVec 9} {v : Nat} (h : op.toNat * 512 = v) :
    (wordJ op a).toNat = v + a.toNat := by
  rw [wordJ_toNat, h]

/-- Settles O48: the target is the model's `branchTarget`, and each instruction does what its equation says. -/
theorem jumpsAndBranchesComplete : Obligations.JumpsAndBranchesComplete := by
  refine ⟨?_, fun rs s hpfx => exec_jmpR_of_none rs hpfx⟩
  rintro a s base imm target rfl rfl htarget
  have hbranch : target = branchTarget s a := htarget
  rw [hbranch]
  exact ⟨⟨wordJ_toNat_of_opcode rfl, wordJ_toNat_of_opcode rfl, wordJ_toNat_of_opcode rfl⟩,
    immSign_toInt_of_none a (by decide), exec_jmpK a s, exec_brT a s, exec_brNt a s⟩

end Sys2Proof.Machine

/-! ### Proofs: the prefix instruction (46_prefix.md R240) -/

namespace Sys2Proof.Machine

/-! #### The substituted immediate -/

/-- The mask `0b11111` keeps the low five bits. -/
theorem and_31_eq_setWidth' (v : Word) : v &&& 31#16 = (v.setWidth 5).setWidth' (by decide) := by
  apply BitVec.eq_of_toNat_eq
  rw [BitVec.toNat_and, BitVec.toNat_setWidth', BitVec.toNat_setWidth]
  exact Nat.and_two_pow_sub_one_eq_mod v.toNat 5

/-- The model's concatenation is the spec's `(p_imm << 5) | (imm & 0b11111)`. -/
theorem append_setWidth_eq_or (p : BitVec 11) (v : Word) :
    p ++ v.setWidth 5 = (p.setWidth 16 <<< 5) ||| (v &&& 31#16) := by
  rw [BitVec.append_def, BitVec.shiftLeftZeroExtend_eq, and_31_eq_setWidth']

/-- Sign extension of a field of five bits or more does not touch its low five bits. -/
theorem setWidth_signExtend {n : Nat} (k : BitVec n) (hn : 5 ≤ n) :
    (k.signExtend 16).setWidth 5 = k.setWidth 5 := by
  ext i hi
  have hin : i < n := by omega
  have hi16 : i < 16 := by omega
  simp [BitVec.getElem_signExtend, hin, hi16]

/-- The immediate under the latch, from the one without a prefix: an extension that keeps the field's low five bits
makes no difference to it. -/
theorem immediate_of_some_eq_or {n : Nat} {s t : State} {p : BitVec 11} (k : BitVec n) (short : Word)
    (hs : s.pfx = none) (ht : t.pfx = some p) (hlow : short.setWidth 5 = k.setWidth 5) :
    immediate t k short = (p.setWidth 16 <<< 5) ||| (immediate s k short &&& 31#16) := by
  rw [immediate_of_some k short ht, immediate_of_none k short hs, ← hlow, append_setWidth_eq_or]

/-! #### What `pfix` does -/

theorem exec_pfixK_of_none {s : State} (p : BitVec 11) (h : s.pfx = none) :
    exec (.pfixK p) s = .next { s with pfx := some p, pc := s.pc + 1 } := by
  rw [← State.nextPc_eq]
  exact unprefixed_of_none _ h

/-- A second `pfix` in a row is `PrefixMisuse` (R246). -/
theorem exec_pfixK_of_pending {s : State} (p : BitVec 11) (h : s.pfx ≠ none) :
    exec (.pfixK p) s = .fault (.prefixMisuse s.instrWord) :=
  unprefixed_of_pending _ h

/-- Settles O56: the latch that `pfix` leaves replaces all but the low five bits of the next immediate, and both
extensions keep those. -/
theorem prefixInstruction : Obligations.PrefixInstruction := by
  intro p s
  refine ⟨fun _ => wordP_toNat 0b11111#5 p, fun hpfx => ?_, exec_pfixK_of_pending p⟩
  refine ⟨_, exec_pfixK_of_none p hpfx, rfl, fun n k hn _ => ⟨?_, ?_⟩⟩
  · exact immediate_of_some_eq_or k _ hpfx rfl (BitVec.setWidth_setWidth_of_le k (by decide))
  · exact immediate_of_some_eq_or k _ hpfx rfl (setWidth_signExtend k hn)

end Sys2Proof.Machine

/-! ### Proofs: decoding and encoding (30_encoding.md R81 to R102) -/

namespace Sys2Proof

/-! #### Fields as numbers -/

theorem field_toNat (w : Word) (lo n : Nat) : (field w lo n).toNat = w.toNat / 2 ^ lo % 2 ^ n := by
  rw [field, BitVec.extractLsb'_toNat, Nat.shiftRight_eq_div_pow]

@[simp] theorem Reg.bits_ofBits (b : BitVec 3) : (Reg.ofBits b).bits = b := by
  revert b
  decide

@[simp] theorem Cond.bits_ofBits (b : BitVec 3) : (Cond.ofBits b).bits = b := by
  revert b
  decide

/-! #### The type of a word, as bounds on its top five bits (R82) -/

theorem formatOf_eq_r2_iff (w : Word) : formatOf w = .r2 ↔ (field w 11 5).toNat < 2 := by
  simp only [formatOf]
  split_ifs <;> simp <;> omega

theorem formatOf_eq_r3_iff (w : Word) :
    formatOf w = .r3 ↔ 2 ≤ (field w 11 5).toNat ∧ (field w 11 5).toNat < 6 := by
  simp only [formatOf]
  split_ifs <;> simp <;> omega

theorem formatOf_eq_j_iff (w : Word) :
    formatOf w = .j ↔ 6 ≤ (field w 11 5).toNat ∧ (field w 11 5).toNat < 8 := by
  simp only [formatOf]
  split_ifs <;> simp <;> omega

theorem formatOf_eq_i1_iff (w : Word) :
    formatOf w = .i1 ↔ 8 ≤ (field w 11 5).toNat ∧ (field w 11 5).toNat < 20 := by
  simp only [formatOf]
  split_ifs <;> simp <;> omega

theorem formatOf_eq_i2_iff (w : Word) :
    formatOf w = .i2 ↔ 20 ≤ (field w 11 5).toNat ∧ (field w 11 5).toNat < 28 := by
  simp only [formatOf]
  split_ifs <;> simp <;> omega

theorem formatOf_eq_p_iff (w : Word) : formatOf w = .p ↔ 28 ≤ (field w 11 5).toNat := by
  simp only [formatOf]
  split_ifs <;> simp <;> omega

/-! #### The decoder on the words of each format -/

theorem decode_wordR2 (lay : R3Layout) (op : BitVec 5) (d s : BitVec 3) :
    decode lay (wordR2 op d s) = decodeR2 (wordR2 op d s) := by
  have hfmt : formatOf (wordR2 op d s) = .r2 := (formatOf_eq_r2_iff _).2 (by rw [wordR2_top]; decide)
  simp only [decode, hfmt]

theorem decode_wordR3 {lay : R3Layout} {hi : BitVec 3} (lo : BitVec 2) (d s n : BitVec 3)
    (h : 2 ≤ hi.toNat ∧ hi.toNat < 6) :
    decode lay (wordR3 lay hi lo d s n) = decodeR3 lay (wordR3 lay hi lo d s n) := by
  have htop : (field (wordR3 lay hi lo d s n) 11 5).toNat = hi.toNat := by
    rw [wordR3_top, append_toNat 0#2 hi]
    simp
  have hfmt : formatOf (wordR3 lay hi lo d s n) = .r3 := (formatOf_eq_r3_iff _).2 (by rwa [htop])
  simp only [decode, hfmt]

theorem decode_wordJ (lay : R3Layout) {op : BitVec 5} (a : BitVec 9) (h : 24 ≤ op.toNat) :
    decode lay (wordJ op a) = decodeJ (wordJ op a) := by
  have htop : (field (wordJ op a) 11 5).toNat = op.toNat / 4 := by
    rw [wordJ_top, append_toNat 0#2 (op.extractLsb' 2 3), BitVec.extractLsb'_toNat, Nat.shiftRight_eq_div_pow]
    have := op.isLt
    simp
    omega
  have hfmt : formatOf (wordJ op a) = .j := (formatOf_eq_j_iff _).2 (by omega)
  simp only [decode, hfmt]

theorem decode_wordI1 (lay : R3Layout) {op : BitVec 5} (d : BitVec 3) (k : BitVec 8)
    (h : 8 ≤ op.toNat ∧ op.toNat < 20) : decode lay (wordI1 op d k) = decodeI1 (wordI1 op d k) := by
  have hfmt : formatOf (wordI1 op d k) = .i1 := (formatOf_eq_i1_iff _).2 (by rwa [wordI1_op])
  simp only [decode, hfmt]

theorem decode_wordI2 (lay : R3Layout) {op : BitVec 5} (d s : BitVec 3) (k : BitVec 5)
    (h : 20 ≤ op.toNat ∧ op.toNat < 28) : decode lay (wordI2 op d s k) = decodeI2 (wordI2 op d s k) := by
  have hfmt : formatOf (wordI2 op d s k) = .i2 := (formatOf_eq_i2_iff _).2 (by rwa [wordI2_op])
  simp only [decode, hfmt]

theorem decode_wordP (lay : R3Layout) {op : BitVec 5} (a : BitVec 11) (h : 28 ≤ op.toNat) :
    decode lay (wordP op a) = decodeP (wordP op a) := by
  have hfmt : formatOf (wordP op a) = .p := (formatOf_eq_p_iff _).2 (by rwa [wordP_op])
  simp only [decode, hfmt]

/-! #### Decoding an encoded instruction -/

/-- `mov Rs, Rd` shares its opcode with the row `nop`, which the word of `mov r0, r0` decodes to (log entry 7). -/
theorem decode_encode_movRr (lay : R3Layout) {rd rs : Reg} (h : ¬(rd = .r0 ∧ rs = .r0)) :
    decode lay (encode lay (.movRr rd rs)) = .movRr rd rs := by
  rw [encode, decode_wordR2, decodeR2, wordR2_op, wordR2_d, wordR2_s, Reg.ofBits_bits, Reg.ofBits_bits]
  exact if_neg h

/-- The word of each row has the type of the row, and its fields are those the row was encoded with. -/
theorem decode_encode (lay : R3Layout) {i : Instr} (h : i.wf = true) : decode lay (encode lay i) = i := by
  cases i with
  | movRr rd rs => exact decode_encode_movRr lay (by simpa [Instr.wf] using h)
  | movRq | zextRr | sextRr | lsrbRr | asrbRr | lslbRr | sextwRr | lsrRr | lsrcRr | asrRr | movwPr | sel0rr
  | selR0r | negRr | notRr | jmpR | callR | reservedR2Op10010 | reservedR2Op10011 | movSr | movRs | setNt | setT
  | ret | reti | dint | eint | halt | reservedR2Op11101 | reservedR2Op11110 | reservedR2Op11111 =>
    simp [encode, decode_wordR2, decodeR2, wordR2_op, wordR2_d, wordR2_s]
  | cmpCrr | cmpcCrr | subcRrr | subRrr | andRrr | orRrr | selRrr | reservedR3Op01111 | xorRrr | adcRrr | addRrr
  | movwNr | movzbNr | movsbNr | movwRn | movbRn =>
    simp [encode, decode_wordR3, decodeR3, wordR3_hi, wordR3_lo, wordR3_d, wordR3_s, wordR3_rn]
  | reservedJOp11000 | reservedJOp11001 | reservedJOp11010 | reservedJOp11011 | brNt | brT | addKq | jmpK =>
    simp [encode, decode_wordJ, decodeJ, wordJ_row, wordJ_a]
  | movwAr | movsbAr | movwRa | movbRa | movKr | subKr | addKr | leaQr | movwQr | movsbQr | movwRq | movbRq =>
    simp [encode, decode_wordI1, decodeI1, wordI1_op, wordI1_d, wordI1_k]
  | cmpCrk | cmpcCrk | andKr | leaMr | movwMr | movsbMr | movwRm | movbRm =>
    simp [encode, decode_wordI2, decodeI2, wordI2_op, wordI2_d, wordI2_s, wordI2_k]
  | reservedPOp11100 | reservedPOp11101 | call | pfixK =>
    simp [encode, decode_wordP, decodeP, wordP_op, wordP_a]
  | nop => cases lay <;> decide

/-- Settles O1: one case for each row, by the fields of the words of its format. -/
theorem decodeOfEncodeIsIdentity : Obligations.DecodeOfEncodeIsIdentity :=
  fun lay _ => decode_encode lay

end Sys2Proof

/-! ### Proofs: outside type R2 no bit is ignored (30_encoding.md R102) -/

namespace Sys2Proof

/-! #### A word is made of its fields (R81) -/

theorem wordP_of_fields {w : Word} {op : BitVec 5} (hop : (field w 11 5).toNat = op.toNat) :
    wordP op (field w 0 11) = w := by
  apply BitVec.eq_of_toNat_eq
  rw [wordP_toNat, ← hop, field_toNat, field_toNat]
  omega

theorem wordI1_of_fields {w : Word} {op : BitVec 5} {d : BitVec 3} (hop : (field w 11 5).toNat = op.toNat)
    (hd : d = field w 8 3) : wordI1 op d (field w 0 8) = w := by
  apply BitVec.eq_of_toNat_eq
  rw [wordI1_toNat, ← hop, hd, field_toNat, field_toNat, field_toNat]
  omega

theorem wordI2_of_fields {w : Word} {op : BitVec 5} {d s : BitVec 3} (hop : (field w 11 5).toNat = op.toNat)
    (hd : d = field w 8 3) (hs : s = field w 5 3) : wordI2 op d s (field w 0 5) = w := by
  apply BitVec.eq_of_toNat_eq
  rw [wordI2_toNat, ← hop, hd, hs, field_toNat, field_toNat, field_toNat, field_toNat]
  omega

theorem wordJ_of_fields {w : Word} {op : BitVec 5} (htop : (field w 11 5).toNat < 8)
    (hop : op.toNat = (field w 11 5).toNat * 4 + (field w 9 3).toNat % 4) :
    wordJ op (field w 0 9) = w := by
  apply BitVec.eq_of_toNat_eq
  rw [field_toNat] at htop
  rw [wordJ_toNat, hop, field_toNat, field_toNat, field_toNat]
  omega

/-- The words of type R3 under the other layout, as numbers. -/
theorem wordR3_toNat_rn20 (hi : BitVec 3) (lo : BitVec 2) (d s n : BitVec 3) :
    (wordR3 .rn20 hi lo d s n).toNat =
      hi.toNat * 2048 + d.toNat * 256 + s.toNat * 32 + lo.toNat * 8 + n.toNat := by
  have h := append_toNat (0#2 ++ hi ++ d ++ s ++ lo) n
  rw [append_toNat (0#2 ++ hi ++ d ++ s) lo, append_toNat (0#2 ++ hi ++ d) s, append_toNat (0#2 ++ hi) d,
    append_toNat 0#2 hi] at h
  refine Eq.trans h ?_
  simp
  omega

/-- The opcode of type R3 as a number, from the number of the word. -/
theorem r3Opcode_toNat (lay : R3Layout) (w : Word) :
    (field w 11 3 ++ r3LowOp lay w).toNat = (field w 11 3).toNat * 4 + (r3LowOp lay w).toNat :=
  append_toNat (field w 11 3) (r3LowOp lay w)

theorem wordR3_of_fields {lay : R3Layout} {w : Word} {hi : BitVec 3} {lo : BitVec 2} {d s n : BitVec 3}
    (htop : (field w 11 5).toNat < 8)
    (hop : (field w 11 3 ++ r3LowOp lay w).toNat = hi.toNat * 4 + lo.toNat)
    (hd : d = field w 8 3) (hs : s = field w 5 3) (hn : n = (r3Rn lay w).bits) : wordR3 lay hi lo d s n = w := by
  have hlo := lo.isLt
  rw [r3Opcode_toNat] at hop
  rw [field_toNat] at htop
  apply BitVec.eq_of_toNat_eq
  rw [hd, hs, hn]
  cases lay with
  | rn42 =>
    simp only [r3LowOp, r3Rn, Reg.bits_ofBits, wordR3_toNat, field_toNat] at hop ⊢
    omega
  | rn20 =>
    simp only [r3LowOp, r3Rn, Reg.bits_ofBits, wordR3_toNat_rn20, field_toNat] at hop ⊢
    omega

/-! #### Encoding a decoded word, type by type (R102): the opcode of the row is the one it was decoded from -/

theorem encode_decodeP (lay : R3Layout) {w : Word} (h : formatOf w = .p) (hr : (decodeP w).isReserved = false) :
    encode lay (decodeP w) = w := by
  have htop := (formatOf_eq_p_iff w).1 h
  have hlt := (field w 11 5).isLt
  unfold decodeP at hr ⊢
  split at hr
  · cases hr
  · cases hr
  · exact wordP_of_fields ‹_›
  · exact wordP_of_fields (op := 31#5) (by grind)

theorem encode_decodeI1 (lay : R3Layout) {w : Word} (h : formatOf w = .i1) : encode lay (decodeI1 w) = w := by
  obtain ⟨hlow, hhigh⟩ := (formatOf_eq_i1_iff w).1 h
  unfold decodeI1
  split <;> exact wordI1_of_fields (by grind) (Reg.bits_ofBits _)

theorem encode_decodeI2 (lay : R3Layout) {w : Word} (h : formatOf w = .i2) : encode lay (decodeI2 w) = w := by
  obtain ⟨hlow, hhigh⟩ := (formatOf_eq_i2_iff w).1 h
  unfold decodeI2
  split <;> exact wordI2_of_fields (by grind) (by simp) (Reg.bits_ofBits _)

theorem encode_decodeJ (lay : R3Layout) {w : Word} (h : formatOf w = .j) (hr : (decodeJ w).isReserved = false) :
    encode lay (decodeJ w) = w := by
  obtain ⟨hlow, hhigh⟩ := (formatOf_eq_j_iff w).1 h
  have hrow : (field w 9 3).toNat / 4 = (field w 11 5).toNat % 2 := by
    rw [field_toNat, field_toNat]
    omega
  unfold decodeJ at hr ⊢
  split at hr
  · cases hr
  · cases hr
  · cases hr
  · cases hr
  all_goals exact wordJ_of_fields hhigh (by grind)

theorem encode_decodeR3 (lay : R3Layout) {w : Word} (h : formatOf w = .r3)
    (hr : (decodeR3 lay w).isReserved = false) : encode lay (decodeR3 lay w) = w := by
  obtain ⟨hlow, hhigh⟩ := (formatOf_eq_r3_iff w).1 h
  have hlt := (r3LowOp lay w).isLt
  have hop := r3Opcode_toNat lay w
  have hhi : (field w 11 3).toNat = (field w 11 5).toNat := by
    rw [field_toNat] at hhigh
    rw [field_toNat, field_toNat]
    omega
  unfold decodeR3 at hr ⊢
  split at hr
  case h_8 => cases hr
  all_goals exact wordR3_of_fields (by omega) (by grind) (by simp) (Reg.bits_ofBits _) rfl

/-- Settles O2, type by type. -/
theorem encodeOfDecodeOutsideR2 : Obligations.EncodeOfDecodeOutsideR2 := by
  intro lay w hfmt hr
  cases h : formatOf w with
  | r2 => exact absurd h hfmt
  | r3 =>
    simp only [decode, h] at hr ⊢
    exact encode_decodeR3 lay h hr
  | j =>
    simp only [decode, h] at hr ⊢
    exact encode_decodeJ lay h hr
  | i1 =>
    simp only [decode, h]
    exact encode_decodeI1 lay h
  | i2 =>
    simp only [decode, h]
    exact encode_decodeI2 lay h
  | p =>
    simp only [decode, h] at hr ⊢
    exact encode_decodeP lay h hr

end Sys2Proof

/-! ### Proofs: types, reserved words and the ignored bits of type R2 (30_encoding.md R82, R99 to R103) -/

namespace Sys2Proof

/-! #### The decoded row has the type of the word (R82) -/

theorem decodeR2_format (w : Word) : (decodeR2 w).format = .r2 := by
  simp only [decodeR2]
  repeat' split
  all_goals rfl

theorem decodeR3_format (lay : R3Layout) (w : Word) : (decodeR3 lay w).format = .r3 := by
  unfold decodeR3
  split <;> rfl

theorem decodeJ_format (w : Word) : (decodeJ w).format = .j := by
  unfold decodeJ
  split <;> rfl

theorem decodeI1_format (w : Word) : (decodeI1 w).format = .i1 := by
  unfold decodeI1
  split <;> rfl

theorem decodeI2_format (w : Word) : (decodeI2 w).format = .i2 := by
  unfold decodeI2
  split <;> rfl

theorem decodeP_format (w : Word) : (decodeP w).format = .p := by
  unfold decodeP
  split <;> rfl

theorem decode_format (lay : R3Layout) (w : Word) : (decode lay w).format = formatOf w := by
  cases h : formatOf w <;> simp only [decode, h]
  case r2 => exact decodeR2_format w
  case r3 => exact decodeR3_format lay w
  case j => exact decodeJ_format w
  case i1 => exact decodeI1_format w
  case i2 => exact decodeI2_format w
  case p => exact decodeP_format w

/-! #### No word decodes to `mov r0, r0` (log entry 7) -/

theorem decodeR2_ne_movRr_r0_r0 (w : Word) : decodeR2 w ≠ .movRr .r0 .r0 := by
  simp only [decodeR2]
  split
  · split
    · simp
    · rename_i h
      simpa using h
  all_goals simp

/-- Type R2 alone has a row of this name. -/
theorem decode_wf (lay : R3Layout) (w : Word) : (decode lay w).wf = true := by
  rw [Instr.wf, bne_iff_ne]
  intro hmov
  have hfmt : formatOf w = .r2 := by
    rw [← decode_format lay w, hmov]
    rfl
  simp only [decode, hfmt] at hmov
  exact decodeR2_ne_movRr_r0_r0 w hmov

/-- A field is a literal exactly when its number is. -/
theorem field_eq_ofNat_iff (w : Word) (lo n v : Nat) :
    field w lo n = BitVec.ofNat n v ↔ w.toNat / 2 ^ lo % 2 ^ n = v % 2 ^ n := by
  rw [← BitVec.toNat_inj, field_toNat, BitVec.toNat_ofNat]

/-- Settles O3: both tables, the model's and R82's, are bounds on the number of the word. -/
theorem typeByHighBits : Obligations.TypeByHighBits := by
  intro lay w
  refine ⟨decode_format lay w, decode_wf lay w, ?_⟩
  simp only [formatOf_eq_i1_iff, formatOf_eq_i2_iff, formatOf_eq_p_iff, formatOf_eq_r2_iff, formatOf_eq_r3_iff,
    formatOf_eq_j_iff, ne_eq, field_eq_ofNat_iff, field_toNat]
  refine ⟨?_, ?_, trivial, ?_, ?_, ?_⟩ <;> omega

/-! #### Which rows are reserved, type by type (R100, R101) -/

theorem decodeR2_isReserved (w : Word) :
    (decodeR2 w).isReserved = true ↔
      (18 ≤ (field w 0 5).toNat ∧ (field w 0 5).toNat ≤ 21) ∨ 29 ≤ (field w 0 5).toNat := by
  simp only [decodeR2]
  split
  case h_1 => split <;> simp [Instr.isReserved, *]
  all_goals simp only [Instr.isReserved]; grind

theorem decodeR3_isReserved (lay : R3Layout) (w : Word) :
    (decodeR3 lay w).isReserved = true ↔ (field w 11 3 ++ r3LowOp lay w).toNat = 15 := by
  unfold decodeR3
  split <;> simp only [Instr.isReserved] <;> grind

theorem decodeJ_isReserved (w : Word) : (decodeJ w).isReserved = true ↔ (field w 9 3).toNat < 4 := by
  unfold decodeJ
  split <;> simp only [Instr.isReserved] <;> grind

theorem decodeI1_isReserved (w : Word) : (decodeI1 w).isReserved = false := by
  unfold decodeI1
  split <;> rfl

theorem decodeI2_isReserved (w : Word) : (decodeI2 w).isReserved = false := by
  unfold decodeI2
  split <;> rfl

theorem decodeP_isReserved {w : Word} (h : formatOf w = .p) :
    (decodeP w).isReserved = true ↔ (field w 11 5).toNat < 30 := by
  have htop := (formatOf_eq_p_iff w).1 h
  unfold decodeP
  split <;> simp only [Instr.isReserved] <;> grind

/-- Settles O4, type by type; each clause of the list belongs to one type. -/
theorem reservedWordsAreThoseListed : Obligations.ReservedWordsAreThoseListed := by
  intro w
  simp only [field_eq_ofNat_iff]
  cases h : formatOf w <;> simp only [decode, h]
  case r2 =>
    rw [formatOf_eq_r2_iff] at h
    rw [decodeR2_isReserved]
    simp only [field_toNat] at h ⊢
    omega
  case r3 =>
    rw [formatOf_eq_r3_iff] at h
    rw [decodeR3_isReserved, r3Opcode_toNat]
    simp only [r3LowOp, field_toNat] at h ⊢
    omega
  case j =>
    rw [formatOf_eq_j_iff] at h
    rw [decodeJ_isReserved]
    simp only [field_toNat] at h ⊢
    omega
  case i1 =>
    rw [formatOf_eq_i1_iff] at h
    simp only [decodeI1_isReserved, field_toNat, Bool.false_eq_true, false_iff] at h ⊢
    omega
  case i2 =>
    rw [formatOf_eq_i2_iff] at h
    simp only [decodeI2_isReserved, field_toNat, Bool.false_eq_true, false_iff] at h ⊢
    omega
  case p =>
    rw [decodeP_isReserved h]
    rw [formatOf_eq_p_iff] at h
    simp only [field_toNat] at h ⊢
    omega

/-! #### The ignored bits of type R2 (R102) -/

theorem decodeR2_congr {w w' : Word} (hop : field w 0 5 = field w' 0 5)
    (hd : ((field w 0 5).toNat ∉ [1, 16, 18, 19, 21] ∧ (field w 0 5).toNat < 24) → field w 8 3 = field w' 8 3)
    (hs : ((field w 0 5).toNat ≤ 16 ∨ (field w 0 5).toNat = 21) → field w 5 3 = field w' 5 3) :
    decodeR2 w = decodeR2 w' := by
  simp only [List.mem_cons, List.not_mem_nil, or_false, not_or] at hd
  simp only [decodeR2, ← hop]
  split
  case h_1 | h_3 | h_4 | h_5 | h_6 | h_7 | h_8 | h_9 | h_10 | h_11 | h_12 | h_13 | h_14 | h_15 | h_16 =>
    rw [hd (by omega), hs (by omega)]
  case h_18 | h_21 | h_23 | h_24 => rw [hd (by omega)]
  case h_2 | h_17 | h_22 => rw [hs (by omega)]
  all_goals rfl

/-- Settles O5: the opcode chooses the row, and the row reads no field but those the statement lists for it. -/
theorem unusedR2BitsAreIgnored : Obligations.UnusedR2BitsAreIgnored := by
  intro lay w w' hw hw' hop hd hs
  simp only [decode, hw, hw']
  exact decodeR2_congr hop hd hs

/-- Settles O6. -/
theorem exampleWordsDecode : Obligations.ExampleWordsDecode := by
  unfold Obligations.ExampleWordsDecode
  decide

end Sys2Proof

namespace Sys2Proof.Machine

/-- The no-operation writes back the value it read (R185). -/
theorem exec_nop_of_none {s : State} (h : s.pfx = none) : exec .nop s = .next { s with pc := s.pc + 1 } := by
  have hregs : s.regs.set .r0 (s.reg .r0) = s.regs := Regs.set_get s.regs .r0
  rw [exec_of_moveTo (rd := .r0) (v := s.reg .r0) rfl h, hregs]

/-- Settles O7. -/
theorem zeroWordIsNoOperation : Obligations.ZeroWordIsNoOperation :=
  ⟨fun lay => by cases lay <;> decide, fun _ => rfl, fun _ => exec_nop_of_none⟩

end Sys2Proof.Machine

/-! ### Proofs: what an instruction leaves unchanged (10_state.md R20 to R35, 20_memory.md R58, 46_prefix.md R241) -/

namespace Sys2Proof.Machine

/-! #### Where a word store goes -/

/-- A word stands at an even address, so its second byte does not wrap (20_memory.md R55). -/
theorem toNat_add_one_of_even {a : Word} (h : a.getLsbD 0 = false) : (a + 1).toNat = a.toNat + 1 := by
  have heven : a.toNat % 2 = 0 := by
    rw [BitVec.getLsbD, Nat.testBit_zero] at h
    simpa using h
  bv_omega

theorem getLsbD_zero_and_mask (ea : Word) : (ea &&& 0xFFFE#16).getLsbD 0 = false := by
  simp

/-- The addresses outside the bytes that `i` stores to. -/
def OutsideStore (s : State) (i : Instr) (n : Nat) : Prop :=
  ∀ (a : Word) (len : Nat), storeSpan s i = some (a, len) → n < a.toNat ∨ a.toNat + len ≤ n

/-- A word stored at the even address below `ea` changes those two bytes alone. -/
theorem storeBytes_get_of_outside {s s' : State} {i : Instr} {ea : Word} (x y : Byte) {n : Nat}
    (hspan : storeSpan s i = some (ea &&& 0xFFFE#16, 2)) (hn : OutsideStore s i n) :
    Memory.get (storeBytes s' (ea &&& 0xFFFE#16) x y).data n = Memory.get s'.data n := by
  have hout := hn _ _ hspan
  have hnext := toNat_add_one_of_even (getLsbD_zero_and_mask ea)
  rw [storeBytes_get, if_neg (by omega), if_neg (by omega)]

/-! #### The frame of an instruction, by the lists of Safety.lean -/

/-- What `i` leaves as it was between `s` and `t`: every field that no list of Safety.lean says it writes. -/
structure KeepsUnwritten (i : Instr) (s t : State) : Prop where
  reg : ∀ r, dest i ≠ some r → (i = .reti ∧ FrameWord.reg r ∈ s.cfg.irqFrame.words) ∨ t.reg r = s.reg r
  sp : writesSp i = false → t.sp = s.sp
  tcz : writesTCZ i = false → t.sr.t = s.sr.t ∧ t.sr.c = s.sr.c ∧ t.sr.z = s.sr.z
  flagI : writesI i = false → t.sr.i = s.sr.i
  pc : writesPc i = false → t.pc = s.pc + 1
  pfx : (∀ p, i ≠ .pfixK p) → t.pfx = none
  draws : isLogical i = false → t.draws = s.draws
  data : ∀ n, OutsideStore s i n → Memory.get t.data n = Memory.get s.data n
  dataWf : Memory.wf s.data = true → Memory.wf t.data = true

/-- Where `i` answers a next state, it has kept what it does not write. -/
def Frames (i : Instr) (s : State) (r : Result) : Prop :=
  ∀ t, r = .next t → KeepsUnwritten i s t

theorem frames_next {i : Instr} {s u : State} (h : KeepsUnwritten i s u) : Frames i s (.next u) := by
  intro t ht
  obtain rfl := next_next.1 ht
  exact h

theorem frames_unprefixed {i : Instr} {s : State} {r : Result} (h : Frames i s r) : Frames i s (unprefixed s r) :=
  fun t ht => h t (unprefixed_next.1 ht).2

theorem frames_reserved (i : Instr) (s : State) : Frames i s (reserved s) :=
  fun t ht => absurd ht (reserved_ne_next s t)

/-! #### The shared ends of the meanings -/

theorem keepsUnwritten_advance (i : Instr) (s : State) : KeepsUnwritten i s s.advance :=
  ⟨fun _ _ => .inr rfl, fun _ => rfl, fun _ => ⟨rfl, rfl, rfl⟩, fun _ => rfl, fun _ => rfl, fun _ => rfl, fun _ => rfl,
    fun _ _ => rfl, id⟩

/-- A jump does what falling through does, but for PC. -/
theorem keepsUnwritten_jumpTo {i : Instr} (s : State) (target : Word) (hpc : writesPc i = true) :
    KeepsUnwritten i s (s.jumpTo target) :=
  { keepsUnwritten_advance i s with pc := fun h => absurd (h.symm.trans hpc) Bool.false_ne_true }

theorem keepsUnwritten_ite {i : Instr} {s u v : State} {b : Prop} [Decidable b] (hu : KeepsUnwritten i s u)
    (hv : KeepsUnwritten i s v) : KeepsUnwritten i s (if b then u else v) := by
  split
  · exact hu
  · exact hv

theorem keepsUnwritten_setReg_advance {i : Instr} {rd : Reg} (s : State) (v : Word) (hd : dest i = some rd) :
    KeepsUnwritten i s (s.setReg rd v).advance :=
  { keepsUnwritten_advance i s with
    reg := fun _ hr => .inr (Regs.get_set_of_ne _ _ fun e => hr (hd.trans (congrArg some e.symm))) }

theorem keepsUnwritten_setSp_advance {i : Instr} (s : State) (v : Word) (hsp : writesSp i = true) :
    KeepsUnwritten i s ({ s with sp := v }).advance :=
  { keepsUnwritten_advance i s with sp := fun h => absurd (h.symm.trans hsp) Bool.false_ne_true }

theorem keepsUnwritten_setI_advance {i : Instr} (s : State) (b : Bool) (hi : writesI i = true) :
    KeepsUnwritten i s ({ s with sr := { s.sr with i := b } }).advance :=
  { keepsUnwritten_advance i s with flagI := fun h => absurd (h.symm.trans hi) Bool.false_ne_true }

theorem keepsUnwritten_finishAlu {i : Instr} {rd : Reg} (s : State) (r : Word × Bool) (zin : Bool)
    (hd : dest i = some rd) (hf : writesTCZ i = true) : KeepsUnwritten i s (finishAlu s rd r zin) :=
  { keepsUnwritten_setReg_advance s r.1 hd with
    tcz := fun h => absurd (h.symm.trans hf) Bool.false_ne_true
    flagI := fun _ => rfl }

theorem keepsUnwritten_finishCompare {i : Instr} (s : State) (cc : Cond) (a b : Word) (cin zin : Bool)
    (hf : writesTCZ i = true) : KeepsUnwritten i s (finishCompare s cc a b cin zin) :=
  { keepsUnwritten_advance i s with
    tcz := fun h => absurd (h.symm.trans hf) Bool.false_ne_true
    flagI := fun _ => rfl }

/-- The free bit of `LOGIC_C` moves the counter. -/
theorem keepsUnwritten_finishLogic {i : Instr} {rd : Reg} (s : State) (v : Word) (hd : dest i = some rd)
    (hf : writesTCZ i = true) (hl : isLogical i = true) : KeepsUnwritten i s (finishLogic s rd v) := by
  have halu := keepsUnwritten_finishAlu s (v, logicCarry s) true hd hf
  rw [finishLogic_eq]
  exact ⟨halu.reg, fun _ => logicDrawn_sp s, halu.tcz, halu.flagI, halu.pc, halu.pfx,
    fun h => absurd (h.symm.trans hl) Bool.false_ne_true, fun _ _ => by simp only [logicDrawn_data],
    fun h => by simpa only [logicDrawn_data] using h⟩

theorem frames_moveTo {i : Instr} {rd : Reg} (s : State) (v : Word) (hd : dest i = some rd) :
    Frames i s (moveTo s rd v) :=
  frames_unprefixed (frames_next (keepsUnwritten_setReg_advance s v hd))

theorem frames_loadWord {i : Instr} {rd : Reg} (s : State) (ea : Word) (hd : dest i = some rd) :
    Frames i s (loadWord s rd ea) := by
  intro t ht
  obtain ⟨v, -, rfl⟩ := loadWord_next.1 ht
  exact keepsUnwritten_setReg_advance s v hd

theorem frames_loadSignedByte {i : Instr} {rd : Reg} (s : State) (ea : Word) (hd : dest i = some rd) :
    Frames i s (loadSignedByte s rd ea) := by
  intro t ht
  obtain ⟨b, -, rfl⟩ := loadSignedByte_next.1 ht
  exact keepsUnwritten_setReg_advance s _ hd

theorem frames_loadZeroByte {i : Instr} {rd : Reg} (s : State) (ea : Word) (hd : dest i = some rd) :
    Frames i s (loadZeroByte s rd ea) := by
  intro t ht
  obtain ⟨b, -, rfl⟩ := loadZeroByte_next.1 ht
  exact keepsUnwritten_setReg_advance s _ hd

theorem frames_storeWord {i : Instr} (s : State) (rd : Reg) {ea : Word}
    (hspan : storeSpan s i = some (ea &&& 0xFFFE#16, 2)) : Frames i s (storeWord s rd ea) := by
  intro t ht
  obtain ⟨u, hu, rfl⟩ := storeWord_next.1 ht
  obtain ⟨a, ha, -, rfl⟩ := writeWord_ok.1 hu
  obtain ⟨rfl, -⟩ := wordAddress_ok.1 ha
  exact { keepsUnwritten_advance i s with
    data := fun _ hn => storeBytes_get_of_outside _ _ hspan hn
    dataWf := storeBytes_wf _ _ _ }

theorem frames_storeByte {i : Instr} (s : State) (rd : Reg) {ea : Word} (hspan : storeSpan s i = some (ea, 1)) :
    Frames i s (storeByte s rd ea) := by
  intro t ht
  obtain ⟨u, hu, rfl⟩ := storeByte_next.1 ht
  obtain ⟨-, rfl⟩ := writeByte_ok.1 hu
  refine { keepsUnwritten_advance i s with data := fun n hn => ?_, dataWf := fun h => Memory.wf_set _ h ea.isLt }
  have hout := hn _ _ hspan
  exact Memory.get_set_of_ne _ _ (by omega)

theorem frames_callTo {i : Instr} (s : State) (target : Word) (hsp : writesSp i = true) (hpc : writesPc i = true)
    (hspan : storeSpan s i = some ((s.sp - 2) &&& 0xFFFE#16, 2)) : Frames i s (callTo s target) := by
  intro t ht
  obtain ⟨u, hu, rfl⟩ := callTo_next.1 ht
  obtain ⟨a, ha, -, rfl⟩ := push_ok.1 hu
  obtain ⟨rfl, -⟩ := wordAddress_ok.1 ha
  exact { keepsUnwritten_jumpTo s target hpc with
    sp := fun h => absurd (h.symm.trans hsp) Bool.false_ne_true
    data := fun _ hn => storeBytes_get_of_outside _ _ hspan hn
    dataWf := storeBytes_wf _ _ _ }

/-! #### The meanings with an end of their own -/

theorem frames_execMovwPr (rd rs : Reg) (s : State) : Frames (.movwPr rd rs) s (execMovwPr rd rs s) := by
  intro t ht
  obtain ⟨-, v, -, rfl⟩ := execMovwPr_next.1 ht
  exact keepsUnwritten_setReg_advance s v rfl

theorem frames_execPfixK (p : BitVec 11) (s : State) : Frames (.pfixK p) s (execPfixK p s) :=
  frames_unprefixed (frames_next { keepsUnwritten_advance (.pfixK p) s with pfx := fun h => absurd rfl (h p) })

theorem frames_execRet (s : State) : Frames .ret s (execRet s) := by
  intro t ht
  obtain ⟨-, target, -, rfl⟩ := execRet_next.1 ht
  exact { keepsUnwritten_jumpTo s target rfl with sp := nofun }

/-- A frame gives back the registers it holds, and no others (47_system.md R257; log entry 20). -/
theorem frames_execReti (s : State) : Frames .reti s (execReti s) := by
  intro t ht
  obtain ⟨-, hret⟩ := execReti_next.1 ht
  obtain ⟨vs, hvs, heq⟩ := returnFromInterrupt_ok.1 hret
  have hframe := returnFromInterrupt_frame hret
  refine ⟨fun r _ => ?_, nofun, nofun, nofun, nofun, fun _ => ?_, fun _ => ?_, fun _ _ => ?_, fun hwf => ?_⟩
  · by_cases hr : FrameWord.reg r ∈ s.cfg.irqFrame.words
    · exact .inl ⟨rfl, hr⟩
    · have hnot : FrameWord.reg r ∉ vs.map Prod.fst := by rwa [readFrame_words hvs, List.mem_reverse]
      rw [heq]
      exact .inr (restore_reg hnot s.advance)
  · rw [hframe]
  · rw [hframe]
  · rw [hframe]
  · rw [hframe]
    exact hwf

/-! #### All instructions -/

/-- Every instruction keeps what it does not write: each arm ends in one of the shared ends above. -/
theorem exec_frames (i : Instr) (s : State) : Frames i s (exec i s) := by
  cases i with
  | movRr | zextRr | sextRr | lsrbRr | asrbRr | lslbRr | sextwRr | sel0rr | selR0r | selRrr | setT | setNt =>
    exact frames_moveTo s _ rfl
  | nop =>
    refine frames_unprefixed (frames_next ?_)
    have hregs : s.setReg .r0 (s.reg .r0) = s := by rw [State.setReg, State.reg, Regs.set_get]
    rw [hregs]
    exact keepsUnwritten_advance .nop s
  | addRrr | adcRrr | subRrr | subcRrr | negRr | lsrRr | lsrcRr | asrRr =>
    exact frames_unprefixed (frames_next (keepsUnwritten_finishAlu s _ _ rfl rfl))
  | addKr | subKr => exact frames_next (keepsUnwritten_finishAlu s _ _ rfl rfl)
  | andRrr | orRrr | xorRrr | notRr =>
    exact frames_unprefixed (frames_next (keepsUnwritten_finishLogic s _ rfl rfl rfl))
  | andKr => exact frames_next (keepsUnwritten_finishLogic s _ rfl rfl rfl)
  | cmpCrr | cmpcCrr => exact frames_unprefixed (frames_next (keepsUnwritten_finishCompare s _ _ _ _ _ rfl))
  | cmpCrk | cmpcCrk => exact frames_next (keepsUnwritten_finishCompare s _ _ _ _ _ rfl)
  | movKr | leaMr | leaQr => exact frames_next (keepsUnwritten_setReg_advance s _ rfl)
  | addKq => exact frames_next (keepsUnwritten_setSp_advance s _ rfl)
  | movRq => exact frames_unprefixed (frames_next (keepsUnwritten_setSp_advance s _ rfl))
  | dint | eint => exact frames_unprefixed (frames_next (keepsUnwritten_setI_advance s _ rfl))
  | halt => exact frames_unprefixed (frames_next { keepsUnwritten_advance .halt s with })
  | pfixK p => exact frames_execPfixK p s
  | jmpK => exact frames_next (keepsUnwritten_jumpTo s _ rfl)
  | jmpR => exact frames_unprefixed (frames_next (keepsUnwritten_jumpTo s _ rfl))
  | brT => exact frames_next (keepsUnwritten_ite (keepsUnwritten_jumpTo s _ rfl) (keepsUnwritten_advance _ s))
  | brNt => exact frames_next (keepsUnwritten_ite (keepsUnwritten_advance _ s) (keepsUnwritten_jumpTo s _ rfl))
  | call => exact frames_callTo s _ rfl rfl rfl
  | callR => exact frames_unprefixed (frames_callTo s _ rfl rfl rfl)
  | ret => exact frames_execRet s
  | reti => exact frames_execReti s
  | movwAr | movwQr | movwMr => exact frames_loadWord s _ rfl
  | movsbAr | movsbQr | movsbMr => exact frames_loadSignedByte s _ rfl
  | movwRa | movwRq | movwRm => exact frames_storeWord s _ rfl
  | movbRa | movbRq | movbRm => exact frames_storeByte s _ rfl
  | movwNr => exact frames_unprefixed (frames_loadWord s _ rfl)
  | movsbNr => exact frames_unprefixed (frames_loadSignedByte s _ rfl)
  | movzbNr => exact frames_unprefixed (frames_loadZeroByte s _ rfl)
  | movwRn => exact frames_unprefixed (frames_storeWord s _ rfl)
  | movbRn => exact frames_unprefixed (frames_storeByte s _ rfl)
  | movwPr rd rs => exact frames_execMovwPr rd rs s
  | reservedR2Op10010 | reservedR2Op10011 | reservedR2Op11101 | reservedR2Op11110 | reservedR2Op11111
  | reservedR3Op01111 | reservedJOp11000 | reservedJOp11001 | reservedJOp11010 | reservedJOp11011
  | reservedPOp11100 | reservedPOp11101 | movSr | movRs => exact frames_reserved _ s

theorem exec_keepsUnwritten {i : Instr} {s t : State} (h : exec i s = .next t) : KeepsUnwritten i s t :=
  exec_frames i s t h

/-! #### The obligations -/

/-- Settles O19, from the frame; the default interrupt frame holds no general register. -/
theorem onlyTheDestinationRegisterChanges : Obligations.OnlyTheDestinationRegisterChanges := by
  intro i s t h r hr
  have hreg := (exec_keepsUnwritten h).reg r hr
  refine ⟨hreg, fun hdef => hreg.resolve_left fun ⟨_, hmem⟩ => ?_⟩
  rw [hdef] at hmem
  simp [IrqFrame.default] at hmem

/-- Settles O20. -/
theorem stackPointerWriters : Obligations.StackPointerWriters :=
  fun _ _ _ h => (exec_keepsUnwritten h).sp

/-- Settles O21. -/
theorem flagWriters : Obligations.FlagWriters :=
  fun _ _ _ h => ⟨(exec_keepsUnwritten h).tcz, (exec_keepsUnwritten h).flagI⟩

/-- Settles O23: the frame's PC as a number. -/
theorem programCounterAdvances : Obligations.ProgramCounterAdvances := by
  intro i s t h hi
  rw [(exec_keepsUnwritten h).pc hi]
  exact BitVec.toNat_add s.pc 1

/-- Settles O24: an instruction that stores nothing has no byte to leave out. -/
theorem memoryFrame : Obligations.MemoryFrame := by
  intro i s t h
  refine ⟨fun hnone n => ?_, fun a len hspan n hn => ?_⟩
  · exact (exec_keepsUnwritten h).data n fun a len hspan => by rw [hnone] at hspan; cases hspan
  · refine (exec_keepsUnwritten h).data n fun a' len' hspan' => ?_
    obtain ⟨rfl, rfl⟩ := Prod.mk.inj (Option.some.inj (hspan.symm.trans hspan'))
    exact hn

theorem exec_pfixK_next {p : BitVec 11} {s t : State} :
    exec (.pfixK p) s = .next t ↔ s.pfx = none ∧ t = { s with pfx := some p, pc := s.nextPc } :=
  unprefixed_next.trans (and_congr_right fun _ => next_next)

/-- Settles O25: `pfix` by its own equation, every other instruction by the frame. -/
theorem prefixLatchLifetime : Obligations.PrefixLatchLifetime := by
  intro i s t h
  refine ⟨?_, (exec_keepsUnwritten h).pfx⟩
  rintro p rfl
  obtain ⟨-, rfl⟩ := exec_pfixK_next.1 h
  rfl

end Sys2Proof.Machine

/-! ### Proofs: what every step keeps (10_state.md R38, R41, 20_memory.md R68, 46_prefix.md R249) -/

namespace Sys2Proof.Machine

/-! #### What no instruction and no entry writes -/

/-- The fields no instruction writes, `halt` included: it sets its own bit alone. -/
theorem exec_keeps_platform {i : Instr} {s t : State} (h : exec i s = .next t) :
    t.prog = s.prog ∧ t.cfg = s.cfg ∧ t.loaded = s.loaded ∧ t.irq = s.irq := by
  by_cases hi : i = .halt
  · subst hi
    obtain ⟨-, rfl⟩ := execHalt_next.1 h
    exact ⟨rfl, rfl, rfl, rfl⟩
  · have hfix := exec_keepsFixed s hi t h
    exact ⟨hfix.prog, hfix.cfg, hfix.loaded, hfix.irq⟩

theorem step_keeps_program {s t : State} (h : step s = .next t) :
    t.prog = s.prog ∧ t.cfg = s.cfg ∧ t.loaded = s.loaded := by
  rcases step_next h with ⟨-, rfl⟩ | ⟨-, v, u, -, hu, rfl⟩ | ⟨-, s0, w, u, hs0, -, hu, rfl⟩
  · exact ⟨rfl, rfl, rfl⟩
  · rw [enterInterrupt_frame hu]
    simp
  · obtain ⟨hprog, hcfg, hloaded, -⟩ := exec_keeps_platform hu
    rcases hs0 with rfl | rfl <;> simp [hprog, hcfg, hloaded]

/-- Settles O17. -/
theorem programMemoryIsConstant : Obligations.ProgramMemoryIsConstant := by
  refine ⟨fun s t => step_keeps_program, fun i s t h => ?_⟩
  obtain ⟨hprog, hcfg, hloaded, hirq⟩ := exec_keeps_platform h
  exact ⟨hprog, hcfg, hloaded, hirq, (exec_keepsUnwritten h).draws⟩

/-! #### The invariant -/

theorem State.inv_iff {s : State} :
    s.inv = true ↔
      Memory.wf s.data = true ∧ Memory.wf s.prog = true ∧ Memory.wf s.loaded = true ∧
        (s.halted = true → s.pfx = none) ∧ (s.cfg.irqVector = none → s.irq = false) := by
  unfold State.inv
  cases s.halted <;> cases s.irq <;> cases s.pfx <;> cases s.cfg.irqVector <;> simp [and_assoc]

theorem inv_drawn {s : State} (h : s.inv = true) : s.drawn.inv = true := h

/-- The platform raises a request only where there is an input. -/
theorem inv_platform {s : State} (h : s.inv = true) : (platform s).inv = true := by
  cases hv : s.cfg.irqVector with
  | none => rwa [platform_of_none hv]
  | some v =>
    obtain ⟨hdata, hprog, hloaded, hpfx, -⟩ := State.inv_iff.1 h
    simpa [State.inv_iff, hv] using ⟨hdata, hprog, hloaded, hpfx⟩

/-- The pushes of an entry keep data memory canonical; the entry writes nothing else the invariant speaks of. -/
theorem inv_enterInterrupt {s t : State} {v : Word} (hs : s.inv = true) (h : enterInterrupt s v = .ok t) :
    t.inv = true := by
  obtain ⟨hdata, hprog, hloaded, hpfx, hirq⟩ := State.inv_iff.1 hs
  have hwf : Memory.wf t.data = true := by
    obtain ⟨u, hu, rfl⟩ := enterInterrupt_ok.1 h
    have hpush := pushAll_wf hu hdata
    exact hpush
  rw [enterInterrupt_frame h]
  exact State.inv_iff.2 ⟨hwf, hprog, hloaded, hpfx, hirq⟩

/-- An instruction that halts a running machine is `halt`, which leaves the latch empty. -/
theorem inv_exec {i : Instr} {s t : State} (hs : s.inv = true) (hrun : s.halted = false) (h : exec i s = .next t) :
    t.inv = true := by
  obtain ⟨hdata, hprog, hloaded, -, hirq⟩ := State.inv_iff.1 hs
  obtain ⟨hprog', hcfg', hloaded', hirq'⟩ := exec_keeps_platform h
  have hframe := exec_keepsUnwritten h
  refine State.inv_iff.2 ⟨hframe.dataWf hdata, hprog' ▸ hprog, hloaded' ▸ hloaded, fun hhalt => ?_, ?_⟩
  · by_cases hi : i = .halt
    · exact hframe.pfx (by simp [hi])
    · rw [exec_halted_eq hi h, hrun] at hhalt
      cases hhalt
  · rwa [hcfg', hirq']

/-- Settles O14, by the ways a step can answer. -/
theorem stepKeepsInvariant : Obligations.StepKeepsInvariant := by
  intro s t hs h
  rcases step_next h with ⟨-, rfl⟩ | ⟨-, v, u, -, hu, rfl⟩ | ⟨hrun, s0, w, u, hs0, -, hu, rfl⟩
  · exact hs
  · exact inv_platform (inv_enterInterrupt (inv_drawn hs) hu)
  · rcases hs0 with rfl | rfl
    · exact inv_platform (inv_exec hs hrun hu)
    · exact inv_platform (inv_exec (inv_drawn hs) hrun hu)

/-! #### Reset, loading and starting (60_exceptions.md R290, 70_reset_and_hazards.md R300) -/

theorem inv_resetWith (cfg : Config) {p : ProgramMemory} {d : DataMemory} (hp : Memory.wf p = true)
    (hd : Memory.wf d = true) : (State.resetWith cfg p d).inv = true :=
  State.inv_iff.2 ⟨hd, hp, rfl, fun _ => rfl, fun _ => rfl⟩

/-- Settles O15: what the host loads is canonical. -/
theorem resetHasInvariant : Obligations.ResetHasInvariant := by
  refine ⟨inv_resetWith _ rfl rfl, fun cfg p d => ?_, fun s p d hs => ?_⟩
  · exact inv_resetWith cfg (Memory.wf_setAll p rfl) (Memory.wf_setAll d rfl)
  · obtain ⟨hdata, hprog, hloaded, hpfx, hirq⟩ := State.inv_iff.1 hs
    refine ⟨?_, ?_, inv_resetWith _ hprog hloaded⟩
    · exact State.inv_iff.2 ⟨hdata, Memory.wf_setAll p hprog, hloaded, hpfx, hirq⟩
    · exact State.inv_iff.2 ⟨Memory.wf_setAll d hdata, hprog, Memory.wf_setAll d hloaded, hpfx, hirq⟩

/-- Of two loads of an address the later stands. -/
theorem Memory.get_setAll_of_last {α : Type} (m : Memory α) (l₁ l₂ : List (Word × α)) {a : Word} (v : α)
    (h : ∀ e ∈ l₂, e.1 ≠ a) : Memory.get (Memory.setAll m (l₁ ++ (a, v) :: l₂)) a.toNat = some v := by
  rw [Memory.setAll_append, Memory.setAll, Memory.get_setAll_of_ne l₂ _ h, Memory.get_set_same]

@[simp] theorem State.start_prog (s : State) : s.start.prog = s.prog := rfl

theorem start_loadData_data (s : State) (d : List (Word × Byte)) :
    (s.loadData d).start.data = Memory.setAll s.loaded d := rfl

theorem start_loadProgram_prog (s : State) (p : List (Word × Word)) :
    (s.loadProgram p).start.prog = Memory.setAll s.prog p := rfl

/-- Settles O16: a start puts in place what the loads since the last one have made. -/
theorem resetState : Obligations.ResetState := by
  refine ⟨⟨rfl, rfl, rfl, rfl, rfl⟩, fun s => ⟨rfl, rfl, rfl, rfl, fun _ => rfl, rfl, rfl, rfl⟩, ?_, ?_⟩
  · intro s d
    refine ⟨?_, fun a hd => ?_, rfl⟩
    · rintro a b d1 d2 rfl hd2
      exact ⟨Memory.get_setAll_of_last s.data d1 d2 b hd2, Memory.get_setAll_of_last s.loaded d1 d2 b hd2⟩
    · rw [start_loadData_data, Memory.get_setAll_of_ne d _ hd]
      exact ⟨rfl, fun hempty => by rw [hempty]; rfl⟩
  · intro s p
    refine ⟨?_, fun a hp => ?_, rfl⟩
    · rintro a w p1 p2 rfl hp2
      exact Memory.get_setAll_of_last s.prog p1 p2 w hp2
    · rw [start_loadProgram_prog, Memory.get_setAll_of_ne p _ hp, State.start_prog]

end Sys2Proof.Machine

/-! ### Proofs: steps, runs, and the stops of an instruction word (60_exceptions.md R272, R274, R291, R292) -/

namespace Sys2Proof.Machine

/-! #### A step of a running machine -/

theorem step_of_running {s : State} (h : s.halted = false) : step s = boundary s := by
  rw [step, h]
  rfl

theorem step_of_not_acceptable {s : State} (h : s.halted = false) (ha : acceptable s = none) :
    step s = runInstr s := by
  rw [step_of_running h, boundary, ha]

theorem step_of_acceptable {s : State} {v : Word} (h : s.halted = false) (ha : acceptable s = some v) :
    step s =
      if Config.drawBit s.draws then driven (settle (enterInterrupt s.drawn v)) else runInstr s.drawn := by
  rw [step_of_running h, boundary, ha]

theorem runInstr_of_fetch {s : State} {w : Word} (h : fetch s = .ok w) :
    runInstr s = driven (exec (decode s.cfg.r3Layout w) s) := by
  rw [runInstr, h]

theorem runInstr_of_fetch_error {s : State} {f : Fault} (h : fetch s = .error f) : runInstr s = .fault f := by
  rw [runInstr, h]

theorem fetch_of_unmapped {s : State} (h : populated s.cfg.progMap s.pc.toNat = false) :
    fetch s = .error (.unmappedFetch s.pc) := by
  simp [fetch, progRead, h]

theorem fetch_of_unwritten {s : State} (h : populated s.cfg.progMap s.pc.toNat = true)
    (hw : Memory.get s.prog s.pc.toNat = none) : fetch s = .error (.unwrittenRead (.programWord s.pc)) := by
  simp [fetch, progRead, h, hw]

/-- Without `HAS_IRQ` the platform has nothing to drive, whatever the instruction answers. -/
theorem driven_exec_of_none {i : Instr} {s : State} (h : s.cfg.irqVector = none) :
    driven (exec i s) = exec i s := by
  cases he : exec i s with
  | next t =>
    obtain ⟨-, hcfg, -, -⟩ := exec_keeps_platform he
    rw [driven, platform_of_none (by rw [hcfg, h])]
  | fault f => rfl
  | refused r => rfl

/-- Settles O8. -/
theorem stepRunsTheDecodedInstruction : Obligations.StepRunsTheDecodedInstruction := by
  rintro s w i hrun hacc hmap hget rfl -
  have hstep : step s = driven (exec (decode s.cfg.r3Layout w) s) := by
    rw [step_of_not_acceptable hrun hacc, runInstr_of_fetch (fetch_ok.2 ⟨hmap, hget⟩)]
  exact ⟨hstep, fun hnone => hstep.trans (driven_exec_of_none hnone)⟩

/-- Settles O9. -/
theorem fetchFaults : Obligations.FetchFaults := by
  intro s hrun hacc
  rw [step_of_not_acceptable hrun hacc]
  exact ⟨fun hmap => runInstr_of_fetch_error (fetch_of_unmapped hmap),
    fun hmap hget => runInstr_of_fetch_error (fetch_of_unwritten hmap hget)⟩

/-- Settles O11: the free bit of the boundary chooses between the two steps. -/
theorem interruptAcceptance : Obligations.InterruptAcceptance := by
  intro s hrun
  refine ⟨fun v => ?_, step_of_not_acceptable hrun, fun v hv => ?_⟩
  · rw [acceptable_some]
    constructor
    · rintro ⟨hirq, hi, hpfx, -, hv⟩
      exact ⟨hv, hirq, hi, hpfx⟩
    · rintro ⟨hv, hirq, hi, hpfx⟩
      exact ⟨hirq, hi, hpfx, hrun, hv⟩
  · rw [step_of_acceptable hrun hv]
    split
    · exact .inl rfl
    · exact .inr rfl

/-! #### Reserved words, and words that take no prefix (30_encoding.md R100, R101; 46_prefix.md R246) -/

theorem exec_of_isReserved {i : Instr} (s : State) (h : i.isReserved = true) : exec i s = reserved s := by
  cases i with
  | reservedR2Op10010 | reservedR2Op10011 | reservedR2Op11101 | reservedR2Op11110 | reservedR2Op11111
  | reservedR3Op01111 | reservedJOp11000 | reservedJOp11001 | reservedJOp11010 | reservedJOp11011
  | reservedPOp11100 | reservedPOp11101 | movSr | movRs => rfl
  | _ => cases h

/-- Every row of type R2 or R3, and `pfix`, has its meaning under the prefix check. -/
theorem exec_of_pending {i : Instr} {s : State} (hr : i.isReserved = false)
    (hi : i.format = .r2 ∨ i.format = .r3 ∨ ∃ p, i = .pfixK p) (hp : s.pfx ≠ none) :
    exec i s = .fault (.prefixMisuse s.instrWord) := by
  cases i with
  | reservedR2Op10010 | reservedR2Op10011 | reservedR2Op11101 | reservedR2Op11110 | reservedR2Op11111
  | reservedR3Op01111 | movSr | movRs => cases hr
  | reservedJOp11000 | reservedJOp11001 | reservedJOp11010 | reservedJOp11011 | brNt | brT | addKq | jmpK
  | movwAr | movsbAr | movwRa | movbRa | movKr | subKr | addKr | leaQr | movwQr | movsbQr | movwRq | movbRq
  | cmpCrk | cmpcCrk | andKr | leaMr | movwMr | movsbMr | movwRm | movbRm | reservedPOp11100 | reservedPOp11101
  | call => simp [Instr.format] at hi
  | _ => exact unprefixed_of_pending _ hp

/-- Settles O26. -/
theorem prefixMisuse : Obligations.PrefixMisuse := fun _ s hp =>
  ⟨fun hr hi => exec_of_pending hr hi hp,
    fun hr hop => (exec_of_isReserved s hr).trans (reserved_of_fault hop),
    fun hr hop => (exec_of_isReserved s hr).trans (reserved_of_refuse hop)⟩

/-- The word a fetch answers is the one a stop reports (log entry 12). -/
theorem instrWord_of_fetch {s : State} {w : Word} (h : fetch s = .ok w) : s.instrWord = w := by
  rw [State.instrWord, (fetch_ok.1 h).2]
  rfl

theorem runInstr_of_isReserved {s : State} {w : Word} (h : fetch s = .ok w)
    (hr : (decode s.cfg.r3Layout w).isReserved = true) : runInstr s = driven (reserved s) := by
  rw [runInstr_of_fetch h, exec_of_isReserved s hr]

/-- Settles O27. -/
theorem reservedInstructionsStop : Obligations.ReservedInstructionsStop := by
  refine ⟨fun i s hr => ?_, fun s w hrun hacc hfetch hr => ?_⟩
  · rw [exec_of_isReserved s hr]
    exact ⟨reserved_of_fault, reserved_of_refuse⟩
  · rw [step_of_not_acceptable hrun hacc, runInstr_of_isReserved hfetch hr, ← instrWord_of_fetch hfetch]
    exact ⟨fun hop => by rw [reserved_of_fault hop, driven], fun hop => by rw [reserved_of_refuse hop, driven]⟩

/-! #### Only a reserved word is refused (93_implementation_defined.md U1, U2) -/

/-- What a refusal can be: that of a reserved row, under `RESERVED_OP = refuse`. -/
def RefusesReserved (i : Instr) (s : State) (r : Result) : Prop :=
  ∀ e, r = .refused e →
    i.isReserved = true ∧ s.cfg.reservedOp = .refuse ∧ e = .reservedInstruction s.instrWord

theorem refusesReserved_next (i : Instr) (s t : State) : RefusesReserved i s (.next t) := nofun

theorem refusesReserved_settle (i : Instr) (s : State) (r : Except Fault State) : RefusesReserved i s (settle r) :=
  fun e he => absurd he (settle_ne_refused r e)

theorem refusesReserved_unprefixed {i : Instr} {s : State} {r : Result} (h : RefusesReserved i s r) :
    RefusesReserved i s (unprefixed s r) := by
  unfold unprefixed
  split
  · exact h
  · nofun

theorem refusesReserved_reserved {i : Instr} (s : State) (h : i.isReserved = true) :
    RefusesReserved i s (reserved s) := by
  intro e he
  cases hop : s.cfg.reservedOp with
  | fault =>
    rw [reserved_of_fault hop] at he
    cases he
  | refuse =>
    rw [reserved_of_refuse hop] at he
    cases he
    exact ⟨h, rfl, rfl⟩

/-- Every arm but the reserved ones answers a next state or what a data or program access answers. -/
theorem exec_refusesReserved (i : Instr) (s : State) : RefusesReserved i s (exec i s) := by
  cases i with
  | reservedR2Op10010 | reservedR2Op10011 | reservedR2Op11101 | reservedR2Op11110 | reservedR2Op11111
  | reservedR3Op01111 | reservedJOp11000 | reservedJOp11001 | reservedJOp11010 | reservedJOp11011
  | reservedPOp11100 | reservedPOp11101 | movSr | movRs => exact refusesReserved_reserved s rfl
  | ret | reti | callR | movwPr | movwNr | movzbNr | movsbNr | movwRn | movbRn =>
    exact refusesReserved_unprefixed (refusesReserved_settle _ _ _)
  | call | movwAr | movwQr | movwMr | movsbAr | movsbQr | movsbMr | movwRa | movwRq | movwRm | movbRa | movbRq
  | movbRm => exact refusesReserved_settle _ _ _
  | addKr | subKr | andKr | cmpCrk | cmpcCrk | movKr | leaMr | leaQr | addKq | jmpK | brT | brNt =>
    exact refusesReserved_next _ _ _
  | _ => exact refusesReserved_unprefixed (refusesReserved_next _ _ _)

theorem driven_refused {r : Result} {e : Refusal} : driven r = .refused e ↔ r = .refused e := by
  cases r <;> simp [driven]

theorem runInstr_refused {s : State} {e : Refusal} (h : runInstr s = .refused e) :
    s.cfg.reservedOp = .refuse ∧
      ∃ w, e = .reservedInstruction w ∧ fetch s = .ok w ∧ (decode s.cfg.r3Layout w).isReserved = true := by
  cases hf : fetch s with
  | error f =>
    rw [runInstr_of_fetch_error hf] at h
    cases h
  | ok w =>
    rw [runInstr_of_fetch hf] at h
    obtain ⟨hr, hop, he⟩ := exec_refusesReserved _ s e (driven_refused.1 h)
    exact ⟨hop, w, he.trans (congrArg _ (instrWord_of_fetch hf)), rfl, hr⟩

/-- The draw that declines an interrupt does not move PC, so the refused word stands at PC of the state before. -/
theorem step_refused {s : State} {e : Refusal} (h : step s = .refused e) :
    s.cfg.reservedOp = .refuse ∧
      ∃ w, e = .reservedInstruction w ∧ fetch s = .ok w ∧ (decode s.cfg.r3Layout w).isReserved = true := by
  cases hh : s.halted with
  | true =>
    rw [step_of_halted hh] at h
    cases h
  | false =>
    cases ha : acceptable s with
    | none => exact runInstr_refused (step_of_not_acceptable hh ha ▸ h)
    | some v =>
      rw [step_of_acceptable hh ha] at h
      split at h
      · exact absurd (driven_refused.1 h) (settle_ne_refused _ _)
      · exact runInstr_refused (s := s.drawn) h

/-! #### How a run ends (R291) -/

/-- What the end of a run from `s` says of the state it names. -/
def EndSays (s : State) : RunEnd → Prop
  | .running t => t.halted = false
  | .halted t => t.halted = true
  | .faulted t f => t.halted = false ∧ step t = .fault f
  | .refused t e =>
    t.halted = false ∧ step t = .refused e ∧ s.cfg.reservedOp = .refuse ∧
      ∃ w, e = .reservedInstruction w ∧ fetch t = .ok w ∧ (decode t.cfg.r3Layout w).isReserved = true

/-- The parameters of a platform are those of the state the run has come from. -/
theorem endSays_of_cfg_eq {s t : State} {e : RunEnd} (hcfg : t.cfg = s.cfg) (h : EndSays t e) : EndSays s e := by
  cases e with
  | refused u r =>
    obtain ⟨hrun, hstep, hop, hw⟩ := h
    exact ⟨hrun, hstep, hcfg ▸ hop, hw⟩
  | running u => exact h
  | halted u => exact h
  | faulted u f => exact h

theorem runFor_of_halted {s : State} (k : Nat) (h : s.halted = true) : runFor k s = .halted s := by
  cases k <;> simp [runFor, h]

theorem runFor_succ_of_next {s t : State} (k : Nat) (h : s.halted = false) (hs : step s = .next t) :
    runFor (k + 1) s = runFor k t := by
  simp [runFor, h, hs]

theorem runFor_succ_of_fault {s : State} {f : Fault} (k : Nat) (h : s.halted = false) (hs : step s = .fault f) :
    runFor (k + 1) s = .faulted s f := by
  simp [runFor, h, hs]

theorem runFor_succ_of_refused {s : State} {e : Refusal} (k : Nat) (h : s.halted = false)
    (hs : step s = .refused e) : runFor (k + 1) s = .refused s e := by
  simp [runFor, h, hs]

/-- By induction on the fuel, by what the first step answers. -/
theorem runFor_endSays (k : Nat) (s : State) : EndSays s (runFor k s) := by
  induction k generalizing s with
  | zero => cases h : s.halted <;> simp [runFor, EndSays, h]
  | succ k ih =>
    cases h : s.halted with
    | true =>
      rw [runFor_of_halted _ h]
      exact h
    | false =>
      cases hs : step s with
      | next t =>
        rw [runFor_succ_of_next k h hs]
        obtain ⟨-, hcfg, -⟩ := step_keeps_program hs
        exact endSays_of_cfg_eq hcfg (ih t)
      | fault f =>
        rw [runFor_succ_of_fault k h hs]
        exact ⟨h, hs⟩
      | refused e =>
        rw [runFor_succ_of_refused k h hs]
        exact ⟨h, hs, step_refused hs⟩

/-- Settles O18. -/
theorem runEnds : Obligations.RunEnds := by
  intro k s
  have hend := runFor_endSays k s
  refine ⟨fun t h => ?_, fun t f h => ?_, fun t h => ?_, fun t r h => ?_, fun hop t r h => ?_⟩ <;> rw [h] at hend
  · exact hend
  · exact hend
  · exact hend
  · exact hend
  · obtain ⟨-, -, hrefuse, -⟩ := hend
    rw [hop] at hrefuse
    cases hrefuse

end Sys2Proof.Machine

/-! ### Proofs: the adder, the carries, and the logical instructions (40_arithmetic_logic.md R120 to R137) -/

namespace Sys2Proof.Machine

/-! #### The adder as numbers (R120) -/

theorem addC_result_toNat (a b : Word) (cin : Bool) :
    (addC a b cin).1.toNat = (a.toNat + b.toNat + cin.toNat) % 65536 :=
  BitVec.toNat_ofNat _ 16

/-- Three summands below 65536, 65536 and 2 carry at most one. -/
theorem addC_carry_toNat (a b : Word) (cin : Bool) :
    (addC a b cin).2.toNat = (a.toNat + b.toNat + cin.toNat) / 65536 := by
  have ha := a.isLt
  have hb := b.isLt
  have hc := Bool.toNat_le cin
  rw [addC_carry]
  by_cases h : 65536 ≤ a.toNat + b.toNat + cin.toNat
  · rw [decide_eq_true h, Bool.toNat_true]
    omega
  · rw [decide_eq_false h, Bool.toNat_false]
    omega

/-- The bitwise complement is `65535 - b`, as R120 and R135 write it. -/
theorem not_eq_65535_sub (b : Word) : ~~~b = 65535#16 - b :=
  (BitVec.allOnes_sub_eq_not b).symm

theorem subC_result_toNat (a b : Word) (cin : Bool) :
    ((subC a b cin).1.toNat : Int) = ((a.toNat : Int) - b.toNat - (1 - cin.toNat)) % 65536 := by
  have hb := b.isLt
  rw [subC, addC_result_toNat, BitVec.toNat_not]
  omega

/-- Settles O31. -/
theorem adder : Obligations.Adder := by
  refine ⟨fun a b cin => ⟨addC_result_toNat a b cin, addC_carry_toNat a b cin⟩, fun a b cin => ?_,
    subC_result_toNat, fun a b => ?_⟩
  · rw [subC, not_eq_65535_sub]
  · rw [subC_true]
    exact ⟨rfl, decide_eq_true_iff⟩

/-! #### The end of an ALU instruction where no prefix is pending -/

theorem finishAlu_of_none {s : State} (rd : Reg) (v : Word) (c zin : Bool) (h : s.pfx = none) :
    finishAlu s rd (v, c) zin =
      { s with
        regs := s.regs.set rd v
        sr := { s.sr with c := c, z := zin && decide (v = 0#16), t := zin && decide (v = 0#16) }
        pc := s.pc + 1 } := by
  rw [finishAlu_eq, ← h]
  rfl

theorem exec_adcRrr_of_none {s : State} (rd rs rn : Reg) (h : s.pfx = none) :
    exec (.adcRrr rd rs rn) s = .next (finishAlu s rd (addC (s.reg rs) (s.reg rn) s.sr.c) s.sr.z) :=
  unprefixed_of_none _ h

theorem exec_subcRrr_of_none {s : State} (rd rs rn : Reg) (h : s.pfx = none) :
    exec (.subcRrr rd rs rn) s =
      .next (finishAlu s rd (subC (s.reg rs) (s.reg rn) (subcCarryIn s)) s.sr.z) :=
  unprefixed_of_none _ h

theorem exec_negRr_of_none {s : State} (rd rs : Reg) (h : s.pfx = none) :
    exec (.negRr rd rs) s = .next (finishAlu s rd (subC 0#16 (s.reg rs) true) true) :=
  unprefixed_of_none _ h

/-- Settles O33: the adder's two answers, and Z that accumulates. -/
theorem addWithCarryCompletes : Obligations.AddWithCarryCompletes := by
  rintro rd rs rn s v hpfx rfl
  rw [exec_adcRrr_of_none rd rs rn hpfx]
  exact congrArg _ (finishAlu_of_none rd _ _ s.sr.z hpfx)

theorem not_subcCarryIn_of_notBorrow {s : State} (h : s.cfg.subcSense = .notBorrow) :
    (!subcCarryIn s).toNat = 1 - s.sr.c.toNat := by
  simp only [subcCarryIn, h]
  cases s.sr.c <;> rfl

theorem not_subcCarryIn_of_literal {s : State} (h : s.cfg.subcSense = .literal) :
    (!subcCarryIn s).toNat = s.sr.c.toNat := by
  simp [subcCarryIn, h]

theorem subC_eq (a b : Word) (cin : Bool) :
    subC a b cin = (a - b - BitVec.ofNat 16 (!cin).toNat, decide (b.toNat + (!cin).toNat ≤ a.toNat)) :=
  Prod.ext (subC_result a b cin) (subC_carry a b cin)

/-- Settles O37: what either sense takes off is the complement of the carry in. -/
theorem subtractWithCarryCompletes : Obligations.SubtractWithCarryCompletes := by
  rintro rd rs rn s borrow v hpfx hborrow rfl
  have hb : borrow = (!subcCarryIn s).toNat := by
    cases hsense : s.cfg.subcSense with
    | notBorrow => simp only [hborrow, hsense, not_subcCarryIn_of_notBorrow hsense]
    | literal => simp only [hborrow, hsense, not_subcCarryIn_of_literal hsense]
  rw [exec_subcRrr_of_none rd rs rn hpfx, subC_eq, finishAlu_of_none _ _ _ _ hpfx, hb]

/-- Settles O36: a difference from zero is zero exactly when what is taken off is. -/
theorem negateCompletes : Obligations.NegateCompletes := by
  intro rd rs s hpfx
  have hzero : (0#16 - s.reg rs = 0#16) = (s.reg rs = 0#16) := propext (sub_eq_zero.trans eq_comm)
  rw [exec_negRr_of_none rd rs hpfx, subC_true, finishAlu_true_of_none _ _ _ hpfx]
  simp only [hzero]
  rfl

/-! #### The logical instructions (R131 to R137) -/

theorem logicDrawn_eq (s : State) : logicDrawn s = { s with draws := (logicDrawn s).draws } := by
  unfold logicDrawn
  split <;> rfl

theorem logicDrawn_draws_of_draw {s : State} (h : s.cfg.logicC = .draw) : (logicDrawn s).draws = s.draws + 1 := by
  simp [logicDrawn, h]

theorem logicDrawn_of_zero {s : State} (h : s.cfg.logicC = .zero) : logicDrawn s = s := by
  simp [logicDrawn, h]

theorem logicDrawn_of_unchanged {s : State} (h : s.cfg.logicC = .unchanged) : logicDrawn s = s := by
  simp [logicDrawn, h]

theorem logicCarry_of_zero {s : State} (h : s.cfg.logicC = .zero) : logicCarry s = false := by
  simp [logicCarry, h]

theorem logicCarry_of_unchanged {s : State} (h : s.cfg.logicC = .unchanged) : logicCarry s = s.sr.c := by
  simp [logicCarry, h]

theorem finishLogic_eq_record (s : State) (rd : Reg) (v : Word) :
    finishLogic s rd v =
      { s with
        regs := s.regs.set rd v
        sr := { s.sr with c := logicCarry s, z := decide (v = 0#16), t := decide (v = 0#16) }
        pc := s.pc + 1
        pfx := none
        draws := (logicDrawn s).draws } := by
  rw [finishLogic_eq, logicDrawn_eq]
  rfl

/-- Settles O38: the five end alike, and `LOGIC_C` says what the end draws. -/
theorem logicCompletes : Obligations.LogicCompletes := by
  intro i rd s v hi
  have hexec : exec i s = .next (finishLogic s rd v) := by
    rcases hi with ⟨rs, rn, rfl, rfl, hpfx⟩ | ⟨rs, k, rfl, rfl⟩ | ⟨rs, rn, rfl, rfl, hpfx⟩ |
      ⟨rs, rn, rfl, rfl, hpfx⟩ | ⟨rs, rfl, rfl, hpfx⟩
    · exact unprefixed_of_none _ hpfx
    · rfl
    · exact unprefixed_of_none _ hpfx
    · exact unprefixed_of_none _ hpfx
    · rw [← not_eq_65535_sub]
      exact unprefixed_of_none _ hpfx
  refine ⟨logicCarry s, (logicDrawn s).draws, hexec.trans (congrArg _ (finishLogic_eq_record s rd v)),
    logicDrawn_draws_of_draw, fun h => ?_, fun h => ?_⟩
  · exact ⟨logicCarry_of_zero h, congrArg _ (logicDrawn_of_zero h)⟩
  · exact ⟨logicCarry_of_unchanged h, congrArg _ (logicDrawn_of_unchanged h)⟩

end Sys2Proof.Machine

/-! ### Proofs: register pairs, shifts and extensions (40_arithmetic_logic.md R123, R127, 41_shifts_extensions.md) -/

namespace Sys2Proof.Machine

/-! #### A register pair as one value of 32 bits -/

theorem pair_toNat (x y : Word) : (x ++ y : BitVec 32).toNat = x.toNat * 65536 + y.toNat :=
  append_toNat x y

theorem pair_toInt (x y : Word) : (x ++ y : BitVec 32).toInt = x.toInt * 65536 + y.toNat :=
  BitVec.toInt_append.trans (by simp [mul_comm])

theorem pair_eq_zero_iff (x y : Word) : (x ++ y : BitVec 32) = 0#32 ↔ x = 0#16 ∧ y = 0#16 := by
  rw [← BitVec.toNat_inj, ← BitVec.toNat_inj, ← BitVec.toNat_inj, pair_toNat, BitVec.toNat_ofNat, BitVec.toNat_ofNat]
  omega

/-! #### What two ALU ends in a row leave, the second with Z that accumulates (10_state.md R30) -/

theorem finishAlu_reg (s : State) (rd : Reg) (r : Word × Bool) (zin : Bool) (x : Reg) :
    (finishAlu s rd r zin).reg x = if x = rd then r.1 else s.reg x :=
  Regs.get_set s.regs rd x r.1

@[simp] theorem finishAlu_pfx (s : State) (rd : Reg) (r : Word × Bool) (zin : Bool) :
    (finishAlu s rd r zin).pfx = none := rfl

@[simp] theorem finishAlu_c (s : State) (rd : Reg) (r : Word × Bool) (zin : Bool) :
    (finishAlu s rd r zin).sr.c = r.2 := rfl

theorem finishAlu_pair {s t u : State} {d₁ d₂ : Reg} {r₁ r₂ : Word × Bool} (hd : d₁ ≠ d₂)
    (ht : t = finishAlu s d₁ r₁ true) (hu : u = finishAlu t d₂ r₂ t.sr.z) :
    u.reg d₁ = r₁.1 ∧ u.reg d₂ = r₂.1 ∧ u.sr.c = r₂.2 ∧
      u.sr.z = decide (r₁.1 = 0#16 ∧ r₂.1 = 0#16) ∧ u.sr.t = u.sr.z := by
  subst ht hu
  refine ⟨?_, ?_, rfl, (Bool.decide_and ..).symm, rfl⟩
  · rw [finishAlu_reg, if_neg hd, finishAlu_reg, if_pos rfl]
  · rw [finishAlu_reg, if_pos rfl]

/-! #### Sums and differences of pairs -/

theorem addC_pair (ah al bh bl : Word) :
    ((addC ah bh (addC al bl false).2).1 ++ (addC al bl false).1 : BitVec 32) = (ah ++ al) + (bh ++ bl) := by
  apply BitVec.eq_of_toNat_eq
  rw [pair_toNat, addC_result_toNat, addC_result_toNat, addC_carry_toNat, BitVec.toNat_add, pair_toNat, pair_toNat,
    Bool.toNat_false]
  omega

theorem addC_pair_carry (ah al bh bl : Word) :
    (addC ah bh (addC al bl false).2).2 =
      decide (4294967296 ≤ (ah ++ al : BitVec 32).toNat + (bh ++ bl : BitVec 32).toNat) := by
  rw [addC_carry, addC_carry_toNat, pair_toNat, pair_toNat, Bool.toNat_false, decide_eq_decide]
  have hal := al.isLt
  have hbl := bl.isLt
  omega

theorem not_subC_carry_toNat (a b : Word) : (!(subC a b true).2).toNat = if b.toNat ≤ a.toNat then 0 else 1 := by
  rw [subC_true]
  by_cases h : b.toNat ≤ a.toNat <;> simp [h]

theorem subC_pair (ah al bh bl : Word) :
    ((subC ah bh (subC al bl true).2).1 ++ (subC al bl true).1 : BitVec 32) = (ah ++ al) - (bh ++ bl) := by
  have hbh := bh.isLt
  have hbl := bl.isLt
  apply BitVec.eq_of_toNat_eq
  rw [pair_toNat, subC, subC, addC_result_toNat, addC_result_toNat, addC_carry_toNat, BitVec.toNat_not,
    BitVec.toNat_not, BitVec.toNat_sub, pair_toNat, pair_toNat, Bool.toNat_true]
  omega

theorem subC_pair_carry (ah al bh bl : Word) :
    (subC ah bh (subC al bl true).2).2 =
      decide ((bh ++ bl : BitVec 32).toNat ≤ (ah ++ al : BitVec 32).toNat) := by
  have hal := al.isLt
  have hbl := bl.isLt
  rw [subC_carry, not_subC_carry_toNat, pair_toNat, pair_toNat, decide_eq_decide]
  split <;> omega

theorem subcCarryIn_of_notBorrow {s : State} (h : s.cfg.subcSense = .notBorrow) : subcCarryIn s = s.sr.c := by
  simp [subcCarryIn, h]

/-- Settles O39: the second instruction reads the high halves as they were, and the carry of the low ones. -/
theorem carryPairsComputeDoubleWords : Obligations.CarryPairsComputeDoubleWords := by
  rintro dl sl nl dh sh nh s a b hpfx hsh hnh hdh rfl rfl
  constructor
  · have hlow := exec_addRrr_of_none dl sl nl hpfx
    have hhigh := exec_adcRrr_of_none dh sh nh (finishAlu_pfx s dl (addC (s.reg sl) (s.reg nl) false) true)
    rw [finishAlu_c, finishAlu_reg, finishAlu_reg, if_neg hsh.symm, if_neg hnh.symm] at hhigh
    obtain ⟨hdl, hdh, hc, hz, hteq⟩ := finishAlu_pair hdh rfl rfl
    refine ⟨_, _, hlow, hhigh, ?_, ?_, ?_, hteq⟩
    · rw [hdl, hdh, addC_pair]
    · rw [hc, addC_pair_carry]
    · rw [hz, ← addC_pair, decide_eq_decide, pair_eq_zero_iff, and_comm]
  · intro hsense
    have hlow := exec_subRrr_of_none dl sl nl hpfx
    have hhigh := exec_subcRrr_of_none dh sh nh (finishAlu_pfx s dl (subC (s.reg sl) (s.reg nl) true) true)
    rw [subcCarryIn_of_notBorrow (s := finishAlu ..) hsense] at hhigh
    rw [finishAlu_c, finishAlu_reg, finishAlu_reg, if_neg hsh.symm, if_neg hnh.symm] at hhigh
    obtain ⟨hdl, hdh, hc, hz, hteq⟩ := finishAlu_pair hdh rfl rfl
    refine ⟨_, _, hlow, hhigh, ?_, ?_, ?_, hteq⟩
    · rw [hdl, hdh, subC_pair]
    · rw [hc, subC_pair_carry]
    · rw [hz, decide_eq_decide, and_comm, ← pair_eq_zero_iff, subC_pair]
      exact sub_eq_zero

/-! #### Single-bit shifts (R144 to R147) -/

theorem exec_lsrRr_of_none {s : State} (rd rs : Reg) (h : s.pfx = none) :
    exec (.lsrRr rd rs) s = .next (finishAlu s rd (s.reg rs >>> 1, (s.reg rs).getLsbD 0) true) :=
  unprefixed_of_none _ h

theorem exec_asrRr_of_none {s : State} (rd rs : Reg) (h : s.pfx = none) :
    exec (.asrRr rd rs) s = .next (finishAlu s rd ((s.reg rs).sshiftRight 1, (s.reg rs).getLsbD 0) true) :=
  unprefixed_of_none _ h

/-- The value `lsrc` writes: the old C, then bits 15 to 1 (R147). -/
def carryShift (c : Bool) (v : Word) : Word :=
  BitVec.ofBool c ++ v.extractLsb' 1 15

theorem exec_lsrcRr_of_none {s : State} (rd rs : Reg) (h : s.pfx = none) :
    exec (.lsrcRr rd rs) s =
      .next (finishAlu s rd (carryShift s.sr.c (s.reg rs), (s.reg rs).getLsbD 0) s.sr.z) :=
  unprefixed_of_none _ h

theorem carryShift_toNat (c : Bool) (v : Word) : (carryShift c v).toNat = v.toNat / 2 + c.toNat * 32768 := by
  have h := append_toNat (BitVec.ofBool c) (v.extractLsb' 1 15)
  rw [BitVec.toNat_ofBool, BitVec.extractLsb'_toNat, Nat.shiftRight_eq_div_pow] at h
  refine Eq.trans h ?_
  have hv := v.isLt
  omega

theorem shiftRight_one_toNat {n : Nat} (v : BitVec n) : (v >>> 1).toNat = v.toNat / 2 := by
  rw [BitVec.toNat_ushiftRight, Nat.shiftRight_eq_div_pow, pow_one]

theorem sshiftRight_one_toInt {n : Nat} (v : BitVec n) : (v.sshiftRight 1).toInt = v.toInt / 2 := by
  rw [BitVec.toInt_sshiftRight, Int.shiftRight_eq_div_pow, pow_one]
  rfl

/-- Settles O40. -/
theorem singleBitShiftsComplete : Obligations.SingleBitShiftsComplete := by
  intro rd rs s hpfx
  refine ⟨⟨_, shiftRight_one_toNat (s.reg rs), ?_⟩, ⟨_, sshiftRight_one_toInt (s.reg rs), ?_⟩,
    ⟨_, carryShift_toNat s.sr.c (s.reg rs), ?_⟩⟩
  · rw [exec_lsrRr_of_none rd rs hpfx, finishAlu_true_of_none _ _ _ hpfx]
  · rw [exec_asrRr_of_none rd rs hpfx, finishAlu_true_of_none _ _ _ hpfx]
  · rw [exec_lsrcRr_of_none rd rs hpfx, finishAlu_of_none _ _ _ _ hpfx]

/-! #### Shifts of a pair (R147) -/

theorem getLsbD_zero_toNat {n : Nat} (v : BitVec n) : (v.getLsbD 0).toNat = v.toNat % 2 := by
  rw [BitVec.getLsbD, Nat.testBit_zero]
  rcases Nat.mod_two_eq_zero_or_one v.toNat with h | h <;> simp [h]

theorem shiftRight_pair (h l : Word) :
    ((h >>> 1) ++ carryShift (h.getLsbD 0) l : BitVec 32) = (h ++ l) >>> 1 := by
  apply BitVec.eq_of_toNat_eq
  rw [pair_toNat, shiftRight_one_toNat, shiftRight_one_toNat, carryShift_toNat, getLsbD_zero_toNat, pair_toNat]
  omega

/-- The high half carries the sign. -/
theorem sshiftRight_pair (h l : Word) :
    (h.sshiftRight 1 ++ carryShift (h.getLsbD 0) l : BitVec 32) = (h ++ l : BitVec 32).sshiftRight 1 := by
  apply BitVec.eq_of_toInt_eq
  have hparity : (h.toNat : Int) % 2 = h.toInt % 2 := by
    rw [BitVec.toInt_eq_toNat_cond]
    split <;> omega
  rw [pair_toInt, sshiftRight_one_toInt, sshiftRight_one_toInt, carryShift_toNat, getLsbD_zero_toNat, pair_toInt]
  omega

theorem pair_getLsbD_zero (h l : Word) : (h ++ l : BitVec 32).getLsbD 0 = l.getLsbD 0 :=
  BitVec.getLsbD_append.trans (by simp)

/-- After a shift of the high half, `lsrc` of the low half ends the shift of the pair. -/
theorem lsrc_completes_pair {s t : State} {h l : Reg} {v : Word} {a r : BitVec 32} (hne : h ≠ l)
    (ha : a = s.reg h ++ s.reg l) (ht : t = finishAlu s h (v, (s.reg h).getLsbD 0) true)
    (hr : (v ++ carryShift ((s.reg h).getLsbD 0) (s.reg l) : BitVec 32) = r) :
    ∃ u, exec (.lsrcRr l l) t = .next u ∧ (u.reg h ++ u.reg l : BitVec 32) = r ∧ u.sr.c = a.getLsbD 0 ∧
      u.sr.z = decide (r = 0#32) ∧ u.sr.t = u.sr.z := by
  have hreg : t.reg l = s.reg l := by rw [ht, finishAlu_reg, if_neg hne.symm]
  have hc : t.sr.c = (s.reg h).getLsbD 0 := by rw [ht, finishAlu_c]
  have hexec := exec_lsrcRr_of_none l l (s := t) (by rw [ht, finishAlu_pfx])
  obtain ⟨hh, hl, hcar, hz, hteq⟩ := finishAlu_pair hne ht rfl
  refine ⟨_, hexec, ?_, ?_, ?_, hteq⟩
  · rw [hh, hl, hc, hreg, hr]
  · rw [hcar, ha, pair_getLsbD_zero, hreg]
  · rw [hz, ← hr, hc, hreg, decide_eq_decide, pair_eq_zero_iff]

/-- Settles O41. -/
theorem shiftPairsShiftDoubleWords : Obligations.ShiftPairsShiftDoubleWords := by
  intro h l s a hpfx hne ha
  constructor
  · have hhalf := shiftRight_pair (s.reg h) (s.reg l)
    rw [← ha] at hhalf
    exact ⟨_, (lsrc_completes_pair hne ha rfl hhalf).imp fun u hu => ⟨exec_lsrRr_of_none h h hpfx, hu⟩⟩
  · have hhalf := sshiftRight_pair (s.reg h) (s.reg l)
    rw [← ha] at hhalf
    exact ⟨_, (lsrc_completes_pair hne ha rfl hhalf).imp fun u hu => ⟨exec_asrRr_of_none h h hpfx, hu⟩⟩

/-! #### Byte shifts and extensions (R148 to R153) -/

theorem field_low_toInt (v : Word) : (field v 0 8).toInt = (v.setWidth 8).toInt := by
  rw [field, BitVec.setWidth_eq_extractLsb' (by decide)]

/-- The high byte, with its sign, is the number divided by 256. -/
theorem field_high_toInt (v : Word) : (field v 8 8).toInt = v.toInt / 256 := by
  rw [BitVec.toInt_eq_toNat_cond, BitVec.toInt_eq_toNat_cond, field_toNat]
  have hv := v.isLt
  split <;> split <;> omega

theorem appendZeros_toNat (v : Word) : (field v 0 8 ++ 0#8 : Word).toNat = v.toNat * 256 % 65536 := by
  have h := append_toNat (field v 0 8) 0#8
  rw [field_toNat] at h
  refine Eq.trans h ?_
  simp
  omega

theorem signWord_toInt (v : Word) :
    (if v.getLsbD 15 then 0xFFFF#16 else 0#16).toInt = if v.toInt < 0 then -1 else 0 := by
  rw [getLsbD_15_eq_decide]
  by_cases h : v.toInt < 0 <;> simp [h]

/-- Settles O42: each ends in a plain move, of the value whose number the statement gives. -/
theorem byteShiftsAndExtensionsComplete : Obligations.ByteShiftsAndExtensionsComplete := by
  intro i rd rs s v hpfx hi
  have hv8 := (s.reg rs).isLt
  rcases hi with ⟨rfl, hv⟩ | ⟨rfl, hv⟩ | ⟨rfl, hv⟩ | ⟨rfl, hv⟩ | ⟨rfl, hv⟩ | ⟨rfl, hv⟩
  · have heq : v = (field (s.reg rs) 8 8).setWidth 16 := BitVec.eq_of_toNat_eq (by
      rw [hv, BitVec.toNat_setWidth_of_le (by decide), field_toNat]; omega)
    exact heq ▸ exec_of_moveTo rfl hpfx
  · have heq : v = (field (s.reg rs) 8 8).signExtend 16 := BitVec.eq_of_toInt_eq (by
      rw [hv, BitVec.toInt_signExtend_of_le (by decide), field_high_toInt])
    exact heq ▸ exec_of_moveTo rfl hpfx
  · have heq : v = field (s.reg rs) 0 8 ++ 0#8 := BitVec.eq_of_toNat_eq (by rw [hv, appendZeros_toNat])
    exact heq ▸ exec_of_moveTo rfl hpfx
  · have heq : v = (field (s.reg rs) 0 8).setWidth 16 := BitVec.eq_of_toNat_eq (by
      rw [hv, BitVec.toNat_setWidth_of_le (by decide), field_toNat]; omega)
    exact heq ▸ exec_of_moveTo rfl hpfx
  · have heq : v = (field (s.reg rs) 0 8).signExtend 16 := BitVec.eq_of_toInt_eq (by
      rw [hv, BitVec.toInt_signExtend_of_le (by decide), field_low_toInt])
    exact heq ▸ exec_of_moveTo rfl hpfx
  · have heq := BitVec.eq_of_toInt_eq (hv.trans (signWord_toInt (s.reg rs)).symm)
    exact heq ▸ exec_of_moveTo rfl hpfx

end Sys2Proof.Machine

/-! ### Proofs: `cmpc`, alone and after `cmp` (42_compare.md R160, R164 to R166) -/

namespace Sys2Proof.Machine

/-! #### The difference of a compare, and its signed overflow -/

/-- The result of a subtraction is the exact signed difference, narrowed. -/
theorem subC_eq_ofInt (a b : Word) (cin : Bool) :
    (subC a b cin).1 = BitVec.ofInt 16 (a.toInt - b.toInt - (1 - cin.toNat)) := by
  apply BitVec.eq_of_toInt_eq
  rw [subC_result, BitVec.toInt_sub, BitVec.toInt_sub, BitVec.toInt_ofInt]
  cases cin <;> simp

theorem bool_not_toNat (b : Bool) : (!b).toNat = 1 - b.toNat := by
  cases b <;> rfl

/-- V says that the exact difference is no signed 16-bit number (R166): where `S = V` says that it is not negative, V
is S or its complement. -/
theorem compareOverflow_eq (a b : Word) (cin : Bool) :
    compareOverflow a b (subC a b cin).1 =
      decide (a.toInt - b.toInt - (1 - cin.toNat) < -32768 ∨ 32767 < a.toInt - b.toInt - (1 - cin.toNat)) := by
  have hxor : ∀ sgn v : Bool, v = (sgn == (sgn == v)) := by decide
  rw [hxor ((subC a b cin).1.getLsbD 15) (compareOverflow a b _), sign_beq_compareOverflow, getLsbD_15_eq_decide,
    subC_eq_ofInt, BitVec.toInt_ofInt, Int.bmod_def, bool_not_toNat, Bool.eq_iff_iff, beq_iff_eq, decide_eq_decide,
    decide_eq_true_eq]
  have ha := BitVec.two_mul_toInt_lt (x := a)
  have ha' := BitVec.le_two_mul_toInt (x := a)
  have hb := BitVec.two_mul_toInt_lt (x := b)
  have hb' := BitVec.le_two_mul_toInt (x := b)
  have hc := Bool.toNat_le cin
  split <;> omega

/-! #### `cmpc`, as the end of a compare -/

theorem exec_cmpcCrr_of_none {s : State} (cc : Cond) (rs rn : Reg) (h : s.pfx = none) :
    exec (.cmpcCrr cc rs rn) s = .next (finishCompare s cc (s.reg rs) (s.reg rn) s.sr.c s.sr.z) :=
  unprefixed_of_none _ h

/-- Settles O44. -/
theorem compareWithCarryCompletes : Obligations.CompareWithCarryCompletes := by
  rintro i cc s a b d r hi rfl rfl
  have hexec : exec i s = .next (finishCompare s cc a b s.sr.c s.sr.z) := by
    rcases hi with ⟨rs, rn, rfl, rfl, rfl, hpfx⟩ | ⟨rs, k, rfl, rfl, rfl⟩
    · exact exec_cmpcCrr_of_none cc rs rn hpfx
    · rfl
  refine ⟨(subC a b s.sr.c).2, s.sr.z && ((subC a b s.sr.c).1 == 0#16), ?_, ?_, ?_⟩
  · rw [subC_carry, decide_eq_true_iff, bool_not_toNat]
  · rw [Bool.and_eq_true, beq_iff_eq, subC_eq_ofInt]
  · rw [hexec, finishCompare_eq, compareFlags_eq, compareOverflow_eq, subC_eq_ofInt]

/-! #### A compare of register pairs (R164) -/

theorem pair_inj (x y x' y' : Word) : (x ++ y : BitVec 32) = x' ++ y' ↔ x = x' ∧ y = y' := by
  rw [← BitVec.toNat_inj, ← BitVec.toNat_inj, ← BitVec.toNat_inj, pair_toNat, pair_toNat]
  omega

/-- `S = V` on the high halves, with the borrow of the low ones, is the signed order of the pairs. -/
theorem sign_beq_compareOverflow_pair (ah al bh bl : Word) :
    ((subC ah bh (subC al bl true).2).1.getLsbD 15 ==
        compareOverflow ah bh (subC ah bh (subC al bl true).2).1) =
      (bh ++ bl : BitVec 32).sle (ah ++ al) := by
  rw [sign_beq_compareOverflow, not_subC_carry_toNat, BitVec.sle_eq_decide, pair_toInt, pair_toInt, decide_eq_decide]
  have hal := al.isLt
  have hbl := bl.isLt
  split <;> omega

/-- The flags of `cmpc` on the high halves, after `cmp` on the low ones, are those of one compare of 32 bits. -/
theorem compareFlags_pair (f : SR) (cc : Cond) (ah al bh bl : Word) :
    compareFlags f cc ah bh (subC al bl true).2 (decide (al = bl)) =
      { f with
        t := condSays cc (ah ++ al : BitVec 32) (bh ++ bl)
        c := decide ((bh ++ bl : BitVec 32).toNat ≤ (ah ++ al : BitVec 32).toNat)
        z := decide ((ah ++ al : BitVec 32) = bh ++ bl) } := by
  have hzero : (decide (al = bl) && ((subC ah bh (subC al bl true).2).1 == 0#16)) =
      ((ah ++ al : BitVec 32) == bh ++ bl) := by
    by_cases hlow : al = bl
    · have hhigh : (subC ah bh (subC al bl true).2).1 = ah - bh := by simp [subC_true, hlow]
      have hsub : ah - bh = 0#16 ↔ ah = bh := sub_eq_zero
      rw [Bool.eq_iff_iff, hhigh]
      simp [hlow, pair_inj, hsub]
    · rw [Bool.eq_iff_iff]
      simp [hlow, pair_inj]
  have hsign := sign_beq_compareOverflow_pair ah al bh bl
  rw [compareFlags_eq, hzero, subC_pair_carry, ← condHolds_eq_condSays cc _ _ hsign, BitVec.ule_eq_decide]
  rfl

/-- Settles O45. -/
theorem comparePairComparesDoubleWords : Obligations.ComparePairComparesDoubleWords := by
  rintro cc cc' al bl ah bh s a b hpfx rfl rfl
  have hlow := exec_cmpCrr_of_none cc al bl hpfx
  have hflags := compareFlags_true s.sr cc (s.reg al) (s.reg bl)
  rw [finishCompare_eq, hflags] at hlow
  refine ⟨_, _, hlow, exec_cmpcCrr_of_none cc' ah bh rfl, ?_⟩
  have hcarry : (subC (s.reg al) (s.reg bl) true).2 = decide ((s.reg bl).toNat ≤ (s.reg al).toNat) := by
    rw [subC_true]
  rw [finishCompare_eq, ← hcarry]
  have hpair := compareFlags_pair
    { s.sr with
      t := condSays cc (s.reg al) (s.reg bl)
      c := (subC (s.reg al) (s.reg bl) true).2
      z := decide (s.reg al = s.reg bl) } cc' (s.reg ah) (s.reg al) (s.reg bh) (s.reg bl)
  exact ⟨congrArg SR.t hpair, congrArg SR.c hpair, congrArg SR.z hpair, rfl⟩

end Sys2Proof.Machine

/-! ### Proofs: immediates and effective addresses (30_encoding.md R90, 45_load_store.md R205, 46_prefix.md R242) -/

namespace Sys2Proof.Machine

/-- Settles O57. -/
theorem immediateOperand : Obligations.ImmediateOperand :=
  ⟨fun _ _ k hn hpfx => ⟨immZero_toNat_of_none k hn hpfx, immSign_toInt_of_none k hn hpfx⟩,
    fun _ _ k _ hpfx => ⟨immediate_toNat_of_some k _ hpfx, immediate_toNat_of_some k _ hpfx⟩⟩

/-! #### Prefixed pairs (46_prefix.md R242, R244) -/

theorem extract_append_low (v : Word) : (v.extractLsb' 5 11 ++ v.setWidth 5 : Word) = v := by
  apply BitVec.eq_of_toNat_eq
  have h := append_toNat (v.extractLsb' 5 11) (v.setWidth 5)
  rw [BitVec.extractLsb'_toNat, BitVec.toNat_setWidth, Nat.shiftRight_eq_div_pow] at h
  refine Eq.trans h ?_
  have hv := v.isLt
  omega

/-- `pfix V[15:5]` before a field that ends in `V[4:0]` gives V, whatever the field's extension. -/
theorem immediate_of_pair {n : Nat} {s : State} {v : Word} {k : BitVec n} (short : Word)
    (hs : s.pfx = some (v.extractLsb' 5 11)) (hk : k.setWidth 5 = v.setWidth 5) : immediate s k short = v := by
  rw [immediate_of_some k short hs, hk, extract_append_low]

theorem exec_leaMr (rd rs : Reg) (k : BitVec 5) (s : State) :
    exec (.leaMr rd rs k) s = .next (s.setReg rd (s.reg rs + immZero s k)).advance := rfl

/-- Two words on, with the latch empty again. -/
theorem advance_setReg_of_prefixed {s t : State} {p : BitVec 11} (rd : Reg) (v : Word) (h : s.pfx = none)
    (ht : t = { s with pfx := some p, pc := s.pc + 1 }) :
    (t.setReg rd v).advance = { s with regs := s.regs.set rd v, pc := s.pc + 2 } := by
  have hpc : s.pc + 1 + 1 = s.pc + 2 := by rw [BitVec.add_assoc]; rfl
  rw [State.advance_eq, ht, State.setReg, ← h]
  simp only [hpc]

/-- Settles O58. -/
theorem prefixedPairsTakeSixteenBits : Obligations.PrefixedPairsTakeSixteenBits := by
  intro s v rd k8 k5 rs hpfx hk8 hk5
  have hk5' : k5.setWidth 5 = v.setWidth 5 := by rw [BitVec.setWidth_eq, hk5]
  refine ⟨_, exec_pfixK_of_none _ hpfx, rfl, ?_, ?_, ?_⟩
  · rw [exec_movKr, immSign, immediate_of_pair _ rfl hk8, advance_setReg_of_prefixed rd v hpfx rfl]
  · rw [exec_leaMr, immZero, immediate_of_pair _ rfl hk5', advance_setReg_of_prefixed rd _ hpfx rfl]
    rfl
  · refine ⟨_, exec_addKr rd k8 _, ?_, ?_, ?_⟩
    · rw [immZero, immediate_of_pair _ rfl hk8, addC_false, finishAlu_reg, if_pos rfl]
      rfl
    · rw [immZero, immediate_of_pair _ rfl hk8, addC_false, finishAlu_c]
      rfl
    · exact BitVec.add_assoc s.pc 1 1

/-! #### Effective addresses as numbers (45_load_store.md R205) -/

theorem shiftLeft_one_toNat (v : Word) : (v <<< 1).toNat = v.toNat * 2 % 65536 := by
  rw [BitVec.toNat_shiftLeft, Nat.shiftLeft_eq, pow_one]

/-- The factor of the immediate of a word access (46_prefix.md R245). -/
def wordScale (s : State) : Nat :=
  if s.pfx.isSome = true ∧ s.cfg.prefixWordScale = false then 1 else 2

theorem scaledImm_toNat {n : Nat} (s : State) (k : BitVec n) :
    (scaledImm s k).toNat = (immZero s k).toNat * wordScale s % 65536 := by
  have hlt := (immZero s k).isLt
  unfold scaledImm wordScale
  by_cases h : s.pfx.isSome = true ∧ s.cfg.prefixWordScale = false
  · rw [if_pos (by simpa using h), if_pos h]
    omega
  · rw [if_neg (by simpa using h), if_neg h, shiftLeft_one_toNat]

/-- A sum with a base takes one remainder, as its scaled summand does. -/
theorem add_toNat_of_mod {a b : Word} {m : Nat} (h : b.toNat = m % 65536) :
    (a + b).toNat = (a.toNat + m) % 65536 := by
  rw [BitVec.toNat_add, h]
  omega

/-- Settles O52. -/
theorem effectiveAddresses : Obligations.EffectiveAddresses := by
  rintro s rs rn k5 k8 f rfl
  exact ⟨rfl, scaledImm_toNat s k8, BitVec.toNat_add .., add_toNat_of_mod (scaledImm_toNat s k8),
    BitVec.toNat_add .., add_toNat_of_mod (scaledImm_toNat s k5), BitVec.toNat_add ..,
    add_toNat_of_mod (shiftLeft_one_toNat _)⟩

end Sys2Proof.Machine

/-! ### Proofs: byte order, calls and returns, program loads, system (20_memory.md R53, 44_branch_call.md R195) -/

namespace Sys2Proof.Machine

/-! #### Reading back what was stored -/

/-- The two bytes of a word just stored. -/
theorem readByte_storeBytes {s : State} {a : Word} (x y : Byte) (hmap : wordMapped s a = .ok ()) :
    readByte (storeBytes s a x y) a = .ok x ∧ readByte (storeBytes s a x y) (a + 1) = .ok y := by
  obtain ⟨hlow, hhigh⟩ := wordMapped_ok.1 hmap
  refine ⟨readByte_ok.2 ⟨hlow, ?_⟩, readByte_ok.2 ⟨hhigh, ?_⟩⟩
  · rw [storeBytes_get, if_neg (toNat_add_one_ne a), if_pos rfl]
  · rw [storeBytes_get, if_pos rfl]

/-- A word stored reads back whole, at an odd address too where bit 0 is ignored (20_memory.md R53, R56). -/
theorem readWord_of_writeWord {s t : State} {ea v : Word} (h : writeWord s ea v = .ok t) :
    readWord t ea = .ok v := by
  obtain ⟨a, ha, hmap, rfl⟩ := writeWord_ok.1 h
  obtain ⟨hlow, hhigh⟩ := readByte_storeBytes (firstByte s.cfg.byteOrder v) (secondByte s.cfg.byteOrder v) hmap
  exact readWord_ok.2 ⟨a, _, _, ha, hmap, hlow, hhigh, (joinBytes_split _ v).symm⟩

/-- The two bytes stand at the even address and the next one, in byte order. -/
theorem readByte_of_writeWord {s t : State} {a v : Word} (heven : a.getLsbD 0 = false)
    (h : writeWord s a v = .ok t) :
    readByte t a = .ok (firstByte s.cfg.byteOrder v) ∧ readByte t (a + 1) = .ok (secondByte s.cfg.byteOrder v) := by
  obtain ⟨a', ha, hmap, rfl⟩ := writeWord_ok.1 h
  rw [wordAddress_of_even heven] at ha
  cases ha
  exact readByte_storeBytes _ _ hmap

theorem extract_low_byte (v : Word) : v.extractLsb' 0 8 = v.setWidth 8 :=
  (BitVec.setWidth_eq_extractLsb' (by decide)).symm

theorem extract_high_byte (v : Word) : v.extractLsb' 8 8 = (v >>> 8).setWidth 8 := by
  apply BitVec.eq_of_toNat_eq
  rw [BitVec.extractLsb'_toNat, BitVec.toNat_setWidth, BitVec.toNat_ushiftRight]

/-- Settles O55. -/
theorem byteOrderOfAWord : Obligations.ByteOrderOfAWord := by
  refine ⟨fun s t a v heven h => ?_, fun s t a b h => ?_⟩
  · have hbytes := readByte_of_writeWord heven h
    refine ⟨readWord_of_writeWord h, fun ho => ?_, fun ho => ?_⟩
    · rwa [ho, firstByte, secondByte, extract_low_byte, extract_high_byte] at hbytes
    · rwa [ho, firstByte, secondByte, extract_low_byte, extract_high_byte] at hbytes
  · obtain ⟨hmap, rfl⟩ := writeByte_ok.1 h
    exact readByte_ok.2 ⟨hmap, Memory.get_set_same _ _ _⟩

/-! #### Calls (R195, R196) -/

theorem callsTo_of_exec {i : Instr} {s : State} {target : Word} (hi : exec i s = callTo s target) :
    CallsTo i target s := by
  intro hopen
  have hpush : push s (s.pc + 1) = .ok (storeBytes { s with sp := s.sp - 2 } (s.sp - 2)
      (firstByte s.cfg.byteOrder (s.pc + 1)) (secondByte s.cfg.byteOrder (s.pc + 1))) :=
    writeWord_of_wordOpen (s := { s with sp := s.sp - 2 }) (s.pc + 1) hopen
  refine ⟨_, hi.trans (callTo_next.2 ⟨_, hpush, rfl⟩), ?_, ?_, ?_⟩
  · rw [storeBytes_get, if_neg (toNat_add_one_ne _), if_pos rfl]
  · rw [storeBytes_get, if_pos rfl]
  · intro a hlow hhigh
    rw [storeBytes_get, if_neg hhigh.symm, if_neg hlow.symm]

theorem exec_callR_of_none {s : State} (rd : Reg) (h : s.pfx = none) :
    exec (.callR rd) s = callTo s (s.reg rd) :=
  unprefixed_of_none _ h

/-- Settles O49. -/
theorem callsComplete : Obligations.CallsComplete :=
  ⟨fun _ _ => callsTo_of_exec rfl, fun rd _ hpfx => callsTo_of_exec (exec_callR_of_none rd hpfx)⟩

/-! #### Returns (R197) -/

theorem exec_ret_of_readWord {s : State} {target : Word} (h : s.pfx = none) (hr : readWord s s.sp = .ok target) :
    exec .ret s = .next { s with pc := target, sp := s.sp + 2 } := by
  refine execRet_next.2 ⟨h, target, hr, ?_⟩
  rw [State.jumpTo_eq, ← h]

/-- Settles O50. -/
theorem returnCompletes : Obligations.ReturnCompletes :=
  fun _ _ hpfx hholds => exec_ret_of_readWord hpfx (readWord_of_holdsWord hholds)

/-- A call leaves the address of the next word on top of the stack. -/
theorem callTo_top {s t : State} {target : Word} (h : callTo s target = .next t) :
    t.sp = s.sp - 2 ∧ readWord t t.sp = .ok (s.pc + 1) := by
  obtain ⟨u, hu, rfl⟩ := callTo_next.1 h
  have hread := readWord_of_writeWord hu
  obtain ⟨a, -, -, rfl⟩ := push_ok.1 hu
  exact ⟨rfl, hread⟩

theorem exec_call_top {i : Instr} {s t : State} (hi : (∃ a, i = .call a) ∨ ∃ rd, i = .callR rd)
    (h : exec i s = .next t) : t.sp = s.sp - 2 ∧ readWord t t.sp = .ok (s.pc + 1) := by
  rcases hi with ⟨a, rfl⟩ | ⟨rd, rfl⟩
  · exact callTo_top h
  · exact callTo_top (unprefixed_next.1 h).2

/-- Settles O51. -/
theorem returnUndoesCall : Obligations.ReturnUndoesCall := by
  intro i s t h hi hcall hpfx hsp hread
  obtain ⟨htop, hword⟩ := exec_call_top hi hcall
  have hback : s.sp = h.sp + 2 := by rw [hsp, htop, BitVec.sub_add_cancel]
  rw [exec_ret_of_readWord hpfx (hread.trans hword), hback]

/-! #### Loads from program memory (45_load_store.md R223) -/

theorem progRead_of_unmapped {s : State} {a : Word} (f : Fault) (h : populated s.cfg.progMap a.toNat = false) :
    progRead s a f = .error f := by
  simp [progRead, h]

theorem progRead_of_unwritten {s : State} {a : Word} (f : Fault) (h : populated s.cfg.progMap a.toNat = true)
    (hw : Memory.get s.prog a.toNat = none) : progRead s a f = .error (.unwrittenRead (.programWord a)) := by
  simp [progRead, h, hw]

theorem exec_movwPr_of_error {s : State} {rd rs : Reg} {f : Fault} (h : s.pfx = none)
    (hr : progRead s (s.reg rs) (.unmappedAccess (s.reg rs)) = .error f) : exec (.movwPr rd rs) s = .fault f := by
  refine (unprefixed_of_none _ h).trans (settle_fault.2 ?_)
  rw [hr]
  rfl

/-- Settles O54. -/
theorem programLoadCompletes : Obligations.ProgramLoadCompletes := by
  intro rd rs s hpfx
  refine ⟨fun v hmap hget => ?_, fun hmap => exec_movwPr_of_error hpfx (progRead_of_unmapped _ hmap),
    fun hmap hget => exec_movwPr_of_error hpfx (progRead_of_unwritten _ hmap hget)⟩
  refine execMovwPr_next.2 ⟨hpfx, v, progRead_ok.2 ⟨hmap, hget⟩, ?_⟩
  exact (State.advance_of_none (s := s.setReg rd v) hpfx).symm

/-! #### Interrupt control and halt (47_system.md R255, R256, R258) -/

/-- The end of an instruction without a prefix check to fail and without a jump. -/
theorem unprefixed_advance_of_none {s t : State} (h : s.pfx = none) (ht : t.pfx = none) :
    unprefixed s (.next t.advance) = .next { t with pc := t.pc + 1 } := by
  rw [unprefixed_of_none _ h, State.advance_of_none ht]

/-- Settles O59. -/
theorem interruptControlAndHaltComplete : Obligations.InterruptControlAndHaltComplete := fun s hpfx =>
  ⟨unprefixed_advance_of_none (t := { s with sr := { s.sr with i := false } }) hpfx hpfx,
    unprefixed_advance_of_none (t := { s with sr := { s.sr with i := true } }) hpfx hpfx,
    unprefixed_advance_of_none (t := { s with halted := true }) hpfx hpfx⟩

end Sys2Proof.Machine

/-! ### Proofs: interrupt entry and `reti` (47_system.md R257, 60_exceptions.md R276 to R278) -/

namespace Sys2Proof.Machine

/-! #### A word store leaves every other word as it was -/

theorem and_mask_eq_shift (x : Word) : x &&& 0xFFFE#16 = (x >>> 1) <<< 1 := by
  apply BitVec.eq_of_getLsbD_eq
  intro i hi
  have : i < 16 := hi
  interval_cases i <;> simp

/-- The word address of `x` is `x` less its parity. -/
theorem and_mask_toNat (x : Word) : (x &&& 0xFFFE#16).toNat = x.toNat / 2 * 2 := by
  have hx := x.isLt
  rw [and_mask_eq_shift, BitVec.toNat_shiftLeft, BitVec.toNat_ushiftRight, Nat.shiftLeft_eq,
    Nat.shiftRight_eq_div_pow]
  omega

/-- A word access at an effective address goes on from its word address. -/
theorem readWord_of_wordAddress {s : State} {ea a : Word} (h : wordAddress s.cfg ea = .ok a) :
    readWord s ea = do
      wordMapped s a
      let b0 ← readByte s a
      let b1 ← readByte s (a + 1)
      return joinBytes s.cfg.byteOrder b0 b1 := by
  rw [readWord, h]
  rfl

theorem readWord_of_wordAddress_error {s : State} {ea : Word} {f : Fault} (h : wordAddress s.cfg ea = .error f) :
    readWord s ea = .error f := by
  rw [readWord, h]
  rfl

theorem readByte_congr {s t : State} {a : Word} (hcfg : t.cfg = s.cfg)
    (h : Memory.get t.data a.toNat = Memory.get s.data a.toNat) : readByte t a = readByte s a := by
  rw [readByte, readByte, hcfg, h]

theorem wordMapped_congr {s t : State} (a : Word) (hcfg : t.cfg = s.cfg) : wordMapped t a = wordMapped s a := by
  rw [wordMapped, wordMapped, hcfg]

theorem readWord_congr {s t : State} {ea : Word} (hcfg : t.cfg = s.cfg)
    (h : ∀ n, n = (ea &&& 0xFFFE#16).toNat ∨ n = ((ea &&& 0xFFFE#16) + 1).toNat →
      Memory.get t.data n = Memory.get s.data n) : readWord t ea = readWord s ea := by
  cases ha : wordAddress s.cfg ea with
  | error f => rw [readWord_of_wordAddress_error ha, readWord_of_wordAddress_error (hcfg ▸ ha)]
  | ok a =>
    obtain ⟨rfl, -⟩ := wordAddress_ok.1 ha
    rw [readWord_of_wordAddress ha, readWord_of_wordAddress (hcfg ▸ ha), wordMapped_congr _ hcfg,
      readByte_congr hcfg (h _ (.inl rfl)), readByte_congr hcfg (h _ (.inr rfl)), hcfg]

theorem readWord_writeWord_of_ne {s t : State} {ea ea' v : Word} (h : writeWord s ea v = .ok t)
    (hne : ea' &&& 0xFFFE#16 ≠ ea &&& 0xFFFE#16) : readWord t ea' = readWord s ea' := by
  obtain ⟨a, ha, -, rfl⟩ := writeWord_ok.1 h
  obtain ⟨rfl, -⟩ := wordAddress_ok.1 ha
  refine readWord_congr rfl fun n hn => ?_
  have hnext := toNat_add_one_of_even (getLsbD_zero_and_mask ea)
  have hnext' := toNat_add_one_of_even (getLsbD_zero_and_mask ea')
  rw [ne_eq, ← BitVec.toNat_inj] at hne
  simp only [and_mask_toNat] at hne hnext hnext' hn
  rw [hnext'] at hn
  rw [storeBytes_get, hnext, and_mask_toNat, if_neg (by omega), if_neg (by omega)]

/-- Words a positive number of words apart, below the 32,768 of the address space, have two addresses. -/
theorem and_mask_ne_of_words_apart (x : Word) {m : Nat} (hm : 0 < m) (hlt : m < 32768) :
    (x + BitVec.ofNat 16 (2 * m)) &&& 0xFFFE#16 ≠ x &&& 0xFFFE#16 := by
  have hx := x.isLt
  rw [ne_eq, ← BitVec.toNat_inj, and_mask_toNat, and_mask_toNat, BitVec.toNat_add, BitVec.toNat_ofNat]
  omega

/-! #### What pushes leave on the stack (20_memory.md R71) -/

theorem push_sp {s t : State} {v : Word} (h : push s v = .ok t) : t.sp = s.sp - 2 := by
  obtain ⟨a, -, -, rfl⟩ := push_ok.1 h
  rfl

theorem pushAll_sp {s t : State} {vs : List Word} (h : pushAll s vs = .ok t) :
    t.sp = s.sp - BitVec.ofNat 16 (2 * vs.length) := by
  rw [pushAll_frame h]

/-- What stands on the stack already is not touched, while the stack does not meet itself. -/
theorem pushAll_keeps_above {s t : State} {vs : List Word} (h : pushAll s vs = .ok t) {m : Nat}
    (hm : m + vs.length < 32768) :
    readWord t (s.sp + BitVec.ofNat 16 (2 * m)) = readWord s (s.sp + BitVec.ofNat 16 (2 * m)) := by
  induction vs generalizing s m with
  | nil => rw [pushAll_nil_ok.1 h]
  | cons v vs ih =>
    obtain ⟨s1, h1, h2⟩ := pushAll_cons_ok.1 h
    rw [List.length_cons] at hm
    have haddr : s.sp + BitVec.ofNat 16 (2 * m) = s1.sp + BitVec.ofNat 16 (2 * (m + 1)) := by
      rw [push_sp h1]
      bv_omega
    have hne := and_mask_ne_of_words_apart (s.sp - 2) (m := m + 1) (by omega) (by omega)
    rw [← push_sp h1] at hne
    rw [haddr, ih h2 (by omega)]
    rw [push_sp h1] at hne ⊢
    exact readWord_writeWord_of_ne (s := { s with sp := s.sp - 2 }) h1 hne

/-- The word pushed as number `j` stands `j + 1` words below where SP was. -/
theorem pushAll_readWord {s t : State} {vs : List Word} (h : pushAll s vs = .ok t) (hlen : vs.length < 32768)
    {j : Nat} (hj : j < vs.length) : readWord t (s.sp - BitVec.ofNat 16 (2 * (j + 1))) = .ok vs[j] := by
  induction vs generalizing s j with
  | nil => cases hj
  | cons v vs ih =>
    obtain ⟨s1, h1, h2⟩ := pushAll_cons_ok.1 h
    rw [List.length_cons] at hlen hj
    cases j with
    | zero =>
      have htop := readWord_of_writeWord h1
      have hkeep := pushAll_keeps_above h2 (m := 0) (by omega)
      rw [push_sp h1, Nat.mul_zero, BitVec.add_zero] at hkeep
      exact hkeep.trans htop
    | succ j =>
      have haddr : s.sp - BitVec.ofNat 16 (2 * (j + 1 + 1)) = s1.sp - BitVec.ofNat 16 (2 * (j + 1)) := by
        rw [push_sp h1]
        bv_omega
      rw [haddr, ih h2 (by omega) (by omega)]
      rfl

/-! #### Entry (60_exceptions.md R276, R277) -/

/-- The SR image as a number: I, T, C, Z in bits 3 to 0 (R277). -/
theorem srImage_default (f : SR) :
    srImage {} f = BitVec.ofNat 16 (f.i.toNat * 8 + f.t.toNat * 4 + f.c.toNat * 2 + f.z.toNat) := by
  obtain ⟨i, t, c, z⟩ := f
  revert i t c z
  decide

theorem push_of_wordOpen {s : State} (v : Word) (h : wordOpen s (s.sp - 2)) :
    push s v = .ok (storeBytes { s with sp := s.sp - 2 } (s.sp - 2)
      (firstByte s.cfg.byteOrder v) (secondByte s.cfg.byteOrder v)) :=
  writeWord_of_wordOpen (s := { s with sp := s.sp - 2 }) v h

/-- An open word whose two bytes are those of `v` reads as `v`, whatever the rest of the state. -/
theorem holdsWord_of_get {s : State} {a v : Word} {m : DataMemory} (h : wordOpen s a)
    (hlow : Memory.get m a.toNat = some (firstByte s.cfg.byteOrder v))
    (hhigh : Memory.get m (a + 1).toNat = some (secondByte s.cfg.byteOrder v)) :
    holdsWord { s with data := m } a v :=
  ⟨h, hlow, hhigh⟩

/-- The entry with the default frame, both words open: PC at SP - 2 and the image at SP - 4. -/
theorem enterInterrupt_of_wordOpen {s : State} (v : Word) (hf : s.cfg.irqFrame = IrqFrame.default)
    (hpc : wordOpen s (s.sp - 2)) (hsr : wordOpen s (s.sp - 4)) :
    ∃ m, enterInterrupt s v = .ok { s with sp := s.sp - 4, sr := { s.sr with i := false }, pc := v, data := m } ∧
      holdsWord { s with data := m } (s.sp - 2) s.pc ∧ holdsWord { s with data := m } (s.sp - 4) (srImage {} s.sr) ∧
      ∀ a, a ≠ (s.sp - 4).toNat → a ≠ (s.sp - 3).toNat → a ≠ (s.sp - 2).toNat → a ≠ (s.sp - 1).toNat →
        Memory.get m a = Memory.get s.data a := by
  have hpush := push_of_wordOpen s.pc hpc
  have hsp : s.sp - 2 - 2 = s.sp - 4 := by bv_omega
  have hsp3 : s.sp - 4 + 1 = s.sp - 3 := by bv_omega
  have hsp1 : s.sp - 2 + 1 = s.sp - 1 := by bv_omega
  have hpush' := push_of_wordOpen (s := storeBytes { s with sp := s.sp - 2 } (s.sp - 2)
    (firstByte s.cfg.byteOrder s.pc) (secondByte s.cfg.byteOrder s.pc)) (srImage {} s.sr) (hsp.symm ▸ hsr)
  simp only [storeBytes_sp, storeBytes_cfg, hsp] at hpush'
  refine ⟨_, (enterInterrupt_default hf).2 ⟨_, _, hpush, hpush', rfl⟩, holdsWord_of_get hpc ?_ ?_,
    holdsWord_of_get hsr ?_ ?_, fun a h4 h3 h2 h1 => ?_⟩
  all_goals rw [storeBytes_get]
  · rw [if_neg (by bv_omega), if_neg (by bv_omega)]
    exact (storeBytes_get ..).trans (by rw [if_neg (toNat_add_one_ne _), if_pos rfl])
  · rw [if_neg (by bv_omega), if_neg (by bv_omega)]
    exact (storeBytes_get ..).trans (by rw [if_pos rfl])
  · rw [if_neg (toNat_add_one_ne _), if_pos rfl]
  · rw [if_pos rfl]
  · rw [hsp3, if_neg h3.symm, if_neg h4.symm]
    exact (storeBytes_get ..).trans (by rw [hsp1, if_neg h1.symm, if_neg h2.symm])

/-- Settles O12. -/
theorem interruptEntry : Obligations.InterruptEntry := by
  refine ⟨fun s t v h => enterInterrupt_frame h, fun s v hf hpc hsr => ?_⟩
  rw [← srImage_default]
  exact enterInterrupt_of_wordOpen v hf hpc hsr

/-! #### Return (R257, R278) -/

theorem exec_reti_of_ok {s t : State} (h : s.pfx = none) (hr : returnFromInterrupt s = .ok t) :
    exec .reti s = .next t :=
  execReti_next.2 ⟨h, hr⟩

/-- Settles O60: the image's four flags are its bits 3 to 0. -/
theorem returnFromInterruptCompletes : Obligations.ReturnFromInterruptCompletes := by
  refine ⟨fun s t h => returnFromInterrupt_frame (execReti_next.1 h).2, fun s img target hf hpfx himg htarget => ?_⟩
  refine exec_reti_of_ok hpfx ((returnFromInterrupt_default hf).2
    ⟨img, target, readWord_of_holdsWord himg, readWord_of_holdsWord htarget, ?_⟩)
  rw [← hpfx]
  rfl

/-! #### Return undoes entry, for every frame that saves PC -/

/-- Where the word of number `n` from `a` on reads as the frame's, the frame is read. -/
theorem readFrame_of_words {s : State} {f : FrameWord → Word} {xs : List FrameWord} {a : Word}
    (h : ∀ n (hn : n < xs.length), readWord s (a + BitVec.ofNat 16 (2 * n)) = .ok (f xs[n])) :
    readFrame s xs a = .ok (xs.map fun x => (x, f x)) := by
  induction xs generalizing a with
  | nil => rfl
  | cons x xs ih =>
    have hfirst := h 0 (Nat.zero_lt_succ _)
    rw [Nat.mul_zero, BitVec.add_zero] at hfirst
    refine readFrame_cons_ok.2 ⟨_, _, hfirst, ih fun n hn => ?_, rfl⟩
    have hnext := h (n + 1) (Nat.succ_lt_succ hn)
    have haddr : a + 2 + BitVec.ofNat 16 (2 * n) = a + BitVec.ofNat 16 (2 * (n + 1)) := by bv_omega
    rw [haddr, hnext]
    rfl

theorem restore_pc (f : FrameWord → Word) (xs : List FrameWord) (s : State) :
    ((xs.map fun x => (x, f x)).foldl restoreWord s).pc = if .pc ∈ xs then f .pc else s.pc := by
  induction xs generalizing s with
  | nil => rfl
  | cons x xs ih =>
    rw [List.map_cons, List.foldl_cons, ih]
    cases x <;> simp [restoreWord]

theorem restore_sr (f : FrameWord → Word) (xs : List FrameWord) (s : State) :
    ((xs.map fun x => (x, f x)).foldl restoreWord s).sr =
      if .sr ∈ xs then srOfImage s.cfg.irqFrame.image (f .sr) else s.sr := by
  induction xs generalizing s with
  | nil => rfl
  | cons x xs ih =>
    rw [List.map_cons, List.foldl_cons, ih]
    cases x <;> simp [restoreWord]

theorem restore_get (f : FrameWord → Word) (xs : List FrameWord) (s : State) (r : Reg) :
    ((xs.map fun x => (x, f x)).foldl restoreWord s).regs.get r =
      if .reg r ∈ xs then f (.reg r) else s.regs.get r := by
  induction xs generalizing s with
  | nil => rfl
  | cons x xs ih =>
    rw [List.map_cons, List.foldl_cons, ih]
    cases x with
    | pc => simp [restoreWord]
    | sr => simp [restoreWord]
    | reg d =>
      by_cases hd : r = d
      · subst hd
        simp [restoreWord]
      · simp [restoreWord, Regs.get_set, hd]

theorem Regs.ext_get {g g' : Regs} (h : ∀ r, g.get r = g'.get r) : g = g' := by
  obtain ⟨a0, a1, a2, a3, a4, a5, a6, a7⟩ := g
  obtain ⟨b0, b1, b2, b3, b4, b5, b6, b7⟩ := g'
  simp only [Regs.mk.injEq]
  exact ⟨h .r0, h .r1, h .r2, h .r3, h .r4, h .r5, h .r6, h .r7⟩

/-- The ten words a frame can save. -/
def allFrameWords : List FrameWord :=
  [.pc, .sr, .reg .r0, .reg .r1, .reg .r2, .reg .r3, .reg .r4, .reg .r5, .reg .r6, .reg .r7]

theorem mem_allFrameWords (x : FrameWord) : x ∈ allFrameWords := by
  cases x with
  | pc | sr => simp [allFrameWords]
  | reg r => cases r <;> simp [allFrameWords]

/-- A frame that saves no word twice is short: its pushes do not meet on the stack. -/
theorem length_le_of_nodup {xs : List FrameWord} (h : xs.Nodup) : xs.length ≤ 10 :=
  (h.subperm fun x _ => mem_allFrameWords x).length_le

theorem IrqFrame.wf_iff {f : IrqFrame} :
    f.wf = true ↔ .pc ∈ f.words ∧ f.words.Nodup ∧ [f.image.i, f.image.t, f.image.c, f.image.z].Nodup := by
  rw [IrqFrame.wf, Bool.and_eq_true, Bool.and_eq_true, List.contains_iff_mem, decide_eq_true_iff, decide_eq_true_iff,
    and_assoc]

/-- After an entry the words of the frame stand on the stack from SP upward, the last pushed first. -/
theorem readWord_of_enterInterrupt {s t : State} {v : Word} (hlen : s.cfg.irqFrame.words.length < 32768)
    (h : enterInterrupt s v = .ok t) {n : Nat} (hn : n < s.cfg.irqFrame.words.reverse.length) :
    readWord t (t.sp + BitVec.ofNat 16 (2 * n)) = .ok (savedWord s s.cfg.irqFrame.words.reverse[n]) := by
  obtain ⟨u, hu, rfl⟩ := enterInterrupt_ok.1 h
  rw [List.length_reverse] at hn
  have hread := pushAll_readWord hu (j := s.cfg.irqFrame.words.length - 1 - n) (by rwa [List.length_map])
    (by rw [List.length_map]; omega)
  have haddr : s.sp - BitVec.ofNat 16 (2 * (s.cfg.irqFrame.words.length - 1 - n + 1)) =
      u.sp + BitVec.ofNat 16 (2 * n) := by
    rw [pushAll_sp hu, List.length_map]
    bv_omega
  rw [haddr, List.getElem_map] at hread
  rw [List.getElem_reverse]
  exact hread

/-- `reti` in a state whose stack holds the words that an entry from `s` saves. -/
theorem returnFromInterrupt_of_words {s h : State} (hcfg : h.cfg = s.cfg)
    (hread : ∀ n (hn : n < s.cfg.irqFrame.words.reverse.length),
      readWord h (h.sp + BitVec.ofNat 16 (2 * n)) = .ok (savedWord s s.cfg.irqFrame.words.reverse[n])) :
    returnFromInterrupt h = .ok
      { (s.cfg.irqFrame.words.reverse.map fun x => (x, savedWord s x)).foldl restoreWord h.advance with
        sp := h.sp + frameBytes s.cfg } := by
  refine returnFromInterrupt_ok.2 ⟨_, ?_, by rw [hcfg]⟩
  rw [hcfg]
  exact readFrame_of_words hread

/-- The words restored give back PC, the flags the frame holds, and the registers it holds, and nothing else. -/
theorem restore_saved {s h : State} (hcfg : h.cfg = s.cfg) (hwf : s.cfg.irqFrame.wf = true) :
    (s.cfg.irqFrame.words.reverse.map fun x => (x, savedWord s x)).foldl restoreWord h.advance =
      { h with
        pc := s.pc
        sr := if .sr ∈ s.cfg.irqFrame.words then s.sr else h.sr
        regs := ((s.cfg.irqFrame.words.reverse.map fun x => (x, savedWord s x)).foldl restoreWord h.advance).regs
        pfx := none } := by
  obtain ⟨hpc, -, himage⟩ := IrqFrame.wf_iff.1 hwf
  rw [restore_frame, restore_pc, restore_sr, if_pos (List.mem_reverse.2 hpc)]
  simp only [List.mem_reverse, State.advance_cfg, hcfg, savedWord, srOfImage_srImage himage]
  rfl

/-- Settles O13: the handler leaves the words of the entry where `reti` reads them, in the order it reads them. -/
theorem returnUndoesEntry : Obligations.ReturnUndoesEntry := by
  intro s t h v hwf hentry hcfg hpfx hsp hwords
  obtain ⟨-, hnodup, -⟩ := IrqFrame.wf_iff.1 hwf
  have hlen := length_le_of_nodup hnodup
  have hread : ∀ n (hn : n < s.cfg.irqFrame.words.reverse.length),
      readWord h (h.sp + BitVec.ofNat 16 (2 * n)) = .ok (savedWord s s.cfg.irqFrame.words.reverse[n]) := by
    intro n hn
    rw [hwords n (by rwa [List.length_reverse] at hn)]
    exact readWord_of_enterInterrupt (by omega) hentry hn
  have hback : h.sp + frameBytes s.cfg = s.sp := by
    rw [hsp, enterInterrupt_frame hentry]
    exact BitVec.sub_add_cancel ..
  have hreti := exec_reti_of_ok hpfx (returnFromInterrupt_of_words hcfg hread)
  rw [hback, restore_saved hcfg hwf] at hreti
  have hget : ∀ r, ((s.cfg.irqFrame.words.reverse.map fun x => (x, savedWord s x)).foldl restoreWord
      h.advance).regs.get r = if .reg r ∈ s.cfg.irqFrame.words then s.reg r else h.reg r := by
    intro r
    rw [restore_get]
    simp only [List.mem_reverse]
    rfl
  refine ⟨_, hreti, hget, fun hdef => ⟨by simp [hdef, IrqFrame.default], Regs.ext_get fun r => ?_⟩⟩
  rw [hget, if_neg (by simp [hdef, IrqFrame.default])]
  rfl

end Sys2Proof.Machine

/-! ### Proofs: the model faults of data accesses (20_memory.md R56, R61, 10_state.md R44, 60_exceptions.md R272) -/

namespace Sys2Proof.Machine

/-! #### What one access reports: alignment, then the map, then the bytes -/

theorem wordAddress_of_odd {c : Config} {ea : Word} (hc : c.misalignedWord = .fault) (h : ea.getLsbD 0 = true) :
    wordAddress c ea = .error (.misalignedWord ea) := by
  simp only [wordAddress, h, hc, if_true]

theorem wordAddress_of_clearBit0 {c : Config} (ea : Word) (hc : c.misalignedWord = .clearBit0) :
    wordAddress c ea = .ok (ea &&& 0xFFFE#16) :=
  wordAddress_ok.2 ⟨rfl, .inr hc⟩

theorem wordMapped_of_unmapped {s : State} {a : Word}
    (h : populated s.cfg.dataMap a.toNat = false ∨ populated s.cfg.dataMap (a + 1).toNat = false) :
    wordMapped s a = .error (.unmappedAccess a) := by
  rcases h with h | h
  · rw [wordMapped, h, Bool.false_and]
    rfl
  · rw [wordMapped, h, Bool.and_false]
    rfl

theorem readByte_of_unmapped {s : State} {a : Word} (h : populated s.cfg.dataMap a.toNat = false) :
    readByte s a = .error (.unmappedAccess a) := by
  simp [readByte, h]

theorem readByte_of_unwritten {s : State} {a : Word} (h : populated s.cfg.dataMap a.toNat = true)
    (hw : Memory.get s.data a.toNat = none) : readByte s a = .error (.unwrittenRead (.dataByte a)) := by
  simp [readByte, h, hw]

theorem writeByte_of_unmapped {s : State} {a : Word} (b : Byte) (h : populated s.cfg.dataMap a.toNat = false) :
    writeByte s a b = .error (.unmappedAccess a) := by
  simp [writeByte, h]

theorem writeWord_of_wordAddress {s : State} {ea a : Word} (v : Word) (h : wordAddress s.cfg ea = .ok a) :
    writeWord s ea v = do
      wordMapped s a
      return storeBytes s a (firstByte s.cfg.byteOrder v) (secondByte s.cfg.byteOrder v) := by
  rw [writeWord, h]
  rfl

/-- The two faults a word access meets before it touches a byte, of reads and writes alike. -/
def WordAccessFaults (s : State) (ea : Word) (f : Fault) : Prop :=
  wordAddress s.cfg ea = .error f ∨ ∃ a, wordAddress s.cfg ea = .ok a ∧ wordMapped s a = .error f

theorem wordAccessFaults_of_odd {s : State} {ea : Word} (hc : s.cfg.misalignedWord = .fault)
    (h : ea.getLsbD 0 = true) : WordAccessFaults s ea (.misalignedWord ea) :=
  .inl (wordAddress_of_odd hc h)

theorem wordAccessFaults_of_unmapped {s : State} {ea : Word} (heven : ea.getLsbD 0 = false)
    (h : populated s.cfg.dataMap ea.toNat = false ∨ populated s.cfg.dataMap (ea + 1).toNat = false) :
    WordAccessFaults s ea (.unmappedAccess ea) :=
  .inr ⟨ea, wordAddress_of_even heven, wordMapped_of_unmapped h⟩

theorem readWord_of_faults {s : State} {ea : Word} {f : Fault} (h : WordAccessFaults s ea f) :
    readWord s ea = .error f := by
  rcases h with h | ⟨a, h, hm⟩
  · exact readWord_of_wordAddress_error h
  · rw [readWord_of_wordAddress h, hm]
    rfl

theorem writeWord_of_faults {s : State} {ea : Word} {f : Fault} (v : Word) (h : WordAccessFaults s ea f) :
    writeWord s ea v = .error f := by
  rcases h with h | ⟨a, h, hm⟩
  · rw [writeWord, h]
    rfl
  · rw [writeWord_of_wordAddress v h, hm]
    rfl

/-- Moving SP first does not change what a push reports. -/
theorem push_of_faults {s : State} {f : Fault} (v : Word) (h : WordAccessFaults s (s.sp - 2) f) :
    push s v = .error f :=
  writeWord_of_faults (s := { s with sp := s.sp - 2 }) v h

/-! #### An instruction stops with the fault of its access -/

theorem settle_map_of_error {α : Type} {r : Except Fault α} {f : Fault} (k : α → State) (h : r = .error f) :
    settle (r.map k) = .fault f := by
  rw [h]
  rfl

theorem unprefixed_settle_map_of_error {α : Type} {s : State} {r : Except Fault α} {f : Fault} (k : α → State)
    (hp : s.pfx = none) (h : r = .error f) : unprefixed s (settle (r.map k)) = .fault f :=
  (unprefixed_of_none _ hp).trans (settle_map_of_error k h)

theorem readFrame_of_error {s : State} {f : Fault} {xs : List FrameWord} {a : Word} (hne : xs ≠ [])
    (h : readWord s a = .error f) : readFrame s xs a = .error f := by
  obtain ⟨x, xs, rfl⟩ := List.exists_cons_of_ne_nil hne
  rw [readFrame, h]
  rfl

theorem readFrame_cons_of_rest_error {s : State} {f : Fault} {x : FrameWord} {xs : List FrameWord} {a v : Word}
    (hv : readWord s a = .ok v) (h : readFrame s xs (a + 2) = .error f) : readFrame s (x :: xs) a = .error f := by
  simp only [readFrame, hv, h, bind, Except.bind]

theorem exec_reti_of_readFrame_error {s : State} {f : Fault} (hp : s.pfx = none)
    (h : readFrame s s.cfg.irqFrame.words.reverse s.sp = .error f) : exec .reti s = .fault f := by
  refine (unprefixed_of_none _ hp).trans (settle_fault.2 ?_)
  rw [returnFromInterrupt, h]
  rfl

/-- A row of type R2 or R3 takes no prefix, so its premise on the prefix is that there is none. -/
theorem exec_of_wordRead_error {i : Instr} {s : State} {a : Word} {f : Fault}
    (hp : s.pfx = none ∨ i.isPrefixable = true) (ha : wordRead s i = some a) (h : readWord s a = .error f) :
    exec i s = .fault f := by
  cases i with
  | movwAr | movwQr | movwMr =>
    cases ha
    exact settle_map_of_error _ h
  | movwNr =>
    cases ha
    exact unprefixed_settle_map_of_error _ (hp.resolve_right Bool.false_ne_true) h
  | ret =>
    cases ha
    exact unprefixed_settle_map_of_error _ (hp.resolve_right Bool.false_ne_true) h
  | reti =>
    obtain ⟨hne, hsp⟩ := Option.ite_none_left_eq_some.1 ha
    cases hsp
    refine exec_reti_of_readFrame_error (hp.resolve_right Bool.false_ne_true) (readFrame_of_error ?_ h)
    simpa using hne
  | _ => cases ha

theorem exec_of_byteRead_error {i : Instr} {s : State} {a : Word} {f : Fault}
    (hp : s.pfx = none ∨ i.isPrefixable = true) (ha : byteRead s i = some a) (h : readByte s a = .error f) :
    exec i s = .fault f := by
  cases i with
  | movsbAr | movsbQr | movsbMr =>
    cases ha
    exact settle_map_of_error _ h
  | movzbNr | movsbNr =>
    cases ha
    exact unprefixed_settle_map_of_error _ (hp.resolve_right Bool.false_ne_true) h
  | _ => cases ha

/-- A word access is a word read, a word store, or the push of a call. -/
theorem exec_of_wordAccess_faults {i : Instr} {s : State} {ea : Word} {f : Fault}
    (hp : s.pfx = none ∨ i.isPrefixable = true) (ha : wordAccess s i = some ea) (h : WordAccessFaults s ea f) :
    exec i s = .fault f := by
  cases i with
  | movwAr | movwQr | movwMr | movwNr | ret | reti => exact exec_of_wordRead_error hp ha (readWord_of_faults h)
  | movwRa | movwRq | movwRm =>
    cases ha
    exact settle_map_of_error _ (writeWord_of_faults _ h)
  | movwRn =>
    cases ha
    exact unprefixed_settle_map_of_error _ (hp.resolve_right Bool.false_ne_true) (writeWord_of_faults _ h)
  | call =>
    cases ha
    exact settle_map_of_error _ (push_of_faults _ h)
  | callR =>
    cases ha
    exact unprefixed_settle_map_of_error _ (hp.resolve_right Bool.false_ne_true) (push_of_faults _ h)
  | _ => cases ha

/-- A byte access is a byte read or a byte store. -/
theorem exec_of_byteAccess_unmapped {i : Instr} {s : State} {ea : Word}
    (hp : s.pfx = none ∨ i.isPrefixable = true) (ha : byteAccess s i = some ea)
    (h : populated s.cfg.dataMap ea.toNat = false) : exec i s = .fault (.unmappedAccess ea) := by
  cases i with
  | movsbAr | movsbQr | movsbMr | movzbNr | movsbNr => exact exec_of_byteRead_error hp ha (readByte_of_unmapped h)
  | movbRa | movbRq | movbRm =>
    cases ha
    exact settle_map_of_error _ (writeByte_of_unmapped _ h)
  | movbRn =>
    cases ha
    exact unprefixed_settle_map_of_error _ (hp.resolve_right Bool.false_ne_true) (writeByte_of_unmapped _ h)
  | _ => cases ha

/-! #### An entry stops with the fault of its first push that faults -/

theorem enterInterrupt_of_pushAll_error {s : State} {f : Fault} (v : Word)
    (h : pushAll s (s.cfg.irqFrame.words.map (savedWord s)) = .error f) : enterInterrupt s v = .error f := by
  rw [enterInterrupt, h]
  rfl

theorem pushAll_cons_of_error {s : State} {f : Fault} {v : Word} (vs : List Word) (h : push s v = .error f) :
    pushAll s (v :: vs) = .error f := by
  rw [pushAll, h]
  rfl

theorem pushAll_cons_of_ok {s s1 : State} {v : Word} (vs : List Word) (h : push s v = .ok s1) :
    pushAll s (v :: vs) = pushAll s1 vs := by
  rw [pushAll, h]
  rfl

theorem enterInterrupt_of_first_faults {s : State} {f : Fault} (v : Word) (hne : s.cfg.irqFrame.words ≠ [])
    (h : WordAccessFaults s (s.sp - 2) f) : enterInterrupt s v = .error f := by
  obtain ⟨x, xs, hx⟩ := List.exists_cons_of_ne_nil hne
  refine enterInterrupt_of_pushAll_error v ?_
  rw [hx, List.map_cons]
  exact pushAll_cons_of_error _ (push_of_faults _ h)

theorem exists_cons_cons_of_two_le {α : Type} {xs : List α} (h : 2 ≤ xs.length) : ∃ x y ys, xs = x :: y :: ys := by
  match xs, h with
  | x :: y :: ys, _ => exact ⟨x, y, ys, rfl⟩

theorem enterInterrupt_of_second_faults {s : State} {f : Fault} (v : Word)
    (hlen : 2 ≤ s.cfg.irqFrame.words.length) (hopen : wordOpen s (s.sp - 2))
    (h : WordAccessFaults s (s.sp - 2 - 2) f) : enterInterrupt s v = .error f := by
  obtain ⟨x, y, xs, hx⟩ := exists_cons_cons_of_two_le hlen
  refine enterInterrupt_of_pushAll_error v ?_
  rw [hx, List.map_cons, List.map_cons, pushAll_cons_of_ok _ (push_of_wordOpen _ hopen)]
  exact pushAll_cons_of_error _ (push_of_faults _ h)

/-! #### `reti` stops with the fault of its second read -/

theorem exec_reti_of_second_error {s : State} {top : Word} {f : Fault} (hp : s.pfx = none)
    (hlen : 2 ≤ s.cfg.irqFrame.words.length) (htop : readWord s s.sp = .ok top)
    (h : readWord s (s.sp + 2) = .error f) : exec .reti s = .fault f := by
  rw [← List.length_reverse] at hlen
  obtain ⟨x, y, xs, hx⟩ := exists_cons_cons_of_two_le hlen
  refine exec_reti_of_readFrame_error hp ?_
  rw [hx]
  exact readFrame_cons_of_rest_error htop (readFrame_of_error (List.cons_ne_nil y xs) h)

/-! #### The obligations -/

theorem getLsbD_zero_sub_two (a : Word) : (a - 2).getLsbD 0 = a.getLsbD 0 := by
  rw [BitVec.getLsbD, BitVec.getLsbD, Nat.testBit_zero, Nat.testBit_zero, decide_eq_decide]
  bv_omega

theorem getLsbD_zero_add_two (a : Word) : (a + 2).getLsbD 0 = a.getLsbD 0 := by
  rw [BitVec.getLsbD, BitVec.getLsbD, Nat.testBit_zero, Nat.testBit_zero, decide_eq_decide]
  bv_omega

/-- Settles O28. -/
theorem misalignedWordAccess : Obligations.MisalignedWordAccess := by
  refine ⟨fun i s ea hc ha hodd hp => exec_of_wordAccess_faults hp ha (wordAccessFaults_of_odd hc hodd),
    fun s v hc hodd hne => ?_, fun s ea v hc => ?_⟩
  · exact enterInterrupt_of_first_faults v hne (wordAccessFaults_of_odd hc (by rwa [getLsbD_zero_sub_two]))
  · have hea := wordAddress_of_clearBit0 ea hc
    have heven := wordAddress_of_even (c := s.cfg) (getLsbD_zero_and_mask ea)
    exact ⟨(readWord_of_wordAddress hea).trans (readWord_of_wordAddress heven).symm,
      (writeWord_of_wordAddress v hea).trans (writeWord_of_wordAddress v heven).symm⟩

/-- Settles O29. -/
theorem unmappedDataAccess : Obligations.UnmappedDataAccess := by
  refine ⟨fun i s ea hp => ⟨exec_of_byteAccess_unmapped hp, fun ha heven hmap => ?_⟩, fun s v heven => ⟨?_, ?_⟩, ?_⟩
  · exact exec_of_wordAccess_faults hp ha (wordAccessFaults_of_unmapped heven hmap)
  · intro hlen hmap
    have hnext : s.sp - 2 + 1 = s.sp - 1 := by bv_omega
    refine enterInterrupt_of_first_faults v (List.ne_nil_of_length_pos hlen) (wordAccessFaults_of_unmapped ?_ ?_)
    · rwa [getLsbD_zero_sub_two]
    · rwa [hnext]
  · intro hlen hopen hmap
    have haddr : s.sp - 2 - 2 = s.sp - 4 := by bv_omega
    have hnext : s.sp - 4 + 1 = s.sp - 3 := by bv_omega
    refine enterInterrupt_of_second_faults v hlen hopen ?_
    rw [haddr]
    refine wordAccessFaults_of_unmapped ?_ (by rwa [hnext])
    rwa [← haddr, getLsbD_zero_sub_two, getLsbD_zero_sub_two]
  · intro s top hp hlen heven htop hmap
    have hnext : s.sp + 2 + 1 = s.sp + 3 := by bv_omega
    refine exec_reti_of_second_error hp hlen htop (readWord_of_faults (wordAccessFaults_of_unmapped ?_ ?_))
    · rwa [getLsbD_zero_add_two]
    · rwa [hnext]

/-- Of an open word the two bytes are read, the lower one first. -/
theorem readWord_of_wordOpen {s : State} {a : Word} (h : wordOpen s a) :
    readWord s a = do
      let b0 ← readByte s a
      let b1 ← readByte s (a + 1)
      return joinBytes s.cfg.byteOrder b0 b1 := by
  obtain ⟨heven, hlow, hhigh⟩ := h
  rw [readWord_of_wordAddress (wordAddress_of_even heven), (wordMapped_ok (u := ())).2 ⟨hlow, hhigh⟩]
  rfl

/-- Settles O30. -/
theorem dataReadFaults : Obligations.DataReadFaults := by
  refine ⟨fun s a => readByte_of_unwritten, ?_,
    fun i s a f hp h => ?_, fun s img f hp hlen htop h => exec_reti_of_second_error hp hlen htop h⟩
  · intro s a hopen
    have ⟨_, hmap, hmap'⟩ := hopen
    rw [readWord_of_wordOpen hopen]
    refine ⟨fun hlow => ?_, fun hlow hhigh => ?_⟩
    · rw [readByte_of_unwritten hmap hlow]
      rfl
    · obtain ⟨b, hb⟩ := Option.ne_none_iff_exists'.1 hlow
      rw [readByte_ok.2 ⟨hmap, hb⟩, readByte_of_unwritten hmap' hhigh]
      rfl
  · rcases h with ⟨ha, h⟩ | ⟨ha, h⟩
    · exact exec_of_wordRead_error hp ha h
    · exact exec_of_byteRead_error hp ha h

end Sys2Proof.Machine

/-! ### Proofs: the readers of T (10_state.md R32) -/

namespace Sys2Proof.Machine

/-! #### Outcomes that differ by a change of their next state alone -/

/-- The prefix check looks at the latch and the instruction word. -/
theorem unprefixed_onNext {f : State → State} {s s' : State} {r r' : Result} (hp : s'.pfx = s.pfx)
    (hw : s'.instrWord = s.instrWord) (h : r' = onNext f r) : unprefixed s' r' = onNext f (unprefixed s r) := by
  cases hs : s.pfx with
  | none => rw [unprefixed_of_none _ hs, unprefixed_of_none _ (hp.trans hs), h]
  | some p =>
    have hs' : s.pfx ≠ none := by simp [hs]
    rw [unprefixed_of_pending _ hs', unprefixed_of_pending _ (hp ▸ hs'), hw]
    rfl

theorem settle_onNext {f : State → State} (r : Except Fault State) : settle (r.map f) = onNext f (settle r) := by
  cases r <;> rfl

/-- An access that answers alike, and then two ends that differ by the change. -/
theorem settle_map_onNext {α : Type} {f : State → State} {r : Except Fault α} {k k' : α → State}
    (h : ∀ a, k' a = f (k a)) : settle (r.map k') = onNext f (settle (r.map k)) := by
  cases r with
  | error e => rfl
  | ok a => exact congrArg _ (h a)

theorem settle_map_map_onNext {f : State → State} {r : Except Fault State} {k : State → State}
    (h : ∀ t, k (f t) = f (k t)) : settle ((r.map f).map k) = onNext f (settle (r.map k)) := by
  cases r with
  | error e => rfl
  | ok a => exact congrArg _ (h a)

/-! #### Accesses do not read T -/

theorem readWord_withT (s : State) (b : Bool) (ea : Word) : readWord (s.withT b) ea = readWord s ea := rfl

theorem writeByte_withT (s : State) (b : Bool) (a : Word) (v : Byte) :
    writeByte (s.withT b) a v = (writeByte s a v).map fun t => t.withT b := by
  cases h : populated s.cfg.dataMap a.toNat with
  | false => rw [writeByte_of_unmapped v h, writeByte_of_unmapped (s := s.withT b) v h]; rfl
  | true => rw [writeByte_ok.2 ⟨h, rfl⟩, writeByte_ok (s := s.withT b).2 ⟨h, rfl⟩]; rfl

theorem writeWord_withT (s : State) (b : Bool) (ea v : Word) :
    writeWord (s.withT b) ea v = (writeWord s ea v).map fun t => t.withT b := by
  cases ha : wordAddress s.cfg ea with
  | error f => rw [writeWord_of_faults v (.inl ha), writeWord_of_faults (s := s.withT b) v (.inl ha)]; rfl
  | ok a =>
    cases hm : wordMapped s a with
    | error f =>
      rw [writeWord_of_faults v (.inr ⟨a, ha, hm⟩), writeWord_of_faults (s := s.withT b) v (.inr ⟨a, ha, hm⟩)]; rfl
    | ok u =>
      rw [writeWord_ok.2 ⟨a, ha, hm, rfl⟩, writeWord_ok (s := s.withT b).2 ⟨a, ha, hm, rfl⟩]; rfl

theorem push_withT (s : State) (b : Bool) (v : Word) :
    push (s.withT b) v = (push s v).map fun t => t.withT b :=
  writeWord_withT { s with sp := s.sp - 2 } b (s.sp - 2) v

theorem readFrame_withT (s : State) (b : Bool) (xs : List FrameWord) (a : Word) :
    readFrame (s.withT b) xs a = readFrame s xs a := by
  induction xs generalizing a with
  | nil => rfl
  | cons x xs ih => rw [readFrame, readFrame, readWord_withT, ih]

/-! #### The shared ends keep T where it is -/

theorem moveTo_withT (s : State) (b : Bool) (rd : Reg) (v : Word) :
    moveTo (s.withT b) rd v = onNext (fun t => t.withT b) (moveTo s rd v) :=
  unprefixed_onNext rfl rfl rfl

theorem loadWord_withT (s : State) (b : Bool) (rd : Reg) (ea : Word) :
    loadWord (s.withT b) rd ea = onNext (fun t => t.withT b) (loadWord s rd ea) :=
  settle_map_onNext (r := readWord s ea) fun _ => rfl

theorem loadSignedByte_withT (s : State) (b : Bool) (rd : Reg) (ea : Word) :
    loadSignedByte (s.withT b) rd ea = onNext (fun t => t.withT b) (loadSignedByte s rd ea) :=
  settle_map_onNext (r := readByte s ea) fun _ => rfl

theorem loadZeroByte_withT (s : State) (b : Bool) (rd : Reg) (ea : Word) :
    loadZeroByte (s.withT b) rd ea = onNext (fun t => t.withT b) (loadZeroByte s rd ea) :=
  settle_map_onNext (r := readByte s ea) fun _ => rfl

theorem storeWord_withT (s : State) (b : Bool) (rd : Reg) (ea : Word) :
    storeWord (s.withT b) rd ea = onNext (fun t => t.withT b) (storeWord s rd ea) := by
  rw [storeWord, writeWord_withT]
  exact settle_map_map_onNext fun _ => rfl

theorem storeByte_withT (s : State) (b : Bool) (rd : Reg) (ea : Word) :
    storeByte (s.withT b) rd ea = onNext (fun t => t.withT b) (storeByte s rd ea) := by
  rw [storeByte, writeByte_withT]
  exact settle_map_map_onNext fun _ => rfl

theorem callTo_withT (s : State) (b : Bool) (target : Word) :
    callTo (s.withT b) target = onNext (fun t => t.withT b) (callTo s target) := by
  rw [callTo, push_withT]
  exact settle_map_map_onNext fun _ => rfl

theorem reserved_withT (s : State) (b : Bool) :
    reserved (s.withT b) = onNext (fun t => t.withT b) (reserved s) := by
  cases h : s.cfg.reservedOp with
  | fault => rw [reserved_of_fault h, reserved_of_fault (s := s.withT b) h]; rfl
  | refuse => rw [reserved_of_refuse h, reserved_of_refuse (s := s.withT b) h]; rfl

/-! #### `reti`, by whether the frame holds the SR image (log entry 20) -/

theorem restoreWord_withT {s : State} {b : Bool} {p : FrameWord × Word} (h : p.1 ≠ .sr) :
    restoreWord (s.withT b) p = (restoreWord s p).withT b := by
  obtain ⟨x, v⟩ := p
  cases x with
  | sr => exact absurd rfl h
  | pc | reg => rfl

theorem restore_withT_of_notMem {vs : List (FrameWord × Word)} (h : .sr ∉ vs.map Prod.fst) (s : State) (b : Bool) :
    vs.foldl restoreWord (s.withT b) = (vs.foldl restoreWord s).withT b := by
  induction vs generalizing s with
  | nil => rfl
  | cons p vs ih =>
    rw [List.map_cons, List.mem_cons, not_or] at h
    rw [List.foldl_cons, List.foldl_cons, restoreWord_withT (Ne.symm h.1), ih h.2]

/-- The image popped replaces T. -/
theorem restore_withT_of_mem {vs : List (FrameWord × Word)} (h : .sr ∈ vs.map Prod.fst) (s : State) (b : Bool) :
    vs.foldl restoreWord (s.withT b) = vs.foldl restoreWord s := by
  induction vs generalizing s with
  | nil => cases h
  | cons p vs ih =>
    rw [List.foldl_cons, List.foldl_cons]
    by_cases hp : p.1 = .sr
    · obtain ⟨x, v⟩ := p
      cases hp
      rfl
    · rw [List.map_cons, List.mem_cons] at h
      rw [restoreWord_withT hp, ih (h.resolve_left (Ne.symm hp))]

theorem returnFromInterrupt_of_readFrame {s : State} {vs : List (FrameWord × Word)}
    (h : readFrame s s.cfg.irqFrame.words.reverse s.sp = .ok vs) :
    returnFromInterrupt s = .ok { vs.foldl restoreWord s.advance with sp := s.sp + frameBytes s.cfg } :=
  returnFromInterrupt_ok.2 ⟨vs, h, rfl⟩

theorem returnFromInterrupt_of_readFrame_error {s : State} {f : Fault}
    (h : readFrame s s.cfg.irqFrame.words.reverse s.sp = .error f) : returnFromInterrupt s = .error f := by
  rw [returnFromInterrupt, h]
  rfl

theorem returnFromInterrupt_withT_of_mem {s : State} (b : Bool) (h : .sr ∈ s.cfg.irqFrame.words) :
    returnFromInterrupt (s.withT b) = returnFromInterrupt s := by
  have hread := readFrame_withT s b s.cfg.irqFrame.words.reverse s.sp
  cases hr : readFrame s s.cfg.irqFrame.words.reverse s.sp with
  | error f =>
    rw [returnFromInterrupt_of_readFrame_error hr, returnFromInterrupt_of_readFrame_error (hread.trans hr)]
  | ok vs =>
    have hmem : .sr ∈ vs.map Prod.fst := by rwa [readFrame_words hr, List.mem_reverse]
    have hfold := restore_withT_of_mem hmem s.advance b
    rw [returnFromInterrupt_of_readFrame hr, returnFromInterrupt_of_readFrame (hread.trans hr), ← hfold]
    rfl

theorem returnFromInterrupt_withT_of_notMem {s : State} (b : Bool) (h : .sr ∉ s.cfg.irqFrame.words) :
    returnFromInterrupt (s.withT b) = (returnFromInterrupt s).map fun t => t.withT b := by
  have hread := readFrame_withT s b s.cfg.irqFrame.words.reverse s.sp
  cases hr : readFrame s s.cfg.irqFrame.words.reverse s.sp with
  | error f =>
    rw [returnFromInterrupt_of_readFrame_error hr, returnFromInterrupt_of_readFrame_error (hread.trans hr)]
    rfl
  | ok vs =>
    have hmem : .sr ∉ vs.map Prod.fst := by rwa [readFrame_words hr, List.mem_reverse]
    have hfold := restore_withT_of_notMem hmem s.advance b
    rw [returnFromInterrupt_of_readFrame hr, returnFromInterrupt_of_readFrame (hread.trans hr)]
    exact congrArg (fun t : State => Except.ok { t with sp := s.sp + frameBytes s.cfg }) hfold

/-! #### The three groups of instructions -/

theorem logicDrawn_draws_congr {s t : State} (hcfg : t.cfg = s.cfg) (hdraws : t.draws = s.draws) :
    (logicDrawn t).draws = (logicDrawn s).draws := by
  unfold logicDrawn
  rw [hcfg]
  cases s.cfg.logicC with
  | draw => exact congrArg (· + 1) hdraws
  | zero | unchanged => exact hdraws

/-- The end of a logical instruction writes T over, and draws by the parameters and the counter alone. -/
theorem finishLogic_withT (s : State) (b : Bool) (rd : Reg) (v : Word) :
    finishLogic (s.withT b) rd v = finishLogic s rd v := by
  rw [finishLogic_eq_record, finishLogic_eq_record, logicDrawn_draws_congr (s := s) (t := s.withT b) rfl rfl]
  rfl

theorem unprefixed_finishLogic_withT (s : State) (b : Bool) (rd : Reg) (v : Word) :
    unprefixed (s.withT b) (.next (finishLogic (s.withT b) rd v)) = unprefixed s (.next (finishLogic s rd v)) := by
  rw [finishLogic_withT]
  rfl

/-- An instruction that writes the flags without reading T writes T over. -/
theorem exec_withT_of_writesTCZ {i : Instr} {s : State} (b : Bool) (hw : writesTCZ i = true)
    (hreti : i = .reti → .sr ∈ s.cfg.irqFrame.words) : exec i (s.withT b) = exec i s := by
  cases i with
  | addRrr | addKr | adcRrr | subRrr | subKr | subcRrr | negRr | lsrRr | lsrcRr | asrRr | cmpCrr | cmpCrk | cmpcCrr
  | cmpcCrk => rfl
  | andRrr | orRrr | xorRrr | notRr => exact unprefixed_finishLogic_withT s b _ _
  | andKr => exact congrArg Host.Outcome.next (finishLogic_withT s b _ _)
  | reti =>
    have hret := returnFromInterrupt_withT_of_mem b (hreti rfl)
    exact congrArg (fun r => unprefixed s (settle r)) hret
  | _ => cases hw

/-- An instruction that neither reads T nor writes the flags leaves T as it found it. -/
theorem exec_withT_of_not_writesTCZ {i : Instr} {s : State} (b : Bool) (ht : readsT i = false)
    (hw : writesTCZ i = false ∨ (i = .reti ∧ .sr ∉ s.cfg.irqFrame.words)) :
    exec i (s.withT b) = onNext (fun t => t.withT b) (exec i s) := by
  cases i with
  | movRr | zextRr | sextRr | lsrbRr | asrbRr | lslbRr | sextwRr | nop => exact moveTo_withT s b _ _
  | movRq | dint | eint | halt | pfixK | jmpR => exact unprefixed_onNext rfl rfl rfl
  | movKr | leaMr | leaQr | addKq | jmpK => rfl
  | movwPr rd rs =>
    exact unprefixed_onNext rfl rfl
      (settle_map_onNext (r := progRead s (s.reg rs) (.unmappedAccess (s.reg rs))) fun _ => rfl)
  | call => exact callTo_withT s b _
  | callR => exact unprefixed_onNext rfl rfl (callTo_withT s b _)
  | ret => exact unprefixed_onNext rfl rfl (settle_map_onNext (r := readWord s s.sp) fun _ => rfl)
  | reti =>
    obtain ⟨-, hsr⟩ := hw.resolve_left (by simp [writesTCZ])
    have hret := returnFromInterrupt_withT_of_notMem b hsr
    exact unprefixed_onNext rfl rfl ((congrArg settle hret).trans (settle_onNext _))
  | movwAr | movwQr | movwMr => exact loadWord_withT s b _ _
  | movsbAr | movsbQr | movsbMr => exact loadSignedByte_withT s b _ _
  | movwRa | movwRq | movwRm => exact storeWord_withT s b _ _
  | movbRa | movbRq | movbRm => exact storeByte_withT s b _ _
  | movwNr => exact unprefixed_onNext rfl rfl (loadWord_withT s b _ _)
  | movsbNr => exact unprefixed_onNext rfl rfl (loadSignedByte_withT s b _ _)
  | movzbNr => exact unprefixed_onNext rfl rfl (loadZeroByte_withT s b _ _)
  | movwRn => exact unprefixed_onNext rfl rfl (storeWord_withT s b _ _)
  | movbRn => exact unprefixed_onNext rfl rfl (storeByte_withT s b _ _)
  | reservedR2Op10010 | reservedR2Op10011 | reservedR2Op11101 | reservedR2Op11110 | reservedR2Op11111
  | reservedR3Op01111 | reservedJOp11000 | reservedJOp11001 | reservedJOp11010 | reservedJOp11011
  | reservedPOp11100 | reservedPOp11101 | movSr | movRs => exact reserved_withT s b
  | selRrr | sel0rr | selR0r | setT | setNt | brT | brNt => cases ht
  | _ => simp [writesTCZ] at hw

/-- The seven conditional instructions read T alone of the flags. -/
theorem exec_withCZ_of_readsT {i : Instr} (s : State) (c z : Bool) (ht : readsT i = true) :
    exec i (s.withCZ c z) = onNext (fun t => t.withCZ c z) (exec i s) := by
  cases i with
  | selRrr | sel0rr | selR0r | setT | setNt => exact unprefixed_onNext rfl rfl rfl
  | brT => rw [exec_brT, exec_brT]; rfl
  | brNt => rw [exec_brNt, exec_brNt]; rfl
  | _ => cases ht

/-- Settles O22. -/
theorem readersOfT : Obligations.ReadersOfT :=
  ⟨fun _ _ b _ => exec_withT_of_writesTCZ b, fun _ _ b => exec_withT_of_not_writesTCZ b,
    fun _ s c z => exec_withCZ_of_readsT s c z⟩

end Sys2Proof.Machine
